-- ==== Sys2Proof/Word.lean ====
section
/-! DEFINITION. The word types of HTB: the bus word, the symbol, the arena index, the code word, the offset. -/

namespace Sys2Proof

/-- A bus word, a register, a frequency, a command word (00_scope.md R4, R8). -/
abbrev Word := BitVec 32

/-- A byte of the packed stream, and an 8-bit symbol (00_scope.md R3). -/
abbrev Byte := BitVec 8

/-- An arena index, 0 to 510, or NONE (00_scope.md R5). -/
abbrev NodeIndex := BitVec 9

/-- The CODE field of a code-table entry (10_state.md R42). -/
abbrev CodeWord := BitVec 256

/-- A byte offset into the register space of the slave port (20_memory.md R70). -/
abbrev Offset := BitVec 18

/-- NONE, the null arena index 0x1FF (00_scope.md R5). -/
abbrev noneIndex : NodeIndex := 0x1FF#9

end Sys2Proof
end

