-- ==== Sys2Proof/Config.lean ====
section
/-! DEFINITION. What an implementation of HTB fixes (its parameters) and the values the spec leaves UNSPEC (free values). -/

namespace Sys2Proof

/-- The model parameters P1 to P3 of 93_implementation_defined.md: the buffer sizes (00_scope.md R7) and the place of
the block in the host's address space (00_scope.md R8). A value of this type stands in State, where no step changes
it, so that every statement is about every size (log 2). -/
structure Params where
  symBufSize  : Nat
  byteBufSize : Nat
  baseAddr    : Nat
  deriving DecidableEq, Repr

/-- The parameters `State.reset` is written out with: the sizes of the spec's test vectors (95_test_vectors.md).
DESIGN CHOICE, log 2. No statement rests on them. -/
def Params.reference : Params := { symBufSize := 16, byteBufSize := 16, baseAddr := 0 }

/-! UNSPEC (00_scope.md section 5): "a free draw with no law". Each is applied to the number of a draw (a counter in
State, log 3) and to the index of the entry, and has no body that Lean could use. -/

/-- An entry of SYM_BUF that nothing has written since the draw (93_implementation_defined.md U3, U5). -/
opaque Config.freeSymbol : Nat → Nat → Byte

/-- An entry of BYTE_BUF that nothing has written since the draw (93_implementation_defined.md U3, U4). -/
opaque Config.freeByte : Nat → Nat → Byte

/-- FREQ of an arena entry that nothing has written since reset (93_implementation_defined.md U1, U2). -/
opaque Config.freeNodeFreq : Nat → Nat → Word

/-- LEAF of an arena entry that nothing has written since reset (93_implementation_defined.md U1, U2). -/
opaque Config.freeNodeLeaf : Nat → Nat → Bool

/-- SYM of an arena entry that nothing has written since reset (93_implementation_defined.md U1, U2). -/
opaque Config.freeNodeSym : Nat → Nat → Byte

/-- LEFT of an arena entry that nothing has written since reset (93_implementation_defined.md U1, U2). -/
opaque Config.freeNodeLeft : Nat → Nat → NodeIndex

/-- RIGHT of an arena entry that nothing has written since reset (93_implementation_defined.md U1, U2). -/
opaque Config.freeNodeRight : Nat → Nat → NodeIndex

/-- rdata of the n-th response of a run, where that is a write answered OK: the spec states no read data there (20_memory.md
R72, R75; log 5). -/
opaque Config.freeWriteData : Nat → Word

end Sys2Proof
end

