-- ==== Sys2Proof/Syntax.lean ====
section
/-! DEFINITION. The commands of HTB (30_encoding.md R101) and the bus transactions of its slave port (20_memory.md R72). -/

namespace Sys2Proof

/-- The seven commands, one a row of spec/opcode_table.json. No command has an operand field: operands are fixed
registers and memories (30_encoding.md R100, R104). -/
inductive Instr where
  | nop
  | clearFreq
  | build
  | walk
  | encode
  | decode
  | clearTable
  deriving DecidableEq, Repr

/-- Why the decoder rejects a command word (30_encoding.md R102). -/
inductive DecodeReject where
  /-- w[31:4] is not zero. -/
  | mustBeZero
  /-- w[31:4] is zero and OP is one of 0x7 to 0xF. -/
  | reservedOpcode
  deriving DecidableEq, Repr

/-- The size of a bus transaction in bytes (20_memory.md R72). -/
inductive AccessSize where
  | one
  | two
  | four
  deriving DecidableEq, Repr

/-- The kind of a bus transaction; a write carries its data (20_memory.md R72). -/
inductive AccessKind where
  | read
  | write (wdata : Word)
  deriving DecidableEq, Repr

/-- A bus transaction as the slave port sees it (20_memory.md R72). -/
structure Transaction where
  kind   : AccessKind
  offset : Offset
  size   : AccessSize
  deriving DecidableEq, Repr

/-- The response code of a transaction (20_memory.md R72). -/
inductive Resp where
  | ok
  | err
  deriving DecidableEq, Repr

/-- The response to a transaction (20_memory.md R72). -/
structure Response where
  resp  : Resp
  rdata : Word
  deriving DecidableEq, Repr

/-- One event of a run (20_memory.md R86, 70_reset_and_hazards.md R290). A run is one interleaving of these. -/
inductive Event where
  /-- The host issues a transaction. -/
  | bus (t : Transaction)
  /-- The engine takes its step, if it has one. -/
  | engine
  /-- The reset input is asserted. -/
  | reset
  deriving DecidableEq, Repr

end Sys2Proof
end

