-- ==== Sys2Proof/WellFormed.lean ====
section
/-! DEFINITION. Which terms of the syntax the spec allows: parameters, transactions, command words, commands. -/

namespace Sys2Proof

/-- A buffer size is "a multiple of 4 from 4 to 65536" (00_scope.md R7). -/
abbrev legalBufferSize (n : Nat) : Prop := n % 4 = 0 ∧ 4 ≤ n ∧ n ≤ 65536

/-- Both buffer sizes are legal; BASE_ADDR is any placement (93_implementation_defined.md P1 to P3). -/
abbrev Params.WellFormed (p : Params) : Prop := legalBufferSize p.symBufSize ∧ legalBufferSize p.byteBufSize

/-- "Only size = 4 with offset[1:0] = 0 is a legal access" (20_memory.md R72). -/
abbrev Transaction.WellFormed (t : Transaction) : Prop := t.size = .four ∧ t.offset.toNat % 4 = 0

/-- A command word is legal: w[31:4] = 0 and OP is at most 6 (30_encoding.md R101, R102). -/
abbrev CommandWord.WellFormed (w : Word) : Prop := w.toNat / 16 = 0 ∧ w.toNat % 16 ≤ 6

/-- An ERR response has rdata 0 (20_memory.md R73, R74, R80, 60_exceptions.md R264). -/
abbrev Response.WellFormed (r : Response) : Prop := r.resp = .err → r.rdata = 0#32

/-- Every command is well-formed: "No command takes an immediate, a register number or a mode field" (30_encoding.md
R100). There is nothing to check. -/
def Instr.WellFormed : Instr → Bool
  | .nop => true
  | .clearFreq => true
  | .build => true
  | .walk => true
  | .encode => true
  | .decode => true
  | .clearTable => true

end Sys2Proof
end

