-- ==== Sys2Proof/Decode.lean ====
section
/-! DEFINITION. The command-word decoder, total on every 32-bit word, and the encoder (30_encoding.md R100 to R103). -/

namespace Sys2Proof

/-- OP, bits 3:0 of a command word (30_encoding.md R100). -/
def opField (w : Word) : BitVec 4 := w.extractLsb' 0 4

/-- MBZ, bits 31:4 of a command word (30_encoding.md R100). -/
def mbzField (w : Word) : BitVec 28 := w.extractLsb' 4 28

/-- The opcode assignment (30_encoding.md R101) and the illegal words (R102), in the order R136 checks them. -/
def decodeCommand (w : Word) : Except DecodeReject Instr :=
  if mbzField w ≠ 0#28 then .error .mustBeZero
  else match (opField w).toNat with
    | 0 => .ok .nop
    | 1 => .ok .clearFreq
    | 2 => .ok .build
    | 3 => .ok .walk
    | 4 => .ok .encode
    | 5 => .ok .decode
    | 6 => .ok .clearTable
    | _ => .error .reservedOpcode

/-- The word of a command (30_encoding.md R101). -/
def encodeCommand : Instr → Word
  | .nop => 0x00000000#32
  | .clearFreq => 0x00000001#32
  | .build => 0x00000002#32
  | .walk => 0x00000003#32
  | .encode => 0x00000004#32
  | .decode => 0x00000005#32
  | .clearTable => 0x00000006#32

/-- The command the decoder reads from an opcode-table word of `nbits` bits. A command is one 32-bit word (30_encoding.md
R103): a bit above `nbits` is 0. -/
def decodeTableWord (nbits w : Nat) : Option Instr :=
  match decodeCommand (BitVec.ofNat 32 (w % 2 ^ nbits)) with
  | .ok i => some i
  | .error _ => none

end Sys2Proof
end

