-- ==== Sys2Proof/Machine/State.lean ====
section
/-! DEFINITION. The state of HTB: the tuple of 10_state.md R53, plain data, with the host's side of a run beside it. -/

namespace Sys2Proof.Machine

/-- The command errors of 60_exceptions.md R261. `CmdError.code` gives their numbers. -/
inductive CmdError where
  | illegalCmd
  | lenRange
  | freqOvf
  | noTree
  | noCode
  | outOvf
  | padHdr
  | padLen
  | decodeNoMatch
  | decodeResidue
  | tableAmbig
  deriving DecidableEq, Repr

/-- PHASE: IDLE or BUSY(w), where w is the accepted command word (10_state.md R47). -/
inductive Phase where
  | idle
  | busy (w : Word)
  deriving DecidableEq, Repr

/-- A code-table entry (10_state.md R42, 30_encoding.md R106). -/
structure CtEntry where
  len  : Byte
  code : CodeWord
  deriving DecidableEq, Repr

/-- {LEN 0, CODE 0}: no code. What CLEAR_TABLE, WALK and reset leave (10_state.md R42). -/
abbrev CtEntry.absent : CtEntry := { len := 0#8, code := 0#256 }

/-- An arena entry (10_state.md R43, 30_encoding.md R105). -/
structure Node where
  freq  : Word
  leaf  : Bool
  sym   : Byte
  left  : NodeIndex
  right : NodeIndex
  deriving DecidableEq, Repr

/-- A local memory as data: (index, value) pairs with strictly rising indices. What an unlisted index reads as is said
where the memory is read. `Memory Byte` is a list of `Host.Cell`. -/
abbrev Memory (α : Type) := List (Nat × α)

/-- A local memory whose unwritten entries are UNSPEC: those read the free values of draw number `draw` (log 3). -/
structure Ram (α : Type) where
  draw  : Nat
  cells : Memory α
  deriving DecidableEq, Repr

/-- The whole state. From `phase` to `byteBuf` it is the tuple of 10_state.md R53. `params` holds the constants of the
configuration (log 2), and `events`, `responses` and `draws` are the model's own (log 1, log 5, log 3). -/
structure State where
  /-- PHASE (R47); STATUS.BUSY is a function of it (R24). -/
  phase     : Phase
  /-- STATUS.DONE (R25). -/
  done      : Bool
  /-- STATUS.ERR (R26). -/
  err       : Bool
  /-- STATUS.TREE_VALID (R27). -/
  treeValid : Bool
  /-- STATUS.LAST_OP (R28). -/
  lastOp    : BitVec 4
  /-- STATUS.ERR_CODE (R29); `none` is 0x00. -/
  errCode   : Option CmdError
  /-- IRQ_EN: bit 0 DONE_IE, bit 1 ERR_IE (R30). -/
  irqEn     : BitVec 2
  /-- IRQ_STATUS: bit 0 DONE_IP, bit 1 ERR_IP (R31). -/
  irqStatus : BitVec 2
  /-- ERR_INFO (R32). -/
  errInfo   : Word
  /-- SYM_LEN (R33). -/
  symLen    : Word
  /-- BYTE_LEN (R34). -/
  byteLen   : Word
  /-- ENC_BITS (R35). -/
  encBits   : Word
  /-- PAD (R36). -/
  pad       : BitVec 4
  /-- NLEAF (R37). -/
  nleaf     : BitVec 9
  /-- NNODE (R38). -/
  nnode     : BitVec 9
  /-- ROOT (R39). -/
  root      : NodeIndex
  /-- CT_SEL (R41). -/
  ctSel     : Byte
  /-- NODE_SEL (R44). -/
  nodeSel   : NodeIndex
  /-- FREQ[0..255]; an unlisted entry is 0 (R40). -/
  freq      : Memory Word
  /-- CT[0..255]; an unlisted entry is {LEN 0, CODE 0} (R42). -/
  ct        : Memory CtEntry
  /-- NODE[0..510]; an unlisted entry is UNSPEC (R43). -/
  node      : Ram Node
  /-- SYM_BUF[0..SYM_BUF_SIZE-1]; an unlisted entry is UNSPEC (R45). -/
  symBuf    : Ram Byte
  /-- BYTE_BUF[0..BYTE_BUF_SIZE-1]; an unlisted entry is UNSPEC (R46). -/
  byteBuf   : Ram Byte
  /-- SYM_BUF_SIZE, BYTE_BUF_SIZE and BASE_ADDR: constants of the configuration (R21, 00_scope.md R7, R8). -/
  params    : Params
  /-- The model's own: the events still to come, oldest first. -/
  events    : List Event
  /-- The model's own: the responses given so far, oldest first. -/
  responses : List Response
  /-- The model's own: the number of the next draw of UNSPEC values. -/
  draws     : Nat
  deriving DecidableEq, Repr

/-- Why a step can stop the machine. HTB itself stops for nothing (60_exceptions.md R260; 93_implementation_defined.md
section 4: "No behaviour of HTB is `stuck`"); command errors are completions and bus errors are responses. -/
inductive Fault where
  /-- Raised by WALK alone, when TREE_VALID = 1 and the arena below ROOT is no binary tree of depth at most 255, so that
  `visit` of 42_code_table.md R190 has no end or a LEN does not fit its 8 bits. 41_tree_builder.md R172 and 00_scope.md R6
  say that this cannot be, and `Obligations.StepNeverStops` says that no state that keeps the invariant raises it.
  Safe: the model stops where the spec gives no effect (log 6). -/
  | arenaIsNoTree
  deriving DecidableEq, Repr

/-- Why the model gives an instruction no meaning. -/
inductive Refusal where
  /-- Raised by an arm of `exec` whose command has no meaning yet; no arm is in that case. Safe. -/
  | notModelled (mnemonic : String)
  deriving DecidableEq, Repr

/-- The state after reset for a configuration: 10_state.md R51. NODE, SYM_BUF and BYTE_BUF are UNSPEC in every entry. -/
def State.resetWith (p : Params) : State where
  phase := .idle
  done := false
  err := false
  treeValid := false
  lastOp := 0#4
  errCode := none
  irqEn := 0#2
  irqStatus := 0#2
  errInfo := 0#32
  symLen := 0#32
  byteLen := 0#32
  encBits := 0#32
  pad := 0#4
  nleaf := 0#9
  nnode := 0#9
  root := noneIndex
  ctSel := 0#8
  nodeSel := 0#9
  freq := []
  ct := []
  node := { draw := 0, cells := [] }
  symBuf := { draw := 0, cells := [] }
  byteBuf := { draw := 0, cells := [] }
  params := p
  events := []
  responses := []
  draws := 1

/-- The machine right after reset (10_state.md R51), written out for the reference parameters (log 2). -/
def State.reset : State := State.resetWith Params.reference

end Sys2Proof.Machine
end

