-- ==== Sys2Proof/Machine/Ops.lean ====
section
/-! DEFINITION. The named operations over the local memories and the command record: reading and writing an entry,
drawing UNSPEC values, accepting a command, completing one with success or with an error. -/

namespace Sys2Proof.Machine

/-! The memories as data. -/

/-- The value listed at an index. -/
def Memory.lookup {α : Type} : Memory α → Nat → Option α
  | [], _ => none
  | (j, v) :: m, i => if j = i then some v else Memory.lookup m i

/-- List `v` at `i`, in place of what was listed there. -/
def Memory.insert {α : Type} (i : Nat) (v : α) : Memory α → Memory α
  | [] => [(i, v)]
  | (j, w) :: m => if i < j then (i, v) :: (j, w) :: m else if i = j then (i, v) :: m else (j, w) :: Memory.insert i v m

/-- List nothing at `i`. -/
def Memory.erase {α : Type} (i : Nat) (m : Memory α) : Memory α := m.filter fun c => decide (c.1 ≠ i)

/-- Read an entry of a memory whose unlisted entries read `d`. -/
def Memory.read {α : Type} (d : α) (m : Memory α) (i : Nat) : α := (m.lookup i).getD d

/-- Write an entry of a memory whose unlisted entries read `d`: writing `d` removes the entry. -/
def Memory.write {α : Type} [DecidableEq α] (d : α) (i : Nat) (v : α) (m : Memory α) : Memory α :=
  if v = d then m.erase i else m.insert i v

/-- List `vs` at `i`, `i + 1`, and so on. -/
def Memory.insertAll {α : Type} : Nat → List α → Memory α → Memory α
  | _, [], m => m
  | i, v :: vs, m => Memory.insertAll (i + 1) vs (m.insert i v)

/-- The canonical form: indices strictly rising and below `bound`, and no entry that `dropped` accepts (an entry equal to
what an unlisted index reads as). -/
def Memory.wf {α : Type} (dropped : α → Bool) (bound : Nat) (m : Memory α) : Bool :=
  decide ((m.map Prod.fst).Pairwise (· < ·)) && m.all fun c => decide (c.1 < bound) && !dropped c.2

/-! The local memories of HTB, one entry at a time (20_memory.md R83). -/

/-- FREQ[s] (10_state.md R40). -/
def freqRead (s : State) (sym : Byte) : Word := s.freq.read 0#32 sym.toNat

/-- FREQ[s] <- v (20_memory.md R79). -/
def freqWrite (sym : Byte) (v : Word) (s : State) : State := { s with freq := s.freq.write 0#32 sym.toNat v }

/-- CT[s] (10_state.md R42). -/
def ctRead (s : State) (sym : Byte) : CtEntry := s.ct.read .absent sym.toNat

/-- Write one entry of a code table. -/
def ctPut (sym : Byte) (e : CtEntry) (m : Memory CtEntry) : Memory CtEntry := m.write .absent sym.toNat e

/-- CT[s] <- e (10_state.md R41). -/
def ctWrite (sym : Byte) (e : CtEntry) (s : State) : State := { s with ct := ctPut sym e s.ct }

/-- What NODE[i] reads in draw `d` before anything has written it (10_state.md R43). -/
def freeNode (d i : Nat) : Node where
  freq := Config.freeNodeFreq d i
  leaf := Config.freeNodeLeaf d i
  sym := Config.freeNodeSym d i
  left := Config.freeNodeLeft d i
  right := Config.freeNodeRight d i

/-- NODE[i] (10_state.md R43). -/
def nodeRead (s : State) (i : Nat) : Node := s.node.cells.read (freeNode s.node.draw i) i

/-- SymRead(i) (00_scope.md section 5). -/
def symRead (s : State) (i : Nat) : Byte := s.symBuf.cells.read (Config.freeSymbol s.symBuf.draw i) i

/-- SymWrite of `vs` at `i`, `i + 1`, and so on (00_scope.md section 5). -/
def symWriteAll (i : Nat) (vs : List Byte) (s : State) : State :=
  { s with symBuf := { s.symBuf with cells := s.symBuf.cells.insertAll i vs } }

/-- ByteRead(j) (00_scope.md section 5). -/
def byteRead (s : State) (j : Nat) : Byte := s.byteBuf.cells.read (Config.freeByte s.byteBuf.draw j) j

/-- ByteWrite of `vs` at `j`, `j + 1`, and so on (00_scope.md section 5). -/
def byteWriteAll (j : Nat) (vs : List Byte) (s : State) : State :=
  { s with byteBuf := { s.byteBuf with cells := s.byteBuf.cells.insertAll j vs } }

/-- Every SYM_BUF entry <- UNSPEC, drawn afresh (44_decoder.md R241, 93_implementation_defined.md U5). -/
def symForget (s : State) : State := { s with symBuf := { draw := s.draws, cells := [] }, draws := s.draws + 1 }

/-- Every BYTE_BUF entry <- UNSPEC, drawn afresh (43_bit_packer.md R216, 93_implementation_defined.md U4). -/
def byteForget (s : State) : State := { s with byteBuf := { draw := s.draws, cells := [] }, draws := s.draws + 1 }

/-! The command record. -/

/-- The number of an error (60_exceptions.md R261). -/
def CmdError.code : CmdError → Byte
  | .illegalCmd => 0x01#8
  | .lenRange => 0x02#8
  | .freqOvf => 0x03#8
  | .noTree => 0x04#8
  | .noCode => 0x05#8
  | .outOvf => 0x06#8
  | .padHdr => 0x07#8
  | .padLen => 0x08#8
  | .decodeNoMatch => 0x09#8
  | .decodeResidue => 0x0A#8
  | .tableAmbig => 0x0B#8

/-- Acceptance of command word `w` (40_command_control.md R130). It clears the error record of the command before, which
is all the return from an error there is (60_exceptions.md R270). -/
def accept (w : Word) (s : State) : State :=
  { s with phase := .busy w, done := false, err := false, errCode := none, lastOp := opField w, errInfo := 0#32 }

/-- Completion, the part every outcome shares (40_command_control.md R132). With an `ok` outcome it is all of it: ERR,
ERR_CODE, ERR_INFO and ERR_IP stay (R133). -/
def complete (s : State) : State :=
  { s with phase := .idle, done := true, irqStatus := s.irqStatus ||| 1#2 }

/-- Completion with outcome err(code, info) (40_command_control.md R132, R134). HTB's one way of taking an exception:
the error record of 60_exceptions.md R262 and the ERR interrupt of R266. -/
def completeErr (e : CmdError) (info : Word) (s : State) : State :=
  { complete s with err := true, errCode := some e, errInfo := info, irqStatus := s.irqStatus ||| 3#2 }

/-- The reset event (70_reset_and_hazards.md R290): the reset values of 10_state.md R51, whatever HTB was doing. The
constants of the configuration do not change. The UNSPEC memories are drawn afresh. The host's side of the run (the
events to come and the responses given) is no state of HTB and stays (log 9). -/
def resetEvent (s : State) : State :=
  { State.resetWith s.params with
    node := { draw := s.draws, cells := [] }
    symBuf := { draw := s.draws, cells := [] }
    byteBuf := { draw := s.draws, cells := [] }
    events := s.events
    responses := s.responses
    draws := s.draws + 1 }

end Sys2Proof.Machine
end

