-- ==== Sys2Proof/Machine/Operands.lean ====
section
/-! DEFINITION. The forms operands take: bit strings and codes (00_scope.md section 5, 30_encoding.md R107), the bytes of
the packed stream (R108 to R111), and the registers and windows of the offset map (20_memory.md R71). -/

namespace Sys2Proof.Machine

/-! Bit strings. The first bit of the list is the first bit of the string. -/

/-- `bits_n(v)`: n bits, most significant first (00_scope.md section 5). -/
def bitsOf : Nat → Nat → List Bool
  | 0, _ => []
  | n + 1, v => v.testBit n :: bitsOf n v

/-- `val(s)`: the value of a bit string, most significant bit first (00_scope.md section 5). -/
def valOf (s : List Bool) : Nat := s.foldl (fun v b => 2 * v + b.toNat) 0

/-- The bit string of an entry with LEN ≥ 1; bits of CODE above LEN do not count (30_encoding.md R107). -/
def codeBits (e : CtEntry) : List Bool := bitsOf e.len.toNat e.code.toNat

/-- code(s) (30_encoding.md R107). The empty string stands for "no code" where LEN = 0. -/
def codeOf (s : State) (sym : Byte) : List Bool := codeBits (ctRead s sym)

/-- The symbols that have a code, in ascending order, each with its code: the code table as the comparator network
sees it (44_decoder.md R236: "Entries with LEN = 0 take part in neither"). -/
def codedSymbols (s : State) : List (Byte × List Bool) :=
  (List.range 256).filterMap fun k =>
    let sym := BitVec.ofNat 8 k
    if (ctRead s sym).len = 0#8 then none else some (sym, codeOf s sym)

/-! Bytes of the packed stream. -/

/-- A byte as eight stream bits, bit 7 first (20_memory.md R84). -/
def byteBits (b : Byte) : List Bool := bitsOf 8 b.toNat

/-- The first `n` bytes of a bit string, eight bits each (30_encoding.md R110). -/
def bytesOf : Nat → List Bool → List Byte
  | 0, _ => []
  | n + 1, s => BitVec.ofNat 8 (valOf (s.take 8)) :: bytesOf n (s.drop 8)

/-- The padding count of an encoded sequence of `l` bits (30_encoding.md R108, R109; 90_conflicts.md C1). -/
def padOf (l : Nat) : Nat := 8 - l % 8

/-- `S = bits_8(pad) ++ E ++ zeros(pad)` (30_encoding.md R108). -/
def packedStream (e : List Bool) : List Bool :=
  bitsOf 8 (padOf e.length) ++ e ++ List.replicate (padOf e.length) false

/-! The offset map. -/

/-- The registers of the offset map, by their names (20_memory.md R71). -/
inductive Reg where
  | id | version | symBufSize | byteBufSize
  | cmd | status | irqEn | irqStatus | errInfo
  | symLen | byteLen | encBits | pad
  | nleaf | nnode | root
  | ctSel | ctLen | ctCode (k : Fin 8)
  | nodeSel | nodeFreq | nodeInfo | nodeLink
  deriving DecidableEq, Repr

/-- What a word offset of the map selects: a register, or a word of a window (20_memory.md R71). -/
inductive Target where
  | reg (r : Reg)
  | freq (sym : Byte)
  | symWord (w : Nat)
  | byteWord (w : Nat)
  deriving DecidableEq, Repr

/-- The register at word `n` of the register block, offset 4n (20_memory.md R71). -/
def regAt : Nat → Option Reg
  | 0 => some .id
  | 1 => some .version
  | 2 => some .symBufSize
  | 3 => some .byteBufSize
  | 4 => some .cmd
  | 5 => some .status
  | 6 => some .irqEn
  | 7 => some .irqStatus
  | 8 => some .errInfo
  | 9 => some .symLen
  | 10 => some .byteLen
  | 11 => some .encBits
  | 12 => some .pad
  | 13 => some .nleaf
  | 14 => some .nnode
  | 15 => some .root
  | 16 => some .ctSel
  | 17 => some .ctLen
  | 18 => some (.ctCode 0)
  | 19 => some (.ctCode 1)
  | 20 => some (.ctCode 2)
  | 21 => some (.ctCode 3)
  | 22 => some (.ctCode 4)
  | 23 => some (.ctCode 5)
  | 24 => some (.ctCode 6)
  | 25 => some (.ctCode 7)
  | 26 => some .nodeSel
  | 27 => some .nodeFreq
  | 28 => some .nodeInfo
  | 29 => some .nodeLink
  | _ => none

/-- What the word at an aligned offset is, `none` at a reserved offset (20_memory.md R71, R74). A buffer window word past
the configured size is selected here and refused by `Target.isMapped` (R78). -/
def targetAt (offset : Offset) : Option Target :=
  let o := offset.toNat
  if o < 0x00400 then (regAt (o / 4)).map .reg
  else if o < 0x00800 then some (.freq (BitVec.ofNat 8 ((o - 0x00400) / 4)))
  else if o < 0x10000 then none
  else if o < 0x20000 then some (.symWord ((o - 0x10000) / 4))
  else if o < 0x30000 then some (.byteWord ((o - 0x20000) / 4))
  else none

/-- The offset of a register (20_memory.md R71). -/
def Reg.offset : Reg → Nat
  | .id => 0x00000
  | .version => 0x00004
  | .symBufSize => 0x00008
  | .byteBufSize => 0x0000C
  | .cmd => 0x00010
  | .status => 0x00014
  | .irqEn => 0x00018
  | .irqStatus => 0x0001C
  | .errInfo => 0x00020
  | .symLen => 0x00024
  | .byteLen => 0x00028
  | .encBits => 0x0002C
  | .pad => 0x00030
  | .nleaf => 0x00034
  | .nnode => 0x00038
  | .root => 0x0003C
  | .ctSel => 0x00040
  | .ctLen => 0x00044
  | .ctCode k => 0x00048 + 4 * k.val
  | .nodeSel => 0x00068
  | .nodeFreq => 0x0006C
  | .nodeInfo => 0x00070
  | .nodeLink => 0x00074

/-- The offset of a target (20_memory.md R71). -/
def Target.offset : Target → Nat
  | .reg r => r.offset
  | .freq sym => 0x00400 + 4 * sym.toNat
  | .symWord w => 0x10000 + 4 * w
  | .byteWord w => 0x20000 + 4 * w

/-- A window word exists when it lies within the configured size (20_memory.md R76 to R78). -/
def Target.isMapped (p : Params) : Target → Bool
  | .reg _ => true
  | .freq _ => true
  | .symWord w => decide (w < p.symBufSize / 4)
  | .byteWord w => decide (w < p.byteBufSize / 4)

/-- The "RO" rows of the map (20_memory.md R71, R75). -/
def Reg.readOnly : Reg → Bool
  | .id | .version | .symBufSize | .byteBufSize | .status | .errInfo | .encBits | .pad | .nleaf | .nnode | .root => true
  | .nodeFreq | .nodeInfo | .nodeLink => true
  | .cmd | .irqEn | .irqStatus | .symLen | .byteLen | .ctSel | .ctLen | .ctCode _ | .nodeSel => false

/-- A target that a write does not reach (20_memory.md R75). -/
def Target.readOnly : Target → Bool
  | .reg r => r.readOnly
  | .freq _ | .symWord _ | .byteWord _ => false

/-- The "B? yes" rows of the map: reachable while BUSY (20_memory.md R71, R80). -/
def Reg.whileBusy : Reg → Bool
  | .id | .version | .symBufSize | .byteBufSize | .status | .irqEn | .irqStatus => true
  | .cmd | .errInfo | .symLen | .byteLen | .encBits | .pad | .nleaf | .nnode | .root => false
  | .ctSel | .ctLen | .ctCode _ | .nodeSel | .nodeFreq | .nodeInfo | .nodeLink => false

/-- A target that can be reached while BUSY (20_memory.md R80). -/
def Target.whileBusy : Target → Bool
  | .reg r => r.whileBusy
  | .freq _ | .symWord _ | .byteWord _ => false

/-- ID (10_state.md R21, 00_scope.md R2). -/
def idValue : Word := 0x48544231#32

/-- VERSION (10_state.md R21, 00_scope.md R2). -/
def versionValue : Word := 0x00000001#32

/-- The place of an offset in the host's address space (20_memory.md R71: "Offsets are bytes from BASE_ADDR"). -/
def hostAddress (p : Params) (offset : Offset) : Nat := p.baseAddr + offset.toNat

end Sys2Proof.Machine
end

