-- ==== Sys2Proof/Machine/Flags.lean ====
section
/-! DEFINITION. STATUS and its fields, IRQ_EN and IRQ_STATUS, the irq line, and the packed read-back words. -/

namespace Sys2Proof.Machine

/-- BUSY = 1 exactly when PHASE is BUSY (10_state.md R24). -/
def Phase.isBusy : Phase → Bool
  | .idle => false
  | .busy _ => true

/-- STATUS.ERR_CODE as a byte, 0x00 when there is no error (10_state.md R29, 60_exceptions.md R261). -/
def errCodeByte : Option CmdError → Byte
  | none => 0x00#8
  | some e => e.code

/-- A field `v` of a register, its lowest bit at bit `lo`; every other bit 0 (00_scope.md section 5, 10_state.md R50). -/
def field {n : Nat} (v : BitVec n) (lo : Nat) : Word := v.setWidth 32 <<< lo

/-- The word STATUS reads (10_state.md R23). -/
def statusWord (s : State) : Word :=
  field (errCodeByte s.errCode) 8 ||| field s.lastOp 4 ||| field (BitVec.ofBool s.treeValid) 3 |||
    field (BitVec.ofBool s.err) 2 ||| field (BitVec.ofBool s.done) 1 ||| field (BitVec.ofBool s.phase.isBusy) 0

/-- IRQ_EN.DONE_IE and IRQ_EN.ERR_IE (10_state.md R30). -/
def doneIe (s : State) : Bool := s.irqEn.getLsbD 0
def errIe (s : State) : Bool := s.irqEn.getLsbD 1

/-- IRQ_STATUS.DONE_IP and IRQ_STATUS.ERR_IP (10_state.md R31). -/
def doneIp (s : State) : Bool := s.irqStatus.getLsbD 0
def errIp (s : State) : Bool := s.irqStatus.getLsbD 1

/-- The interrupt line (60_exceptions.md R267). -/
def State.irq (s : State) : Bool := (doneIp s && doneIe s) || (errIp s && errIe s)

/-- IRQ_STATUS after a host write of `v`: each bit with a 1 is cleared (10_state.md R31, 60_exceptions.md R268). -/
def clearPending (v : Word) (pending : BitVec 2) : BitVec 2 := pending &&& ~~~(v.extractLsb' 0 2)

/-- NODE_INFO: LEAF in bit 31, SYM in bits 7:0 (10_state.md R44). -/
def nodeInfoWord (n : Node) : Word := field (BitVec.ofBool n.leaf) 31 ||| field n.sym 0

/-- NODE_LINK: RIGHT in bits 24:16, LEFT in bits 8:0 (10_state.md R44). -/
def nodeLinkWord (n : Node) : Word := field n.right 16 ||| field n.left 0

/-- A word of four buffer entries, the lowest-numbered in the least significant byte (20_memory.md R76, R77). -/
def laneWord (b0 b1 b2 b3 : Byte) : Word := field b3 24 ||| field b2 16 ||| field b1 8 ||| field b0 0

/-- The four entries a word sets, lowest-numbered first (20_memory.md R76, R77). -/
def lanes (w : Word) : List Byte :=
  [w.extractLsb' 0 8, w.extractLsb' 8 8, w.extractLsb' 16 8, w.extractLsb' 24 8]

/-- CODE with its 32 bits 32k+31:32k replaced (10_state.md R41). -/
def setCodeWord (k : Fin 8) (v : Word) (c : CodeWord) : CodeWord :=
  (c &&& ~~~((BitVec.allOnes 32).setWidth 256 <<< (32 * k.val))) ||| (v.setWidth 256 <<< (32 * k.val))

end Sys2Proof.Machine
end

