-- ==== Sys2Proof/Machine/Bus.lean ====
section
/-! DEFINITION. Bus transactions: what a register or window word reads, what a write does, and which transactions are
refused (20_memory.md R72 to R80). -/

namespace Sys2Proof.Machine

/-- The arena entry the readback window shows, `none` when NODE_SEL = NONE (10_state.md R44). -/
def selectedNode (s : State) : Option Node :=
  if s.nodeSel = noneIndex then none else some (nodeRead s s.nodeSel.toNat)

/-- What a register reads (10_state.md R21 to R44). CMD reads 0 (20_memory.md R75). -/
def regRead (s : State) : Reg → Word
  | .id => idValue
  | .version => versionValue
  | .symBufSize => BitVec.ofNat 32 s.params.symBufSize
  | .byteBufSize => BitVec.ofNat 32 s.params.byteBufSize
  | .cmd => 0#32
  | .status => statusWord s
  | .irqEn => s.irqEn.setWidth 32
  | .irqStatus => s.irqStatus.setWidth 32
  | .errInfo => s.errInfo
  | .symLen => s.symLen
  | .byteLen => s.byteLen
  | .encBits => s.encBits
  | .pad => s.pad.setWidth 32
  | .nleaf => s.nleaf.setWidth 32
  | .nnode => s.nnode.setWidth 32
  | .root => s.root.setWidth 32
  | .ctSel => s.ctSel.setWidth 32
  | .ctLen => (ctRead s s.ctSel).len.setWidth 32
  | .ctCode k => (ctRead s s.ctSel).code.extractLsb' (32 * k.val) 32
  | .nodeSel => s.nodeSel.setWidth 32
  | .nodeFreq => match selectedNode s with
    | some nd => nd.freq
    | none => 0#32
  | .nodeInfo => match selectedNode s with
    | some nd => nodeInfoWord nd
    | none => 0#32
  | .nodeLink => match selectedNode s with
    | some nd => nodeLinkWord nd
    | none => 0#32

/-- What a write to a register does (10_state.md R22, R30, R31, R33, R34, R41, R44; R50 for reserved bits). A read-only
register is never reached (20_memory.md R75). -/
def regWrite (r : Reg) (v : Word) (s : State) : State :=
  match r with
  | .cmd => accept v s
  | .irqEn => { s with irqEn := v.extractLsb' 0 2 }
  | .irqStatus => { s with irqStatus := clearPending v s.irqStatus }
  | .symLen => { s with symLen := v }
  | .byteLen => { s with byteLen := v }
  | .ctSel => { s with ctSel := v.extractLsb' 0 8 }
  | .ctLen => ctWrite s.ctSel { ctRead s s.ctSel with len := v.extractLsb' 0 8 } s
  | .ctCode k => ctWrite s.ctSel { ctRead s s.ctSel with code := setCodeWord k v (ctRead s s.ctSel).code } s
  | .nodeSel => { s with nodeSel := v.extractLsb' 0 9 }
  | .id | .version | .symBufSize | .byteBufSize | .status | .errInfo | .encBits | .pad | .nleaf | .nnode | .root => s
  | .nodeFreq | .nodeInfo | .nodeLink => s

/-- What a target reads (20_memory.md R75 to R79). -/
def targetRead (s : State) : Target → Word
  | .reg r => regRead s r
  | .freq sym => freqRead s sym
  | .symWord w => laneWord (symRead s (4 * w)) (symRead s (4 * w + 1)) (symRead s (4 * w + 2)) (symRead s (4 * w + 3))
  | .byteWord w => laneWord (byteRead s (4 * w)) (byteRead s (4 * w + 1)) (byteRead s (4 * w + 2)) (byteRead s (4 * w + 3))

/-- What a write to a target does (20_memory.md R75 to R79). -/
def targetWrite (t : Target) (v : Word) (s : State) : State :=
  match t with
  | .reg r => regWrite r v s
  | .freq sym => freqWrite sym v s
  | .symWord w => symWriteAll (4 * w) (lanes v) s
  | .byteWord w => byteWriteAll (4 * w) (lanes v) s

/-- resp = ERR, rdata = 0 (20_memory.md R73, R74, R80). -/
def errResponse : Response := { resp := .err, rdata := 0#32 }

/-- resp = OK to a read (20_memory.md R75). -/
def readResponse (v : Word) : Response := { resp := .ok, rdata := v }

/-- resp = OK to a write (20_memory.md R75). The spec states no read data: it is a free value, a new one for every response
(log 5). -/
def writeResponse (s : State) : Response := { resp := .ok, rdata := Config.freeWriteData s.responses.length }

/-- The target a transaction reaches: the access is legal (20_memory.md R72, R73), the offset is mapped (R74, R78), and HTB
is not BUSY or the row says it can be reached then (R80). -/
def reachedTarget (t : Transaction) (s : State) : Option Target :=
  if t.WellFormed then
    match targetAt t.offset with
    | none => none
    | some g => if g.isMapped s.params && (!s.phase.isBusy || g.whileBusy) then some g else none
  else none

/-- One transaction, served atomically (20_memory.md R81): the state after it, and its response. -/
def busAccess (t : Transaction) (s : State) : State × Response :=
  match reachedTarget t s with
  | none => (s, errResponse)
  | some g =>
    match t.kind with
    | .read => (s, readResponse (targetRead s g))
    | .write v => if g.readOnly then (s, errResponse) else (targetWrite g v s, writeResponse s)

/-- A transaction as a step of a run: its effect, and its response added to those given so far. -/
def busStep (t : Transaction) (s : State) : State :=
  let r := busAccess t s
  { r.1 with responses := r.1.responses ++ [r.2] }

end Sys2Proof.Machine
end

