-- ==== Sys2Proof/Machine/Build.lean ====
section
/-! DEFINITION. The tree builder, BUILD (41_tree_builder.md). -/

namespace Sys2Proof.Machine

/-! The priority-queue arbiter. -/

/-- The key of an index in the queue: (NODE[i].FREQ, i) (41_tree_builder.md R161). The queue holds the keys of its indices:
"the key of an index does not change while the index is in PQ" (R163). -/
structure Key where
  freq  : Nat
  index : Nat
  deriving DecidableEq, Repr

/-- Keys are compared lexicographically (41_tree_builder.md R161). -/
def Key.before (a b : Key) : Bool := decide (a.freq < b.freq) || (decide (a.freq = b.freq) && decide (a.index < b.index))

/-- `PQ.extract_min` on a queue of one key `k` and the others `ks`: the least key, and what stays
(41_tree_builder.md R162). -/
def extractMin : Key → List Key → Key × List Key
  | k, [] => (k, [])
  | k, x :: xs =>
    if k.before x then
      let r := extractMin k xs
      (r.1, x :: r.2)
    else
      let r := extractMin x xs
      (r.1, k :: r.2)

/-- The two least keys of a queue of at least two, and what stays: the two `extract_min` of one merge
(41_tree_builder.md R167). `none` when PQ.count ≤ 1, where the loop is over. -/
def extractTwo : List Key → Option (Key × Key × List Key)
  | [] => none
  | k :: ks =>
    let a := extractMin k ks
    match a.2 with
    | [] => none
    | x :: xs =>
      let b := extractMin x xs
      some (a.1, b.1, b.2)

/-- What BUILD carries: the arena, the queue, and `n`, the next free index. -/
structure Builder where
  cells : Memory Node
  queue : List Key
  n     : Nat
  deriving DecidableEq, Repr

/-- Write NODE[n] and insert n (41_tree_builder.md R163). -/
def Builder.add (nd : Node) (b : Builder) : Builder where
  cells := b.cells.insert b.n nd
  queue := { freq := nd.freq.toNat, index := b.n } :: b.queue
  n := b.n + 1

/-- A leaf of symbol `sym` (41_tree_builder.md R165, 30_encoding.md R105). -/
def leafNode (sym : Byte) (f : Word) : Node :=
  { freq := f, leaf := true, sym := sym, left := noneIndex, right := noneIndex }

/-- An internal node over the nodes at indices `a` and `c` (41_tree_builder.md R167, 30_encoding.md R105). -/
def internalNode (f a c : Nat) : Node :=
  { freq := BitVec.ofNat 32 f, leaf := false, sym := 0#8, left := BitVec.ofNat 9 a, right := BitVec.ofNat 9 c }

/-- Leaf loading over a list of symbols (41_tree_builder.md R165). -/
def loadLeaves (s : State) : List Nat → Builder → Builder
  | [], b => b
  | k :: ks, b =>
    let sym := BitVec.ofNat 8 k
    let f := freqRead s sym
    loadLeaves s ks (if f = 0#32 then b else b.add (leafNode sym f))

/-- The outcome of the merge loop: it ended, or a sum overflowed (41_tree_builder.md R168). -/
inductive Merged where
  | done (b : Builder)
  | overflow (b : Builder)
  deriving DecidableEq, Repr

/-- The merge loop "while PQ.count > 1", at most `fuel` passes (41_tree_builder.md R167, R168). "The loop runs exactly
NLEAF − 1 times", so a fuel of NLEAF never ends it. -/
def mergeLoop : Nat → Builder → Merged
  | 0, b => .done b
  | fuel + 1, b =>
    match extractTwo b.queue with
    | none => .done b
    | some (a, c, rest) =>
      if a.freq + c.freq > 0xFFFFFFFF then .overflow b
      else mergeLoop fuel (Builder.add (internalNode (a.freq + c.freq) a.index c.index) { b with queue := rest })

/-- ROOT after the loop: the one index left (41_tree_builder.md R169), NONE when there is none (R166). -/
def rootOf (b : Builder) : NodeIndex :=
  match b.queue with
  | [] => noneIndex
  | k :: ks => BitVec.ofNat 9 (extractMin k ks).1.index

/-- The builder after leaf loading: "for s in 0..255" (41_tree_builder.md R164, R165). -/
def loadedBuilder (s : State) : Builder :=
  loadLeaves s (List.range 256) { cells := s.node.cells, queue := [], n := 0 }

/-- BUILD (41_tree_builder.md R164 to R170). -/
def execBuild (s : State) : Host.Outcome State Fault Refusal :=
  let loaded := loadedBuilder s
  match mergeLoop loaded.n loaded with
  | .done b =>
    .next (complete { s with
      node := { s.node with cells := b.cells }
      nleaf := BitVec.ofNat 9 loaded.n
      nnode := BitVec.ofNat 9 b.n
      root := rootOf b
      treeValid := true })
  | .overflow b =>
    .next (completeErr .freqOvf (BitVec.ofNat 32 b.n) { s with
      node := { s.node with cells := b.cells }
      nleaf := BitVec.ofNat 9 loaded.n
      nnode := BitVec.ofNat 9 b.n
      root := noneIndex
      treeValid := false })

end Sys2Proof.Machine
end

