-- ==== Sys2Proof/Machine/Control.lean ====
section
/-! DEFINITION. The commands with no unit of their own: NOP, CLEAR_FREQ, CLEAR_TABLE, and the illegal command words
(40_command_control.md). -/

namespace Sys2Proof.Machine

/-- NOP (40_command_control.md R137). -/
def execNop (s : State) : Host.Outcome State Fault Refusal := .next (complete s)

/-- CLEAR_FREQ: FREQ[0..255] <- 0 (40_command_control.md R138). -/
def execClearFreq (s : State) : Host.Outcome State Fault Refusal := .next (complete { s with freq := [] })

/-- CLEAR_TABLE: CT[0..255] <- {LEN 0, CODE 0} (40_command_control.md R139). -/
def execClearTable (s : State) : Host.Outcome State Fault Refusal := .next (complete { s with ct := [] })

/-- An illegal command word: E_ILLEGAL_CMD with ERR_INFO = w (40_command_control.md R140). No instruction of the table; the
step takes it when the decoder rejects the word. -/
def execIllegal (w : Word) (s : State) : Host.Outcome State Fault Refusal := .next (completeErr .illegalCmd w s)

end Sys2Proof.Machine
end

