-- ==== Sys2Proof/Machine/Pack.lean ====
section
/-! DEFINITION. The bit packer, ENCODE (43_bit_packer.md). -/

namespace Sys2Proof.Machine

/-- SYM_BUF[0..n−1], in input order (43_bit_packer.md R212). -/
def inputSymbols (s : State) (n : Nat) : List Byte := (List.range n).map (symRead s)

/-- The index of the first symbol of a list that has no code (43_bit_packer.md R212). -/
def firstUncoded (s : State) : Nat → List Byte → Option Nat
  | _, [] => none
  | i, x :: xs => if (ctRead s x).len = 0#8 then some i else firstUncoded s (i + 1) xs

/-- The encoded bit sequence E of a list of symbols (43_bit_packer.md R214). -/
def encodedBits (s : State) (xs : List Byte) : List Bool := xs.flatMap (codeOf s)

/-- What every ENCODE error leaves (43_bit_packer.md R216). -/
def failEncode (s : State) : State := { byteForget s with byteLen := 0#32, encBits := 0#32, pad := 0#4 }

/-- ENCODE (43_bit_packer.md R210 to R216). -/
def execEncode (s : State) : Host.Outcome State Fault Refusal :=
  let n := s.symLen.toNat
  if n > s.params.symBufSize then .next (completeErr .lenRange s.symLen (failEncode s))
  else
    let xs := inputSymbols s n
    match firstUncoded s 0 xs with
    | some i => .next (completeErr .noCode (BitVec.ofNat 32 i) (failEncode s))
    | none =>
      let e := encodedBits s xs
      let b := e.length / 8 + 2
      if b > s.params.byteBufSize then .next (completeErr .outOvf (BitVec.ofNat 32 b) (failEncode s))
      else
        .next (complete { byteWriteAll 0 (bytesOf b (packedStream e)) s with
          byteLen := BitVec.ofNat 32 b
          encBits := BitVec.ofNat 32 e.length
          pad := BitVec.ofNat 4 (padOf e.length) })

end Sys2Proof.Machine
end

