-- ==== Sys2Proof/Machine/Unpack.lean ====
section
/-! DEFINITION. The unpacker and decoder, DECODE (44_decoder.md). -/

namespace Sys2Proof.Machine

/-- BYTE_BUF[0..b−1] as the bit string T (44_decoder.md R233). -/
def inputBits (s : State) (b : Nat) : List Bool := (List.range b).flatMap fun j => byteBits (byteRead s j)

/-- M(acc): the symbols whose whole code equals `acc` (44_decoder.md R236). -/
def matching (codes : List (Byte × List Bool)) (acc : List Bool) : List Byte :=
  (codes.filter fun c => decide (c.2 = acc)).map Prod.fst

/-- live(acc): `acc` is a proper prefix of some code (44_decoder.md R236). -/
def live (codes : List (Byte × List Bool)) (acc : List Bool) : Bool :=
  codes.any fun c => decide (acc.length < c.2.length) && decide (c.2.take acc.length = acc)

/-- The greedy walk (44_decoder.md R237 to R239): the bits still to read, the index `k` of the next one, the accumulated
code and the index of its first bit, and the symbols emitted so far. It answers the symbols, or the error and its
ERR_INFO. -/
def greedyWalk (codes : List (Byte × List Bool)) (capacity : Nat) :
    List Bool → Nat → List Bool → Nat → List Byte → Except (CmdError × Nat) (List Byte)
  | [], _, acc, start, out => if acc = [] then .ok out else .error (.decodeResidue, start)
  | b :: bits, k, acc, start, out =>
    match matching codes (acc ++ [b]) with
    | [x] =>
      if out.length = capacity then .error (.outOvf, start)
      else greedyWalk codes capacity bits (k + 1) [] (k + 1) (out ++ [x])
    | [] =>
      if live codes (acc ++ [b]) then greedyWalk codes capacity bits (k + 1) (acc ++ [b]) start out
      else .error (.decodeNoMatch, start)
    | _ :: _ :: _ => .error (.tableAmbig, start)

/-- The payload P of a byte sequence of `b` bytes with header `h` (44_decoder.md R235, 30_encoding.md R111). -/
def payloadBits (s : State) (b h : Nat) : List Bool := ((inputBits s b).drop 8).take (8 * (b - 1) - h)

/-- What every DECODE error leaves (44_decoder.md R241). -/
def failDecode (s : State) : State := { symForget s with symLen := 0#32, encBits := 0#32, pad := 0#4 }

/-- DECODE (44_decoder.md R230 to R241). -/
def execDecode (s : State) : Host.Outcome State Fault Refusal :=
  let b := s.byteLen.toNat
  if b > s.params.byteBufSize then .next (completeErr .lenRange s.byteLen (failDecode s))
  else if b = 0 then .next (complete { s with symLen := 0#32, encBits := 0#32, pad := 0#4 })
  else
    let h := (byteRead s 0).toNat
    if h < 1 ∨ h > 8 then .next (completeErr .padHdr (BitVec.ofNat 32 h) (failDecode s))
    else if h > 8 * (b - 1) then .next (completeErr .padLen (BitVec.ofNat 32 h) (failDecode s))
    else
      let p := payloadBits s b h
      match greedyWalk (codedSymbols s) s.params.symBufSize p 0 [] 0 [] with
      | .error (e, start) => .next (completeErr e (BitVec.ofNat 32 start) (failDecode s))
      | .ok xs =>
        .next (complete { symWriteAll 0 xs s with
          symLen := BitVec.ofNat 32 xs.length
          encBits := BitVec.ofNat 32 p.length
          pad := BitVec.ofNat 4 h })

end Sys2Proof.Machine
end

