-- ==== Sys2Proof/Machine/Walk.lean ====
section
/-! DEFINITION. The code-table generator, WALK (42_code_table.md). -/

namespace Sys2Proof.Machine

/-- `visit(i, c, d)` of 42_code_table.md R190: `c` is the path as a binary numeral and `d` its length. It answers the table
with an entry written for each leaf below node `i`. At depth `d` it is called with `fuel + d = 256`, so no path is longer than
the 255 bits of 00_scope.md R6 and `d` fits LEN; `none` says that the arena goes deeper (log 6). -/
def visit (s : State) : Nat → Nat → Nat → Nat → Memory CtEntry → Option (Memory CtEntry)
  | 0, _, _, _, _ => none
  | fuel + 1, i, c, d, m =>
    let nd := nodeRead s i
    if nd.leaf then
      some (ctPut nd.sym { len := BitVec.ofNat 8 d, code := BitVec.ofNat 256 c } m)
    else
      (visit s fuel nd.left.toNat (2 * c) (d + 1) m).bind fun m' =>
        visit s fuel nd.right.toNat (2 * c + 1) (d + 1) m'

/-- The table WALK makes of a valid tree, from the cleared one (42_code_table.md R192 to R195). -/
def walkTable (s : State) : Option (Memory CtEntry) :=
  if s.root = noneIndex then some []
  else
    let nd := nodeRead s s.root.toNat
    if nd.leaf then some (ctPut nd.sym { len := 1#8, code := 0#256 } [])
    else visit s 256 s.root.toNat 0 0 []

/-- WALK (42_code_table.md R190 to R196). -/
def execWalk (s : State) : Host.Outcome State Fault Refusal :=
  if s.treeValid then
    match walkTable s with
    | some m => .next (complete { s with ct := m })
    | none => .fault .arenaIsNoTree
  else .next (completeErr .noTree 0#32 s)

end Sys2Proof.Machine
end

