-- ==== Sys2Proof/Machine/Dispatch.lean ====
section
/-! DEFINITION. The dispatch of a command to its meaning (40_command_control.md R136), one arm a command. A meaning is the
engine's whole step: the command's own effect and its completion (R132 to R134). -/

namespace Sys2Proof.Machine

def exec (i : Instr) (s : State) : Host.Outcome State Fault Refusal :=
  match i with
  | .nop => Sys2Proof.Machine.execNop s
  | .clearFreq => Sys2Proof.Machine.execClearFreq s
  | .build => Sys2Proof.Machine.execBuild s
  | .walk => Sys2Proof.Machine.execWalk s
  | .encode => Sys2Proof.Machine.execEncode s
  | .decode => Sys2Proof.Machine.execDecode s
  | .clearTable => Sys2Proof.Machine.execClearTable s

end Sys2Proof.Machine
end

