-- ==== Sys2Proof/Machine/Step.lean ====
section
/-! DEFINITION. One step of a run: the next event of the interleaving (20_memory.md R86), and how a command is placed. -/

namespace Sys2Proof.Machine

/-- The engine's step (40_command_control.md R132): with a command pending, Exec of its word to its end; with none, nothing
("While PHASE = IDLE the engine has no step"). -/
def engineStep (s : State) : Host.Outcome State Fault Refusal :=
  match s.phase with
  | .idle => .next s
  | .busy w =>
    match decodeCommand w with
    | .ok i => exec i s
    | .error _ => execIllegal w s

/-- One step. The next event of the queue happens; when no event is left, only the engine can move, so a pending command
completes (70_reset_and_hazards.md R298, log 8). -/
def step (s : State) : Host.Outcome State Fault Refusal :=
  match s.events with
  | [] => engineStep s
  | .bus t :: rest => .next (busStep t { s with events := rest })
  | .engine :: rest => engineStep { s with events := rest }
  | .reset :: rest => .next (resetEvent { s with events := rest })

/-- The state in which the engine is about to run the command of an opcode-table word: the word accepted
(40_command_control.md R130), and the engine's turn next (log 7). -/
def State.withFetchWord (s : State) (nbits w : Nat) : State :=
  { accept (BitVec.ofNat 32 (w % 2 ^ nbits)) s with events := .engine :: s.events }

end Sys2Proof.Machine
end

