-- ==== Sys2Proof/Machine/Script.lean ====
section
/-! DEFINITION. Host scripts: their statements and what each expands to in bus transactions, how a script
runs (30_encoding.md R120 to R122), and when its run is over and what it gives (70_reset_and_hazards.md R299). A script is the host's program, not state of HTB. -/

namespace Sys2Proof.Machine

/-- What an access of a script names: a target of the offset map, or a raw offset (30_encoding.md R120). -/
inductive Place where
  | named (t : Target)
  | raw (offset : Offset)
  deriving DecidableEq, Repr

/-- What a script asserts of a response (30_encoding.md R120). -/
inductive Expect where
  | any
  | value (v : Word)
  | err
  deriving DecidableEq, Repr

/-- A script statement: the forms of 30_encoding.md R120, in its order, and the pseudo-instructions of R121. -/
inductive Stmt where
  | wr (p : Place) (v : Word)
  | rd (p : Place)
  | rdValue (p : Place) (v : Word)
  | rdErr (p : Place)
  | wrErr (p : Place) (v : Word)
  | cmd (i : Instr)
  | cmdw (w : Word)
  | wait
  | run (i : Instr)
  | freq (sym : Byte) (c : Word)
  /-- `leftOut` are the CT_CODEk writes that the script says it leaves out. -/
  | ct (sym : Byte) (n : Byte) (v : CodeWord) (leftOut : List (Fin 8))
  | syms (bs : List Byte)
  | bytes (bs : List Byte)
  | clearirq
  | compress
  | decompress
  deriving DecidableEq, Repr

/-- A line of a script (30_encoding.md R120). -/
structure Line where
  label   : Option String
  stmt    : Option Stmt
  comment : Option String
  deriving DecidableEq, Repr

/-- What a statement comes to: one transaction with what is asserted of its response, or a `wait`. -/
inductive Action where
  | access (t : Transaction) (e : Expect)
  | wait
  deriving DecidableEq, Repr

/-- The offset of a place (30_encoding.md R120, 20_memory.md R71). R120 bounds no w of SYMW[w] and BYTEW[w]; where 0x10000 + 4w or
0x20000 + 4w does not fit the 18 bits of an offset, the spec is silent and the model keeps the low 18 bits, so that SYMW[0xC004]
is the offset of CMD. DESIGN CHOICE, unsafe for a script with such a w (log 16). -/
def Place.offset : Place → Offset
  | .named t => BitVec.ofNat 18 t.offset
  | .raw o => o

/-- One Write transaction of size 4 (30_encoding.md R120). -/
def writeTo (p : Place) (v : Word) : Transaction := { kind := .write v, offset := p.offset, size := .four }

/-- One Read transaction of size 4 (30_encoding.md R120). -/
def readFrom (p : Place) : Transaction := { kind := .read, offset := p.offset, size := .four }

/-- A register of the map as a place. -/
def regPlace (r : Reg) : Place := .named (.reg r)

/-- Bytes packed into window words, missing bytes of the last word 0 (30_encoding.md R121). -/
def wordsOf : List Byte → List Word
  | [] => []
  | [a] => [laneWord a 0#8 0#8 0#8]
  | [a, b] => [laneWord a b 0#8 0#8]
  | [a, b, c] => [laneWord a b c 0#8]
  | a :: b :: c :: d :: rest => laneWord a b c d :: wordsOf rest

/-- Write `ws` to the places `place w`, `place (w + 1)`, and so on; each has the offset `Place.offset` gives it (log 16). -/
def writeWords (place : Nat → Place) : Nat → List Word → List Action
  | _, [] => []
  | w, v :: vs => .access (writeTo (place w) v) .any :: writeWords place (w + 1) vs

/-- The CMD write of a word. -/
def command (w : Word) : Action := .access (writeTo (regPlace .cmd) w) .any

/-- The CT_CODEk writes of a code, k from 0 to 7 (30_encoding.md R121). A write is left out only if the script says so and its
word is 0; the script answers for the entry's word being "already 0" (log 10). -/
def codeWrites (v : CodeWord) (leftOut : List (Fin 8)) : List Action :=
  ((List.finRange 8).filter fun k => !(leftOut.contains k && decide (v.extractLsb' (32 * k.val) 32 = 0#32))).map fun k =>
    .access (writeTo (regPlace (.ctCode k)) (v.extractLsb' (32 * k.val) 32)) .any

/-- The expansion of a statement (30_encoding.md R120, R121). The length that `syms` and `bytes` write keeps its low 32 bits
(DESIGN CHOICE, log 16). -/
def Stmt.expand : Stmt → List Action
  | .wr p v => [.access (writeTo p v) .any]
  | .rd p => [.access (readFrom p) .any]
  | .rdValue p v => [.access (readFrom p) (.value v)]
  | .rdErr p => [.access (readFrom p) .err]
  | .wrErr p v => [.access (writeTo p v) .err]
  | .cmd i => [command (encodeCommand i)]
  | .cmdw w => [command w]
  | .wait => [.wait]
  | .run i => [command (encodeCommand i), .wait]
  | .freq sym c => [.access (writeTo (.named (.freq sym)) c) .any]
  | .ct sym n v leftOut =>
    .access (writeTo (regPlace .ctSel) (sym.setWidth 32)) .any :: .access (writeTo (regPlace .ctLen) (n.setWidth 32)) .any ::
      codeWrites v leftOut
  | .syms bs =>
    writeWords (fun w => .named (.symWord w)) 0 (wordsOf bs) ++
      [.access (writeTo (regPlace .symLen) (BitVec.ofNat 32 bs.length)) .any]
  | .bytes bs =>
    writeWords (fun w => .named (.byteWord w)) 0 (wordsOf bs) ++
      [.access (writeTo (regPlace .byteLen) (BitVec.ofNat 32 bs.length)) .any]
  | .clearirq => [.access (writeTo (regPlace .irqStatus) 3#32) .any]
  | .compress =>
    [command (encodeCommand .build), .wait, command (encodeCommand .walk), .wait, command (encodeCommand .encode), .wait]
  | .decompress => [command (encodeCommand .decode), .wait]

/-- The actions of a script, line by line (30_encoding.md R120). -/
def scriptActions (ls : List Line) : List Action :=
  ls.flatMap fun l => match l.stmt with
    | some st => st.expand
    | none => []

/-- One poll of a `wait`: `rd STATUS` (30_encoding.md R121). -/
def statusRead : Transaction := readFrom (regPlace .status)

/-- The transactions of a list of actions, given how many reads of STATUS each `wait` takes: "one or more times", a number no
rule fixes (30_encoding.md R121, 93_implementation_defined.md U8, log 10). A `wait` that is given no number takes one. -/
def transactionsOf : List Action → List Nat → List Transaction
  | [], _ => []
  | .access t _ :: as, polls => t :: transactionsOf as polls
  | .wait :: as, [] => statusRead :: transactionsOf as []
  | .wait :: as, k :: polls => List.replicate (max 1 k) statusRead ++ transactionsOf as polls

/-! How an encoding is written (30_encoding.md R120). -/

/-- A hex digit. -/
def hexDigit (n : Nat) : Char := Char.ofNat (if n < 10 then 48 + n else 55 + n)

/-- `d` hex digits of a number. -/
def hexDigits : Nat → Nat → List Char
  | 0, _ => []
  | d + 1, v => hexDigits d (v / 16) ++ [hexDigit (v % 16)]

/-- `W <offset> <wdata>` or `R <offset>`: offsets have 5 hex digits and data 8 (30_encoding.md R120). -/
def Transaction.written (t : Transaction) : List Char :=
  let place := '0' :: 'x' :: hexDigits 5 t.offset.toNat
  match t.kind with
  | .read => 'R' :: ' ' :: place
  | .write v => 'W' :: ' ' :: place ++ ' ' :: '0' :: 'x' :: hexDigits 8 v.toNat

/-! The run of a script (30_encoding.md R122, 70_reset_and_hazards.md R299). -/

/-- An assertion holds of a response: `=> v` asserts rdata = v, `=> ERR` asserts resp = ERR (30_encoding.md R120). -/
def Expect.holds (e : Expect) (r : Response) : Bool :=
  match e with
  | .any => true
  | .value v => decide (r.rdata = v)
  | .err => decide (r.resp = .err)

/-- BUSY as a read of STATUS shows it (30_encoding.md R121). -/
def showsBusy (r : Response) : Bool := r.rdata.getLsbD 0

/-- A script in the middle of its run: what it has still to issue, the machine, the responses to its reads, oldest first, and
whether an assertion has failed. "a failure of the script, not a state of HTB" (30_encoding.md R122). -/
structure ScriptRun where
  todo    : List Action
  machine : State
  reads   : List Response
  failed  : Bool
  deriving DecidableEq, Repr

/-- A script about to issue its first transaction. -/
def ScriptRun.start (ls : List Line) (s : State) : ScriptRun :=
  { todo := scriptActions ls, machine := s, reads := [], failed := false }

/-- The transaction that the script issues next: `wait` issues a read of STATUS (30_encoding.md R121). -/
def ScriptRun.nextTransaction (r : ScriptRun) : Option Transaction :=
  match r.todo with
  | [] => none
  | .access t _ :: _ => some t
  | .wait :: _ => some statusRead

/-- The script's read responses after transaction `t`; the response to a write is no read response (70_reset_and_hazards.md R299). -/
def receive (t : Transaction) (resp : Response) (reads : List Response) : List Response :=
  match t.kind with
  | .read => reads ++ [resp]
  | .write _ => reads

/-- The script issues its next transaction. The response is the one its own assertion is about; a `wait` stays until its own read
of STATUS shows BUSY = 0 (30_encoding.md R120, R121). A script with nothing left issues nothing. -/
def ScriptRun.issue (r : ScriptRun) : ScriptRun :=
  match r.todo with
  | [] => r
  | .access t e :: as =>
    let resp := (busAccess t r.machine).2
    { todo := as, machine := busStep t r.machine, reads := receive t resp r.reads, failed := r.failed || !e.holds resp }
  | .wait :: as =>
    let resp := (busAccess statusRead r.machine).2
    { r with
      todo := if showsBusy resp then .wait :: as else as
      machine := busStep statusRead r.machine
      reads := receive statusRead resp r.reads }

/-- Who moves next in the run of a script (20_memory.md R86, 70_reset_and_hazards.md R290). -/
inductive Turn where
  | host
  | engine
  | reset
  deriving DecidableEq, Repr

/-- One turn of the run of a script. -/
def ScriptRun.turn (r : ScriptRun) : Turn → Host.Outcome ScriptRun Fault Refusal
  | .host => .next r.issue
  | .engine => match engineStep r.machine with
    | .next s => .next { r with machine := s }
    | .fault f => .fault f
    | .refused f => .refused f
  | .reset => .next { r with machine := resetEvent r.machine }

/-- The turns of a run, in any order the schedule says: "Engine steps interleave between them" (30_encoding.md R122, log 10). -/
def ScriptRun.play : List Turn → ScriptRun → Host.Outcome ScriptRun Fault Refusal
  | [], r => .next r
  | m :: ms, r => match r.turn m with
    | .next u => u.play ms
    | .fault f => .fault f
    | .refused f => .refused f

/-- A run is over: (1) the script has issued its last transaction, and (2) PHASE = IDLE (70_reset_and_hazards.md R299). -/
def ScriptRun.over (r : ScriptRun) : Bool := r.todo.isEmpty && !r.machine.phase.isBusy

/-- The state of 10_state.md R53, and the configuration: a state with the model's own fields out of it. -/
def State.architectural (s : State) : State := { s with events := [], responses := [], draws := 0 }

/-- The result of a run: the state of 10_state.md R53 at its end and the read responses; and whether the script has failed
(70_reset_and_hazards.md R299). -/
structure RunResult where
  state  : State
  reads  : List Response
  failed : Bool
  deriving DecidableEq, Repr

/-- The result of a run that is over; a run that is not over has none (70_reset_and_hazards.md R299). -/
def ScriptRun.result (r : ScriptRun) : Option RunResult :=
  if r.over then some { state := r.machine.architectural, reads := r.reads, failed := r.failed } else none

end Sys2Proof.Machine
end

