-- ==== Sys2Proof/Safety.lean ====
section
/-! DEFINITION. What the statements about HTB are said in: the tree an arena holds, what a code table allows, how a payload
is decoded, and the invariant that every step keeps. Nothing here is used by the machine. -/

namespace Sys2Proof.Machine

/-! Bus transactions of size 4 by their offset (20_memory.md R72). -/

/-- A read of the word at offset `o`. -/
abbrev readAt (o : Nat) : Transaction := readFrom (.raw (BitVec.ofNat 18 o))

/-- A write of `v` to the word at offset `o`. -/
abbrev writeAt (o : Nat) (v : Word) : Transaction := writeTo (.raw (BitVec.ofNat 18 o)) v

/-- The bus transactions among the events of a run (20_memory.md R86). -/
def busTransactions (es : List Event) : List Transaction :=
  es.filterMap fun e => match e with
    | .bus t => some t
    | .engine | .reset => none

/-! The frequency table (10_state.md R40). -/

/-- The 256 symbols, ascending (00_scope.md R3). -/
def allSymbols : List Byte := (List.range 256).map (BitVec.ofNat 8)

/-- The symbols that get a leaf, ascending: those with FREQ ≠ 0 (41_tree_builder.md R165). -/
def leafSymbols (s : State) : List Byte := allSymbols.filter fun x => decide (freqRead s x ≠ 0#32)

/-- Σ_s FREQ[s] (41_tree_builder.md R168). -/
def totalFreq (s : State) : Nat := (allSymbols.map fun x => (freqRead s x).toNat).sum

/-- A BUILD from here overflows: "E_FREQ_OVF is raised if and only if NLEAF ≥ 2 and Σ_s FREQ[s] > 0xFFFFFFFF"
(41_tree_builder.md R168). -/
abbrev FreqOverflows (s : State) : Prop := 2 ≤ (leafSymbols s).length ∧ 0xFFFFFFFF < totalFreq s

/-! The node arena (41_tree_builder.md R172). -/

/-- A strict binary tree: "leaf (holds exactly one symbol and its frequency, no children) or an internal node"
(30_encoding.md R105). -/
inductive Tree where
  | leaf (sym : Byte) (f : Word)
  | node (l r : Tree)
  deriving DecidableEq, Repr

/-- The frequency of a node: a leaf's own, an internal node's sum (41_tree_builder.md R172(d)). -/
def Tree.freq : Tree → Nat
  | .leaf _ f => f.toNat
  | .node l r => l.freq + r.freq

/-- The symbols of the leaves, left to right. -/
def Tree.symbols : Tree → List Byte
  | .leaf x _ => [x]
  | .node l r => l.symbols ++ r.symbols

/-- The length of the longest path. -/
def Tree.depth : Tree → Nat
  | .leaf _ _ => 0
  | .node l r => max l.depth r.depth + 1

/-- The arena holds the tree at index `i`: every internal node's frequency is the sum of its children's, exactly, and every
child's index is less than its parent's (41_tree_builder.md R172(b), (d), (e), R168). -/
def Represents (s : State) : Nat → Tree → Prop
  | i, .leaf x f => f ≠ 0#32 ∧ nodeRead s i = leafNode x f
  | i, .node l r => l.freq + r.freq ≤ 0xFFFFFFFF ∧ ∃ a c, a < i ∧ c < i ∧ a ≠ c ∧
      nodeRead s i = internalNode (l.freq + r.freq) a c ∧ Represents s a l ∧ Represents s c r

/-- The node a path of LEFT (false) and RIGHT (true) links leads to from node `i`; a leaf has no links. -/
def follow (s : State) : Nat → List Bool → Option Nat
  | i, [] => some i
  | i, b :: p =>
    let nd := nodeRead s i
    if nd.leaf then none else follow s (if b then nd.right else nd.left).toNat p

/-- What a valid tree is: empty (41_tree_builder.md R166), or a strict binary tree with NLEAF distinct symbols in
NODE[0..NNODE−1], its root last (R169, R171, R172). -/
def ArenaHoldsTree (s : State) : Prop :=
  (s.nleaf = 0#9 ∧ s.nnode = 0#9 ∧ s.root = noneIndex) ∨
  ∃ t : Tree, Represents s s.root.toNat t ∧ t.symbols.Nodup ∧ t.symbols.length = s.nleaf.toNat ∧
    s.nnode.toNat + 1 = 2 * s.nleaf.toNat ∧ s.root.toNat + 1 = s.nnode.toNat ∧
    ∀ k < s.nnode.toNat, (s.node.cells.lookup k).isSome

/-- The leaf of the `k`-th symbol with FREQ ≠ 0 stands at index `k` (41_tree_builder.md R165): `s` gives the frequencies, `t` the
arena. -/
def LeavesLoaded (s t : State) : Prop :=
  ∀ k x, (leafSymbols s)[k]? = some x → nodeRead t k = leafNode x (freqRead s x)

/-- The key order of two arena indices (41_tree_builder.md R161). -/
abbrev KeyBefore (s : State) (i j : Nat) : Prop :=
  (nodeRead s i).freq.toNat < (nodeRead s j).freq.toNat ∨ ((nodeRead s i).freq = (nodeRead s j).freq ∧ i < j)

/-- Index `i` is in the queue just before node `n` is made: it is below `n`, and no internal node made before `n` has taken it
(41_tree_builder.md R160, R163, R167). -/
def InQueueAt (s : State) (n i : Nat) : Prop :=
  i < n ∧ ∀ m, s.nleaf.toNat ≤ m → m < n → (nodeRead s m).left.toNat ≠ i ∧ (nodeRead s m).right.toNat ≠ i

/-- `a` and `c` are the two nodes of the queue with the least keys just before node `n` is made, `a` before `c`
(41_tree_builder.md R162, R167). -/
def TwoLeast (s : State) (n a c : Nat) : Prop :=
  InQueueAt s n a ∧ InQueueAt s n c ∧ KeyBefore s a c ∧ ∀ i, InQueueAt s n i → i ≠ a → i ≠ c → KeyBefore s c i

/-- Node `n` is the merge of the two least: the first extracted is LEFT, the second RIGHT, FREQ is their sum,
exactly: it fits in 32 bits (41_tree_builder.md R167, R168). -/
def MergedAt (s : State) (n : Nat) : Prop :=
  ∃ a c, TwoLeast s n a c ∧ (nodeRead s a).freq.toNat + (nodeRead s c).freq.toNat ≤ 0xFFFFFFFF ∧
    nodeRead s n = internalNode ((nodeRead s a).freq.toNat + (nodeRead s c).freq.toNat) a c

/-! The code table (42_code_table.md R197). -/

/-- Symbol `x` has a code (10_state.md R42). -/
abbrev HasCode (s : State) (x : Byte) : Prop := (ctRead s x).len ≠ 0#8

/-- "for two different symbols s ≠ t with codes, code(s) is not a prefix of code(t)" (42_code_table.md R197(a)); no two
symbols then have the same code (R197(b)). -/
def PrefixFree (s : State) : Prop := ∀ x y, x ≠ y → HasCode s x → HasCode s y → ¬ codeOf s x <+: codeOf s y

/-! Decoding (44_decoder.md R236, R237). -/

/-- The symbol `x` is in M(acc) (44_decoder.md R236). -/
abbrev Matches (s : State) (acc : List Bool) (x : Byte) : Prop := (ctRead s x).len.toNat = acc.length ∧ codeOf s x = acc

/-- live(acc) (44_decoder.md R236). -/
def Live (s : State) (acc : List Bool) : Prop :=
  ∃ x, acc.length < (ctRead s x).len.toNat ∧ (codeOf s x).take acc.length = acc

/-- Every non-empty prefix of `c`, `c` itself among them, matches no symbol and is live: the walk reads `c` and is still
accumulating (44_decoder.md R237). -/
def Unresolved (s : State) (c : List Bool) : Prop :=
  ∀ n, 0 < n → n ≤ c.length → (∀ x, ¬ Matches s (c.take n) x) ∧ Live s (c.take n)

/-- The walk reads `c` and stops accumulating at its last bit (44_decoder.md R237). -/
def ResolvesAt (s : State) (c : List Bool) : Prop := c ≠ [] ∧ Unresolved s c.dropLast

/-- The greedy walk of `bits` emits `xs` and ends with an empty accumulated code (44_decoder.md R237). -/
inductive Emits (s : State) : List Bool → List Byte → Prop where
  | nil : Emits s [] []
  | cons (c : List Bool) (x : Byte) (bits : List Bool) (xs : List Byte) :
      ResolvesAt s c → (∀ y, Matches s c y ↔ y = x) → Emits s bits xs → Emits s (c ++ bits) (x :: xs)

/-- BYTE_BUF[0..BYTE_LEN−1] passes the checks before the walk (44_decoder.md R231, R232, R234, R235). -/
abbrev HeaderOk (s : State) : Prop :=
  s.byteLen.toNat ≤ s.params.byteBufSize ∧ 2 ≤ s.byteLen.toNat ∧ 1 ≤ (byteRead s 0).toNat ∧ (byteRead s 0).toNat ≤ 8

/-- `p` is the payload P: stream bits 8 .. 8B − h, where stream bit 8j+k is bit 7−k of BYTE_BUF[j] (44_decoder.md R233, R235,
20_memory.md R84). -/
def IsPayload (s : State) (p : List Bool) : Prop :=
  p.length = 8 * (s.byteLen.toNat - 1) - (byteRead s 0).toNat ∧
  ∀ k < p.length, p[k]? = some ((byteRead s (k / 8 + 1)).getLsbD (7 - k % 8))

/-! Encoding (43_bit_packer.md R210 to R215). -/

/-- SYM_BUF[0..SYM_LEN−1] passes the first two checks (43_bit_packer.md R211, R212). -/
abbrev InputCoded (s : State) : Prop :=
  s.symLen.toNat ≤ s.params.symBufSize ∧ ∀ i < s.symLen.toNat, HasCode s (symRead s i)

/-- E: the codes of SYM_BUF[0..SYM_LEN−1] one after another (43_bit_packer.md R214). -/
def inputCode (s : State) : List Bool := (List.range s.symLen.toNat).flatMap fun i => codeOf s (symRead s i)

/-! The invariant. -/

/-- Every local memory is in canonical form, within its bounds (10_state.md R40, R42, R43, R45, R46; log 4). -/
def MemoriesCanonical (s : State) : Prop :=
  s.freq.wf (fun v => decide (v = 0#32)) 256 ∧ s.ct.wf (fun e => decide (e = .absent)) 256 ∧
  s.node.cells.wf (fun _ => false) 511 ∧ s.symBuf.cells.wf (fun _ => false) s.params.symBufSize ∧
  s.byteBuf.cells.wf (fun _ => false) s.params.byteBufSize

/-- The command record is as acceptance and completion leave it (10_state.md R25, R26, R28, R29, R32). -/
def RecordConsistent (s : State) : Prop :=
  (∀ w, s.phase = .busy w → s.done = false ∧ s.err = false ∧ s.lastOp = opField w) ∧
  (s.err = true → s.done = true) ∧ s.err = s.errCode.isSome ∧ (s.err = false → s.errInfo = 0#32)

/-- The tree registers are as BUILD leaves them (10_state.md R27, R37, R39). -/
def TreeConsistent (s : State) : Prop :=
  s.nleaf.toNat ≤ 256 ∧ (s.treeValid = false → s.root = noneIndex) ∧ (s.treeValid = true → ArenaHoldsTree s)

/-- Every draw of UNSPEC values still to come is a fresh one (log 3). -/
def DrawsFresh (s : State) : Prop := s.node.draw < s.draws ∧ s.symBuf.draw < s.draws ∧ s.byteBuf.draw < s.draws

/-- What every step keeps. -/
structure StateInv (s : State) : Prop where
  params   : s.params.WellFormed
  memories : MemoriesCanonical s
  record   : RecordConsistent s
  tree     : TreeConsistent s
  pad      : s.pad.toNat ≤ 8
  draws    : DrawsFresh s

end Sys2Proof.Machine
end

