-- ==== Sys2Proof/Certificates/Slice0/Obligations.lean ====
section
/-! DEFINITION. The statements for the provers, from the numbered rules of spec/. Each docstring names the rules it formalises and,
where it rests on a choice of the model, the log entry. -/

open Sys2Proof Sys2Proof.Machine

/-! Decoding and encoding. -/

/-- A word selects a command exactly when it is that command's row of R101; every other word is rejected, by the check of R102
that it fails. The encoder gives each command its word. -/
def Obligations.CommandWordsDecode : Prop :=
  (∀ w, decodeCommand w = .ok .nop ↔ w = 0x00000000#32) ∧ (∀ w, decodeCommand w = .ok .clearFreq ↔ w = 0x00000001#32) ∧
  (∀ w, decodeCommand w = .ok .build ↔ w = 0x00000002#32) ∧ (∀ w, decodeCommand w = .ok .walk ↔ w = 0x00000003#32) ∧
  (∀ w, decodeCommand w = .ok .encode ↔ w = 0x00000004#32) ∧ (∀ w, decodeCommand w = .ok .decode ↔ w = 0x00000005#32) ∧
  (∀ w, decodeCommand w = .ok .clearTable ↔ w = 0x00000006#32) ∧
  (∀ w, decodeCommand w = .error .mustBeZero ↔ w.toNat / 16 ≠ 0) ∧
  (∀ w, decodeCommand w = .error .reservedOpcode ↔ w.toNat / 16 = 0 ∧ 7 ≤ w.toNat % 16) ∧
  (∀ w i, decodeCommand w = .ok i ↔ w = encodeCommand i)

/-- The seven words of R101 decode to the commands they stand for. A check on fixed words. -/
def Obligations.TableWordsDecode : Prop :=
  decodeTableWord 32 0x00000000 = some .nop ∧ decodeTableWord 32 0x00000001 = some .clearFreq ∧
  decodeTableWord 32 0x00000002 = some .build ∧ decodeTableWord 32 0x00000003 = some .walk ∧
  decodeTableWord 32 0x00000004 = some .encode ∧ decodeTableWord 32 0x00000005 = some .decode ∧
  decodeTableWord 32 0x00000006 = some .clearTable ∧ decodeTableWord 32 0x00000010 = none ∧
  decodeTableWord 32 0x00000007 = none

/-- The offset map (20_memory.md R71): every row's offset selects that row and no other offset does; the reserved ranges select
nothing (R74). -/
def Obligations.OffsetMapAgrees : Prop :=
  (∀ (o : Offset) (r : Reg), o.toNat % 4 = 0 → (targetAt o = some (.reg r) ↔ o.toNat = r.offset)) ∧
  (∀ (o : Offset) (x : Byte), o.toNat % 4 = 0 → (targetAt o = some (.freq x) ↔ o.toNat = 0x00400 + 4 * x.toNat)) ∧
  (∀ (o : Offset) (w : Nat), o.toNat % 4 = 0 → (targetAt o = some (.symWord w) ↔ w < 0x4000 ∧ o.toNat = 0x10000 + 4 * w)) ∧
  (∀ (o : Offset) (w : Nat), o.toNat % 4 = 0 → (targetAt o = some (.byteWord w) ↔ w < 0x4000 ∧ o.toNat = 0x20000 + 4 * w)) ∧
  (∀ o : Offset, o.toNat % 4 = 0 → (targetAt o = none ↔
    (0x00078 ≤ o.toNat ∧ o.toNat ≤ 0x003FC) ∨ (0x00800 ≤ o.toNat ∧ o.toNat ≤ 0x0FFFC) ∨ 0x30000 ≤ o.toNat))

/-! Reset. -/

/-- The reset event, whatever HTB was doing (R290): every field of R51 has its reset value; a pending command is gone, and no
completion is seen; the constants of the configuration do not change. NODE, SYM_BUF and BYTE_BUF read the free values of a new
draw in every entry (log 3). -/
def Obligations.ResetEventGivesResetValues : Prop :=
  ∀ s rest, s.events = .reset :: rest → ∃ t, step s = .next t ∧
    t.phase = .idle ∧ statusWord t = 0x00000000#32 ∧ t.irqEn = 0#2 ∧ t.irqStatus = 0#2 ∧ t.errInfo = 0#32 ∧ t.symLen = 0#32 ∧
    t.byteLen = 0#32 ∧ t.encBits = 0#32 ∧ t.pad = 0#4 ∧ t.nleaf = 0#9 ∧ t.nnode = 0#9 ∧ t.root = 0x1FF#9 ∧ t.ctSel = 0#8 ∧
    t.nodeSel = 0#9 ∧ (∀ x, freqRead t x = 0#32) ∧ (∀ x, ctRead t x = { len := 0#8, code := 0#256 }) ∧
    (∀ i, nodeRead t i = freeNode s.draws i) ∧ (∀ i, symRead t i = Config.freeSymbol s.draws i) ∧
    (∀ j, byteRead t j = Config.freeByte s.draws j) ∧ t.irq = false ∧ t.params = s.params ∧ t.events = rest ∧
    t.responses = s.responses

/-- The state after reset meets the invariant, for every legal configuration. -/
def Obligations.ResetStateMeetsInvariant : Prop :=
  (∀ p : Params, p.WellFormed → StateInv (State.resetWith p)) ∧ StateInv State.reset

/-! Bus transactions. -/

/-- A transaction with size ≠ 4, or with offset[1:0] ≠ 0, gets ERR and rdata 0 and changes no state (R73). -/
def Obligations.NarrowOrMisalignedAccessRefused : Prop :=
  ∀ (t : Transaction) s, t.size ≠ .four ∨ t.offset.extractLsb' 0 2 ≠ 0#2 → busAccess t s = (s, { resp := .err, rdata := 0#32 })

/-- A legal-width transaction to a reserved offset, or to a buffer-window word beyond the configured size, gets ERR and rdata 0
and changes no state (R74, R78). -/
def Obligations.ReservedOffsetRefused : Prop :=
  ∀ (t : Transaction) s,
    (0x00078 ≤ t.offset.toNat ∧ t.offset.toNat ≤ 0x003FF) ∨ (0x00800 ≤ t.offset.toNat ∧ t.offset.toNat ≤ 0x0FFFF) ∨
    (0x10000 ≤ t.offset.toNat ∧ t.offset.toNat < 0x20000 ∧ s.params.symBufSize / 4 ≤ (t.offset.toNat - 0x10000) / 4) ∨
    (0x20000 ≤ t.offset.toNat ∧ t.offset.toNat < 0x30000 ∧ s.params.byteBufSize / 4 ≤ (t.offset.toNat - 0x20000) / 4) ∨
    0x30000 ≤ t.offset.toNat →
    busAccess t s = (s, { resp := .err, rdata := 0#32 })

/-- The access-kind rules of a legal-width transaction to a mapped register while IDLE (R75): writes to read-only registers are
refused; CMD reads 0; every other read gives the register's value; every other write has the register's effect. -/
def Obligations.RegisterAccessByKind : Prop :=
  ∀ s, s.phase = .idle →
    (∀ r v, r ∈ [Reg.id, .version, .symBufSize, .byteBufSize, .status, .errInfo, .encBits, .pad, .nleaf, .nnode, .root, .nodeFreq,
        .nodeInfo, .nodeLink] → busAccess (writeAt r.offset v) s = (s, { resp := .err, rdata := 0#32 })) ∧
    busAccess (readAt 0x00010) s = (s, { resp := .ok, rdata := 0#32 }) ∧
    (∀ r, r ≠ .cmd → busAccess (readAt r.offset) s = (s, { resp := .ok, rdata := regRead s r })) ∧
    (∀ (r : Reg) v, r = .cmd ∨ r = .irqEn ∨ r = .irqStatus ∨ r = .symLen ∨ r = .byteLen ∨ r = .ctSel ∨ r = .ctLen ∨
        (∃ k, r = .ctCode k) ∨ r = .nodeSel → busAccess (writeAt r.offset v) s = (regWrite r v s, writeResponse s))

/-- The operand and result registers (R32 to R39, R50): a read while IDLE gives what the state holds, and 0 in every reserved bit;
a write to SYM_LEN or BYTE_LEN stores all 32 bits and changes nothing else. -/
def Obligations.OperandAndResultRegisters : Prop :=
  ∀ s (v : Word), s.phase = .idle →
    busAccess (readAt 0x00020) s = (s, { resp := .ok, rdata := s.errInfo }) ∧
    busAccess (readAt 0x00024) s = (s, { resp := .ok, rdata := s.symLen }) ∧
    busAccess (readAt 0x00028) s = (s, { resp := .ok, rdata := s.byteLen }) ∧
    busAccess (readAt 0x0002C) s = (s, { resp := .ok, rdata := s.encBits }) ∧
    busAccess (readAt 0x00030) s = (s, { resp := .ok, rdata := s.pad.setWidth 32 }) ∧
    busAccess (readAt 0x00034) s = (s, { resp := .ok, rdata := s.nleaf.setWidth 32 }) ∧
    busAccess (readAt 0x00038) s = (s, { resp := .ok, rdata := s.nnode.setWidth 32 }) ∧
    busAccess (readAt 0x0003C) s = (s, { resp := .ok, rdata := s.root.setWidth 32 }) ∧
    busAccess (writeAt 0x00024 v) s = ({ s with symLen := v }, writeResponse s) ∧
    busAccess (writeAt 0x00028 v) s = ({ s with byteLen := v }, writeResponse s)

/-- The four constant registers read their values in every state, while BUSY too (R21, R2), and a write to them is refused. -/
def Obligations.ConstantRegistersRead : Prop :=
  ∀ s, s.params.WellFormed →
    busAccess (readAt 0x00000) s = (s, { resp := .ok, rdata := 0x48544231#32 }) ∧
    busAccess (readAt 0x00004) s = (s, { resp := .ok, rdata := 0x00000001#32 }) ∧
    (∃ v : Word, busAccess (readAt 0x00008) s = (s, { resp := .ok, rdata := v }) ∧ v.toNat = s.params.symBufSize) ∧
    (∃ v : Word, busAccess (readAt 0x0000C) s = (s, { resp := .ok, rdata := v }) ∧ v.toNat = s.params.byteBufSize) ∧
    (∀ o v, o ∈ [0x00000, 0x00004, 0x00008, 0x0000C] → busAccess (writeAt o v) s = (s, { resp := .err, rdata := 0#32 }))

/-- The fields of STATUS (R23, R24), read in every state, while BUSY too; a write is refused. The error codes are the eleven of R261,
all different, and 0x00 stands for no error. -/
def Obligations.StatusReadsItsFields : Prop :=
  (∀ s, (∀ v, busAccess (writeAt 0x00014 v) s = (s, { resp := .err, rdata := 0#32 })) ∧
    ∃ v : Word, busAccess (readAt 0x00014) s = (s, { resp := .ok, rdata := v }) ∧
      (v.getLsbD 0 = true ↔ ∃ w, s.phase = .busy w) ∧ v.getLsbD 1 = s.done ∧ v.getLsbD 2 = s.err ∧ v.getLsbD 3 = s.treeValid ∧
      v.extractLsb' 4 4 = s.lastOp ∧ (s.errCode = none → v.extractLsb' 8 8 = 0x00#8) ∧
      (∀ e, s.errCode = some e → v.extractLsb' 8 8 = e.code) ∧ v.extractLsb' 16 16 = 0#16) ∧
  CmdError.illegalCmd.code = 0x01#8 ∧ CmdError.lenRange.code = 0x02#8 ∧ CmdError.freqOvf.code = 0x03#8 ∧
  CmdError.noTree.code = 0x04#8 ∧ CmdError.noCode.code = 0x05#8 ∧ CmdError.outOvf.code = 0x06#8 ∧ CmdError.padHdr.code = 0x07#8 ∧
  CmdError.padLen.code = 0x08#8 ∧ CmdError.decodeNoMatch.code = 0x09#8 ∧ CmdError.decodeResidue.code = 0x0A#8 ∧
  CmdError.tableAmbig.code = 0x0B#8 ∧ (∀ a b : CmdError, a.code = b.code → a = b) ∧ ∀ a : CmdError, a.code ≠ 0x00#8

/-- While BUSY (R80) a transaction is served only at ID, VERSION, the two sizes, STATUS, IRQ_EN and IRQ_STATUS, with the effects
of R75; every other transaction, a write to CMD (R131) among them, gets ERR and rdata 0 and changes no state. -/
def Obligations.BusyRefusesOtherAccesses : Prop :=
  ∀ s w, s.phase = .busy w →
    (∀ v, busAccess (writeAt 0x00010 v) s = (s, { resp := .err, rdata := 0#32 })) ∧
    (∀ t : Transaction, t.offset.toNat ∉ [0x00000, 0x00004, 0x00008, 0x0000C, 0x00014, 0x00018, 0x0001C] →
      busAccess t s = (s, { resp := .err, rdata := 0#32 })) ∧
    (∀ r, r ∈ [Reg.id, .version, .symBufSize, .byteBufSize, .status, .irqEn, .irqStatus] →
      busAccess (readAt r.offset) s = (s, { resp := .ok, rdata := regRead s r })) ∧
    (∀ r v, r ∈ [Reg.id, .version, .symBufSize, .byteBufSize, .status] →
      busAccess (writeAt r.offset v) s = (s, { resp := .err, rdata := 0#32 })) ∧
    (∀ v, busAccess (writeAt 0x00018 v) s = ({ s with irqEn := v.extractLsb' 0 2 }, writeResponse s)) ∧
    (∀ v, busAccess (writeAt 0x0001C v) s =
      ({ s with irqStatus := s.irqStatus &&& ~~~(v.extractLsb' 0 2) }, writeResponse s))

/-- Reads have no side effects, and a transaction that is no CMD write is idempotent; an accepted CMD write starts a command
(R82). -/
def Obligations.ReadsPureWritesIdempotent : Prop :=
  (∀ (t : Transaction) s, t.kind = .read → (busAccess t s).1 = s) ∧
  (∀ (t : Transaction) s, t.offset ≠ 0x00010#18 → (busAccess t (busAccess t s).1).1 = (busAccess t s).1) ∧
  (∀ w s, s.phase = .idle → (busAccess (writeAt 0x00010 w) s).1.phase = .busy w)

/-- The FREQ window (R79): the word at 0x00400 + 4x reads FREQ[x]; a write of any 32-bit value sets FREQ[x] and nothing else. -/
def Obligations.FreqWindow : Prop :=
  ∀ s (x : Byte) (v : Word), s.phase = .idle →
    busAccess (readAt (0x00400 + 4 * x.toNat)) s = (s, { resp := .ok, rdata := freqRead s x }) ∧
    ∃ t, busAccess (writeAt (0x00400 + 4 * x.toNat) v) s = (t, writeResponse s) ∧ freqRead t x = v ∧
      (∀ y, y ≠ x → freqRead t y = freqRead s y) ∧ t = { s with freq := t.freq }

/-- The buffer windows (R76, R77): word w holds entry 4w in bits 7:0 up to entry 4w+3 in bits 31:24; a write sets those four entries
and nothing else. -/
def Obligations.BufferWindows : Prop :=
  ∀ s w (v : Word), s.phase = .idle → s.params.WellFormed →
    (w < s.params.symBufSize / 4 →
      (∃ u : Word, busAccess (readAt (0x10000 + 4 * w)) s = (s, { resp := .ok, rdata := u }) ∧
        ∀ k < 4, u.extractLsb' (8 * k) 8 = symRead s (4 * w + k)) ∧
      ∃ t, busAccess (writeAt (0x10000 + 4 * w) v) s = (t, writeResponse s) ∧
        (∀ k < 4, symRead t (4 * w + k) = v.extractLsb' (8 * k) 8) ∧
        (∀ i, i < 4 * w ∨ 4 * w + 4 ≤ i → symRead t i = symRead s i) ∧ t = { s with symBuf := t.symBuf }) ∧
    (w < s.params.byteBufSize / 4 →
      (∃ u : Word, busAccess (readAt (0x20000 + 4 * w)) s = (s, { resp := .ok, rdata := u }) ∧
        ∀ k < 4, u.extractLsb' (8 * k) 8 = byteRead s (4 * w + k)) ∧
      ∃ t, busAccess (writeAt (0x20000 + 4 * w) v) s = (t, writeResponse s) ∧
        (∀ k < 4, byteRead t (4 * w + k) = v.extractLsb' (8 * k) 8) ∧
        (∀ i, i < 4 * w ∨ 4 * w + 4 ≤ i → byteRead t i = byteRead s i) ∧ t = { s with byteBuf := t.byteBuf })

/-- The code-table window (R41): CT_SEL keeps bits 7:0; CT_LEN and CT_CODEk read and write the selected entry's LEN and 32 bits of
its CODE, at once, and change nothing else; CT_SEL is 0 after reset. -/
def Obligations.CodeTableWindow : Prop :=
  State.reset.ctSel = 0#8 ∧
  ∀ s (v : Word), s.phase = .idle →
    busAccess (readAt 0x00040) s = (s, { resp := .ok, rdata := s.ctSel.setWidth 32 }) ∧
    busAccess (writeAt 0x00040 v) s = ({ s with ctSel := v.extractLsb' 0 8 }, writeResponse s) ∧
    busAccess (readAt 0x00044) s = (s, { resp := .ok, rdata := (ctRead s s.ctSel).len.setWidth 32 }) ∧
    (∃ t, busAccess (writeAt 0x00044 v) s = (t, writeResponse s) ∧ t = { s with ct := t.ct } ∧
      ctRead t s.ctSel = { ctRead s s.ctSel with len := v.extractLsb' 0 8 } ∧ ∀ y, y ≠ s.ctSel → ctRead t y = ctRead s y) ∧
    ∀ k < 8,
      busAccess (readAt (0x00048 + 4 * k)) s = (s, { resp := .ok, rdata := (ctRead s s.ctSel).code.extractLsb' (32 * k) 32 }) ∧
      ∃ t, busAccess (writeAt (0x00048 + 4 * k) v) s = (t, writeResponse s) ∧ t = { s with ct := t.ct } ∧
        (ctRead t s.ctSel).len = (ctRead s s.ctSel).len ∧
        (∀ j < 8, (ctRead t s.ctSel).code.extractLsb' (32 * j) 32 =
          if j = k then v else (ctRead s s.ctSel).code.extractLsb' (32 * j) 32) ∧
        ∀ y, y ≠ s.ctSel → ctRead t y = ctRead s y

/-- The node readback window (R44): NODE_SEL keeps bits 8:0; NODE_FREQ, NODE_INFO and NODE_LINK read the fields of the selected
entry, and 0 when NODE_SEL = NONE; NODE_SEL is 0 after reset. -/
def Obligations.NodeWindow : Prop :=
  State.reset.nodeSel = 0#9 ∧
  ∀ s (v : Word), s.phase = .idle →
    busAccess (readAt 0x00068) s = (s, { resp := .ok, rdata := s.nodeSel.setWidth 32 }) ∧
    busAccess (writeAt 0x00068 v) s = ({ s with nodeSel := v.extractLsb' 0 9 }, writeResponse s) ∧
    ∃ f i l : Word, busAccess (readAt 0x0006C) s = (s, { resp := .ok, rdata := f }) ∧
      busAccess (readAt 0x00070) s = (s, { resp := .ok, rdata := i }) ∧
      busAccess (readAt 0x00074) s = (s, { resp := .ok, rdata := l }) ∧
      (s.nodeSel = 0x1FF#9 → f = 0#32 ∧ i = 0#32 ∧ l = 0#32) ∧
      (s.nodeSel ≠ 0x1FF#9 → let nd := nodeRead s s.nodeSel.toNat
        f = nd.freq ∧ i.getLsbD 31 = nd.leaf ∧ i.extractLsb' 8 23 = 0#23 ∧ i.extractLsb' 0 8 = nd.sym ∧
        l.extractLsb' 25 7 = 0#7 ∧ l.extractLsb' 16 9 = nd.right ∧ l.extractLsb' 9 7 = 0#7 ∧ l.extractLsb' 0 9 = nd.left)

/-- IRQ_EN (R30): 0 after reset; a write stores wdata[1:0] and nothing else; a read gives those two bits and zeros; in every
state, while BUSY too. The interrupt line (R267) is high exactly when an enabled pending bit is set, and low after reset. -/
def Obligations.InterruptEnableAndLine : Prop :=
  State.reset.irqEn = 0#2 ∧ State.reset.irq = false ∧
  ∀ s (v : Word), busAccess (writeAt 0x00018 v) s = ({ s with irqEn := v.extractLsb' 0 2 }, writeResponse s) ∧
    busAccess (readAt 0x00018) s = (s, { resp := .ok, rdata := s.irqEn.setWidth 32 }) ∧
    (s.irq = true ↔ (s.irqStatus.getLsbD 0 = true ∧ s.irqEn.getLsbD 0 = true) ∨
      (s.irqStatus.getLsbD 1 = true ∧ s.irqEn.getLsbD 1 = true))

/-- IRQ_STATUS (R31): 0 after reset; a read gives DONE_IP in bit 0, ERR_IP in bit 1 and zeros above, and changes nothing. A host
write of v clears DONE_IP if v[0] = 1 and ERR_IP if v[1] = 1, sets nothing, and changes nothing else, STATUS.DONE and STATUS.ERR
among it; irq follows at once (R268). In every state, while BUSY too. -/
def Obligations.InterruptAcknowledge : Prop :=
  State.reset.irqStatus = 0#2 ∧
  (∀ s, ∃ u : Word, busAccess (readAt 0x0001C) s = (s, { resp := .ok, rdata := u }) ∧
    u.getLsbD 0 = doneIp s ∧ u.getLsbD 1 = errIp s ∧ u.extractLsb' 2 30 = 0#30) ∧
  ∀ s (v : Word), ∃ t, busAccess (writeAt 0x0001C v) s = (t, writeResponse s) ∧ t = { s with irqStatus := t.irqStatus } ∧
    doneIp t = (doneIp s && !v.getLsbD 0) ∧ errIp t = (errIp s && !v.getLsbD 1) ∧
    t.irq = ((doneIp s && !v.getLsbD 0 && doneIe s) || (errIp s && !v.getLsbD 1 && errIe s))

/-! Acceptance, the engine step, completion. -/

/-- Acceptance (R130): a legal-width write of any word w to CMD while IDLE gets OK and has exactly this effect. -/
def Obligations.CommandAccepted : Prop :=
  ∀ s (w : Word), s.phase = .idle →
    busAccess (writeAt 0x00010 w) s =
      ({ s with phase := .busy w, done := false, err := false, errCode := none, lastOp := w.extractLsb' 0 4, errInfo := 0#32 },
        writeResponse s)

/-- A step serves the next transaction of the queue, atomically: the state it leaves, its response added, and the queue without
it (R81, R86; the queue is the model's own, log 1). -/
def Obligations.StepServesNextTransaction : Prop :=
  ∀ s (t : Transaction) rest, s.events = .bus t :: rest → ∀ u r, busAccess t { s with events := rest } = (u, r) →
    step s = .next { u with responses := u.responses ++ [r] } ∧ u.events = rest

/-- A step runs the decoded command: when the pending word decodes to i and the engine moves next, the step is exec of i (R132,
R136). The engine moves next when its turn is first in the queue, or when no event is left (log 1, log 8). -/
def Obligations.StepRunsDecodedCommand : Prop :=
  ∀ s w i, s.phase = .busy w → decodeCommand w = .ok i →
    (s.events = [] → step s = exec i s) ∧
    (∀ rest, s.events = .engine :: rest → step s = exec i { s with events := rest }) ∧
    (∀ u : State, u.events = [] → step (u.withFetchWord 32 w.toNat) =
      exec i { u with phase := .busy w, done := false, err := false, errCode := none, lastOp := w.extractLsb' 0 4, errInfo := 0#32 })

/-- The engine step (R132 to R134). While IDLE the engine has none; that an engine turn of the queue, or a step with nothing queued,
is then a step that changes nothing is the model's choice (log 1, log 8) and no rule of the spec. With any command word pending, in a
state that meets the invariant, it completes: PHASE is IDLE, DONE is set and DONE_IP is set; either no error is recorded and
ERR_IP is as it was, or one is, and ERR_IP is set; LAST_OP still names the command (R262). -/
def Obligations.EngineStepCompletes : Prop :=
  (∀ s, s.phase = .idle → (s.events = [] → step s = .next s) ∧
    ∀ rest, s.events = .engine :: rest → step s = .next { s with events := rest }) ∧
  ∀ s w rest, StateInv s → s.phase = .busy w → s.events = .engine :: rest → ∃ t, step s = .next t ∧ t.phase = .idle ∧ t.done = true ∧
    doneIp t = true ∧ t.lastOp = w.extractLsb' 0 4 ∧
    ((t.err = false ∧ t.errCode = none ∧ t.errInfo = 0#32 ∧ errIp t = errIp s) ∨
      (t.err = true ∧ (∃ e, t.errCode = some e) ∧ errIp t = true))

/-- An illegal word completes with E_ILLEGAL_CMD and ERR_INFO = w, and nothing but the completion fields changes (R140, R102). The
engine moves next when its turn is first in the queue, or when no event is left (log 1, log 8). -/
def Obligations.IllegalWordCompletesWithError : Prop :=
  ∀ s (w : Word) rest, s.phase = .busy w → w.extractLsb' 4 28 ≠ 0#28 ∨ 7 ≤ (w.extractLsb' 0 4).toNat →
    (s.events = [] ∧ rest = []) ∨ s.events = .engine :: rest →
    step s = .next { s with
      phase := .idle, done := true, err := true, errCode := some .illegalCmd, errInfo := w,
      irqStatus := s.irqStatus ||| 3#2, events := rest }

/-- NOP changes only the completion fields (R137). -/
def Obligations.NopCompletes : Prop :=
  ∀ s, exec .nop s = .next { s with phase := .idle, done := true, irqStatus := s.irqStatus ||| 1#2 }

/-- CLEAR_FREQ zeroes FREQ and changes nothing else but the completion fields (R138). -/
def Obligations.ClearFreqZeroesFreq : Prop :=
  ∀ s, ∃ t, exec .clearFreq s = .next t ∧ (∀ x, freqRead t x = 0#32) ∧
    t = { s with freq := t.freq, phase := .idle, done := true, irqStatus := s.irqStatus ||| 1#2 }

/-- CLEAR_TABLE zeroes CT and changes nothing else but the completion fields (R139). -/
def Obligations.ClearTableZeroesTable : Prop :=
  ∀ s, ∃ t, exec .clearTable s = .next t ∧ (∀ x, ctRead t x = { len := 0#8, code := 0#256 }) ∧
    t = { s with ct := t.ct, phase := .idle, done := true, irqStatus := s.irqStatus ||| 1#2 }

/-! BUILD. -/

/-- BUILD with no overflow completes, and changes only the arena, the tree registers, TREE_VALID and the completion fields (R170).
NLEAF counts the symbols with a non-zero frequency (R165). With none, NNODE = 0, ROOT = NONE and no NODE entry is written
(R166); with any, NNODE = 2·NLEAF − 1 and ROOT = NNODE − 1 (R169, R171). Entries from NNODE on keep their values (R170). -/
def Obligations.BuildCompletes : Prop :=
  ∀ s, ¬ FreqOverflows s → ∃ t, exec .build s = .next t ∧
    t = { s with
      node := t.node, nleaf := t.nleaf, nnode := t.nnode, root := t.root, treeValid := true, phase := .idle, done := true,
      irqStatus := s.irqStatus ||| 1#2 } ∧
    t.nleaf.toNat = (leafSymbols s).length ∧
    (leafSymbols s = [] → t.nnode = 0#9 ∧ t.root = 0x1FF#9 ∧ t.node = s.node) ∧
    (leafSymbols s ≠ [] → t.nnode.toNat + 1 = 2 * (leafSymbols s).length ∧ t.root.toNat + 1 = t.nnode.toNat) ∧
    ∀ k, t.nnode.toNat ≤ k → nodeRead t k = nodeRead s k

/-- Leaf loading (R165): the k-th symbol with FREQ ≠ 0, in ascending order, is the leaf at index k, whether BUILD succeeds or not;
NLEAF is their number. -/
def Obligations.BuildLoadsLeavesInSymbolOrder : Prop :=
  ∀ s t, exec .build s = .next t → LeavesLoaded s t ∧ t.nleaf.toNat = (leafSymbols s).length

/-- The merge loop (R167, under the order of R161): each internal node of a BUILD that succeeds is made of the two least keys of the
queue of that moment, the first extracted LEFT, the second RIGHT, and FREQ their exact sum, which
fits in 32 bits. With the leaves this fixes the
tree. -/
def Obligations.BuildMergesTwoLeast : Prop :=
  ∀ s t, ¬ FreqOverflows s → exec .build s = .next t → ∀ n, t.nleaf.toNat ≤ n → n < t.nnode.toNat → MergedAt t n

/-- Frequency overflow (R168): raised exactly then, with ERR_INFO = n, the index the new node would have had; the leaves and the
nodes already merged stay, entries from n on are unchanged, ROOT = NONE, TREE_VALID = 0. n is the first such index: every merge
below n has a sum of at most 0xFFFFFFFF, and the two least keys at n sum to more. -/
def Obligations.BuildOverflow : Prop :=
  ∀ s, FreqOverflows s → ∃ t n, exec .build s = .next t ∧
    t = { s with
      node := t.node, nleaf := t.nleaf, nnode := BitVec.ofNat 9 n, root := 0x1FF#9, treeValid := false, phase := .idle,
      done := true, err := true, errCode := some .freqOvf, errInfo := BitVec.ofNat 32 n, irqStatus := s.irqStatus ||| 3#2 } ∧
    t.nleaf.toNat = (leafSymbols s).length ∧ (leafSymbols s).length ≤ n ∧ n + 1 < 2 * (leafSymbols s).length ∧
    LeavesLoaded s t ∧ (∀ k, t.nleaf.toNat ≤ k → k < n → MergedAt t k) ∧ (∀ k, n ≤ k → nodeRead t k = nodeRead s k) ∧
    ∃ a c, TwoLeast t n a c ∧ 0xFFFFFFFF < (nodeRead t a).freq.toNat + (nodeRead t c).freq.toNat

/-- The tree a successful BUILD leaves (R172): (a) every node of NODE[0..NNODE−1] is reached from ROOT by exactly one path of
links, and no other node is; (b) internal nodes have two different children; (c) the leaves hold each symbol with FREQ ≠ 0 once
and no other; (d) internal frequencies are exact sums and ROOT's is the sum of FREQ; (e) a child's index is less than its
parent's. -/
def Obligations.BuildTreeInvariants : Prop :=
  ∀ s t, ¬ FreqOverflows s → leafSymbols s ≠ [] → exec .build s = .next t →
    (∀ k < t.nnode.toNat, ∃! p, follow t t.root.toNat p = some k) ∧
    (∀ p k, follow t t.root.toNat p = some k → k < t.nnode.toNat) ∧
    (∀ k < t.nnode.toNat, (nodeRead t k).leaf = false →
      (nodeRead t k).left ≠ (nodeRead t k).right ∧ (nodeRead t k).left.toNat < k ∧ (nodeRead t k).right.toNat < k ∧
      (nodeRead t k).freq.toNat =
        (nodeRead t (nodeRead t k).left.toNat).freq.toNat + (nodeRead t (nodeRead t k).right.toNat).freq.toNat) ∧
    (∀ x, freqRead s x ≠ 0#32 → ∃! k, k < t.nnode.toNat ∧ (nodeRead t k).leaf = true ∧ (nodeRead t k).sym = x) ∧
    (∀ k < t.nnode.toNat, (nodeRead t k).leaf = true → freqRead s (nodeRead t k).sym ≠ 0#32) ∧
    (nodeRead t t.root.toNat).freq.toNat = totalFreq s

/-! WALK. -/

/-- WALK without a valid tree raises E_NO_TREE with ERR_INFO = 0, and CT is unchanged, as everything else (R191). -/
def Obligations.WalkNeedsTree : Prop :=
  ∀ s, s.treeValid = false →
    exec .walk s = .next { s with
      phase := .idle, done := true, err := true, errCode := some .noTree, errInfo := 0#32,
      irqStatus := s.irqStatus ||| 3#2 }

/-- WALK of the empty tree completes with success and leaves every CT entry at LEN 0 (R193). WALK of a single leaf gives its symbol the
code "0" and every other symbol none; the arena stays (R194, R192). -/
def Obligations.WalkOfSmallTrees : Prop :=
  ∀ s, s.treeValid = true →
    (s.root = 0x1FF#9 → ∃ t, exec .walk s = .next t ∧ (∀ x, ctRead t x = { len := 0#8, code := 0#256 }) ∧
      t = { s with ct := t.ct, phase := .idle, done := true, irqStatus := s.irqStatus ||| 1#2 }) ∧
    (s.root ≠ 0x1FF#9 → (nodeRead s s.root.toNat).leaf = true → ∃ t, exec .walk s = .next t ∧
      ctRead t (nodeRead s s.root.toNat).sym = { len := 1#8, code := 0#256 } ∧
      (∀ x, x ≠ (nodeRead s s.root.toNat).sym → ctRead t x = { len := 0#8, code := 0#256 }) ∧
      t = { s with ct := t.ct, phase := .idle, done := true, irqStatus := s.irqStatus ||| 1#2 })

/-- WALK of a tree with an internal root (R195, R196): the leaf reached by path p gets LEN = |p| and CODE = val(p), so that its code
is p; |p| is from 1 to NLEAF − 1; a symbol with no leaf gets {0, 0}, whatever it had (R192); nothing else changes. -/
def Obligations.WalkGivesPaths : Prop :=
  ∀ s, s.treeValid = true → ArenaHoldsTree s → 2 ≤ s.nleaf.toNat → ∃ t, exec .walk s = .next t ∧
    (∀ p k, follow s s.root.toNat p = some k → (nodeRead s k).leaf = true →
      1 ≤ p.length ∧ p.length + 1 ≤ s.nleaf.toNat ∧ codeOf t (nodeRead s k).sym = p ∧
      ctRead t (nodeRead s k).sym = { len := BitVec.ofNat 8 p.length, code := BitVec.ofNat 256 (valOf p) }) ∧
    (∀ x, (∀ p k, follow s s.root.toNat p = some k → (nodeRead s k).leaf = true → (nodeRead s k).sym ≠ x) →
      ctRead t x = { len := 0#8, code := 0#256 }) ∧
    t = { s with ct := t.ct, phase := .idle, done := true, irqStatus := s.irqStatus ||| 1#2 }

/-- The table WALK makes (R197): (a) it is prefix-free; (b) no two symbols have the same code; (c) Σ 2^(−LEN) over the symbols with
codes is exactly 1 with two leaves or more, and 1/2 with one (written with every term times 2^255). -/
def Obligations.WalkTableProperties : Prop :=
  ∀ s t, s.treeValid = true → ArenaHoldsTree s → s.nleaf ≠ 0#9 → exec .walk s = .next t →
    PrefixFree t ∧ (∀ x y, HasCode t x → HasCode t y → codeOf t x = codeOf t y → x = y) ∧
    ((allSymbols.filter fun x => decide (HasCode t x)).map fun x => 2 ^ (255 - (ctRead t x).len.toNat)).sum =
      if s.nleaf = 1#9 then 2 ^ 254 else 2 ^ 255

/-- WALK reads NODE, ROOT and TREE_VALID and nothing else, FREQ least of all (R199): two states that agree on these complete alike, and
with a valid tree they end with the same code table. -/
def Obligations.WalkReadsOnlyTheTree : Prop :=
  ∀ s u t, exec .walk s = .next t → u.node = s.node → u.root = s.root → u.treeValid = s.treeValid →
    ∃ v, exec .walk u = .next v ∧ (s.treeValid = true → v.ct = t.ct) ∧ (s.treeValid = false → v.ct = u.ct)

/-! ENCODE. -/

/-- The three errors of ENCODE, in the order of R265. SYM_LEN > SYM_BUF_SIZE: E_LEN_RANGE with ERR_INFO = SYM_LEN (R211). A symbol
without a code: E_NO_CODE with ERR_INFO = the index of the first (R212). An output of B = floor(L/8) + 2 > BYTE_BUF_SIZE bytes:
E_OUT_OVF with ERR_INFO = B (R213). Each leaves the state of R216: BYTE_LEN, ENC_BITS and PAD are 0, every BYTE_BUF entry is
UNSPEC (the free value of a new draw, log 3), everything else is unchanged. -/
def Obligations.EncodeErrors : Prop :=
  ∀ s e info,
    (s.params.symBufSize < s.symLen.toNat ∧ e = .lenRange ∧ info = s.symLen.toNat) ∨
    (s.symLen.toNat ≤ s.params.symBufSize ∧ info < s.symLen.toNat ∧ ¬ HasCode s (symRead s info) ∧
      (∀ k < info, HasCode s (symRead s k)) ∧ e = .noCode) ∨
    (InputCoded s ∧ s.params.byteBufSize < (inputCode s).length / 8 + 2 ∧ e = .outOvf ∧ info = (inputCode s).length / 8 + 2) →
    ∃ t, exec .encode s = .next t ∧ (∀ j, byteRead t j = Config.freeByte s.draws j) ∧
      t = { s with
        byteBuf := t.byteBuf, draws := s.draws + 1, byteLen := 0#32, encBits := 0#32, pad := 0#4, phase := .idle,
        done := true, err := true, errCode := some e, errInfo := BitVec.ofNat 32 info, irqStatus := s.irqStatus ||| 3#2 }

/-- ENCODE (R214, R215, with the bit order of R84): with every symbol coded and an output that fits, it completes; stream bit 8j+k of
S = bits_8(pad) ++ E ++ zeros(pad) is bit 7−k of BYTE_BUF[j]; BYTE_BUF from B on and everything else is unchanged; BYTE_LEN = B,
ENC_BITS = L, PAD = pad. -/
def Obligations.EncodeWritesPackedStream : Prop :=
  ∀ s, InputCoded s → (inputCode s).length / 8 + 2 ≤ s.params.byteBufSize →
    let l := (inputCode s).length
    let pad := 8 - l % 8
    ∃ t, exec .encode s = .next t ∧ byteRead t 0 = BitVec.ofNat 8 pad ∧
      (∀ j k, k < 8 → j < l / 8 + 2 →
        (byteRead t j).getLsbD (7 - k) = (bitsOf 8 pad ++ inputCode s ++ List.replicate pad false).getD (8 * j + k) false) ∧
      (∀ j, l / 8 + 2 ≤ j → byteRead t j = byteRead s j) ∧
      t = { s with
        byteBuf := t.byteBuf, byteLen := BitVec.ofNat 32 (l / 8 + 2), encBits := BitVec.ofNat 32 l,
        pad := BitVec.ofNat 4 pad, phase := .idle, done := true, irqStatus := s.irqStatus ||| 1#2 }

/-- What every successful ENCODE leaves (R217(a) to (d), (f)): 1 ≤ PAD ≤ 8, BYTE_BUF[0] = PAD, 8·BYTE_LEN = 8 + ENC_BITS + PAD; BYTE_LEN =
2 exactly when ENC_BITS ≤ 7; the last PAD bits of the last byte are 0; no symbols give 08 00; with the table of a single leaf, ENC_BITS = SYM_LEN and E is that many zero bits. -/
def Obligations.EncodeResultProperties : Prop :=
  ∀ s t, s.params.WellFormed → s.err = false → exec .encode s = .next t → t.err = false →
    1 ≤ t.pad.toNat ∧ t.pad.toNat ≤ 8 ∧ (byteRead t 0).toNat = t.pad.toNat ∧
    8 * t.byteLen.toNat = 8 + t.encBits.toNat + t.pad.toNat ∧ t.byteLen.toNat = t.encBits.toNat / 8 + 2 ∧
    (t.byteLen.toNat = 2 ↔ t.encBits.toNat ≤ 7) ∧
    (∀ k < t.pad.toNat, (byteRead t (t.byteLen.toNat - 1)).getLsbD k = false) ∧
    (s.symLen = 0#32 → t.encBits = 0#32 ∧ t.pad = 8#4 ∧ t.byteLen = 2#32 ∧ byteRead t 0 = 0x08#8 ∧ byteRead t 1 = 0x00#8) ∧
    (∀ x, ctRead s x = { len := 1#8, code := 0#256 } → (∀ y, y ≠ x → ctRead s y = { len := 0#8, code := 0#256 }) →
      t.encBits = s.symLen ∧ inputCode s = List.replicate s.symLen.toNat false)

/-! DECODE. -/

/-- The checks before the walk, in the order of R265. BYTE_LEN > BYTE_BUF_SIZE: E_LEN_RANGE with ERR_INFO = BYTE_LEN (R231). A header
of 0 or of 9 and more: E_PAD_HDR with ERR_INFO = h (R234). A header larger than the bits after it, which is the case exactly
when BYTE_LEN = 1: E_PAD_LEN with ERR_INFO = h (R235). Each leaves the state of R241: SYM_LEN, ENC_BITS and PAD are 0, every
SYM_BUF entry is UNSPEC (the free value of a new draw, log 3), everything else is unchanged. -/
def Obligations.DecodeInputErrors : Prop :=
  ∀ s e info, let h := (byteRead s 0).toNat
    (s.params.byteBufSize < s.byteLen.toNat ∧ e = .lenRange ∧ info = s.byteLen.toNat) ∨
    (s.byteLen.toNat ≤ s.params.byteBufSize ∧ s.byteLen ≠ 0#32 ∧ (h = 0 ∨ 9 ≤ h) ∧ e = .padHdr ∧ info = h) ∨
    (s.byteLen.toNat ≤ s.params.byteBufSize ∧ s.byteLen = 1#32 ∧ 1 ≤ h ∧ h ≤ 8 ∧ e = .padLen ∧ info = h) →
    ∃ t, exec .decode s = .next t ∧ (∀ i, symRead t i = Config.freeSymbol s.draws i) ∧
      t = { s with
        symBuf := t.symBuf, draws := s.draws + 1, symLen := 0#32, encBits := 0#32, pad := 0#4, phase := .idle,
        done := true, err := true, errCode := some e, errInfo := BitVec.ofNat 32 info, irqStatus := s.irqStatus ||| 3#2 }

/-- BYTE_LEN = 0: success with SYM_LEN = 0, ENC_BITS = 0, PAD = 0; SYM_BUF is not written (R232). -/
def Obligations.DecodeOfEmptySequence : Prop :=
  ∀ s, s.byteLen = 0#32 →
    exec .decode s = .next { s with
      symLen := 0#32, encBits := 0#32, pad := 0#4, phase := .idle, done := true,
      irqStatus := s.irqStatus ||| 1#2 }

/-- DECODE (R233, R237, R240): when the greedy walk of the payload emits xs and xs fits, it completes with SYM_LEN = |xs|,
SYM_BUF[0..|xs|−1] = xs, ENC_BITS = |P|, PAD = h; SYM_BUF from |xs| on and everything else is unchanged. For every table,
prefix-free or not. -/
def Obligations.DecodeEmitsSymbols : Prop :=
  ∀ s p xs, HeaderOk s → IsPayload s p → Emits s p xs → xs.length ≤ s.params.symBufSize → ∃ t, exec .decode s = .next t ∧
    (∀ i x, xs[i]? = some x → symRead t i = x) ∧ (∀ i, xs.length ≤ i → symRead t i = symRead s i) ∧
    t = { s with
      symBuf := t.symBuf, symLen := BitVec.ofNat 32 xs.length, encBits := BitVec.ofNat 32 p.length,
      pad := BitVec.ofNat 4 (byteRead s 0).toNat, phase := .idle, done := true, irqStatus := s.irqStatus ||| 1#2 }

/-- The errors of the walk (R237 to R239, in the order of R265): after symbols that were emitted from the first |p₁| bits, the next
bits c end the accumulation. Two symbols or more match: E_TABLE_AMBIG. One matches and SYM_BUF is full: E_OUT_OVF. None matches
and c is the prefix of no code: E_DECODE_NOMATCH. The payload ends with c, live and unmatched: E_DECODE_RESIDUE. ERR_INFO is the
index of c's first bit; the state is that of R241. -/
def Obligations.DecodeWalkErrors : Prop :=
  ∀ s p₁ xs c rest e, HeaderOk s → IsPayload s (p₁ ++ c ++ rest) → Emits s p₁ xs → xs.length ≤ s.params.symBufSize → c ≠ [] →
    (ResolvesAt s c ∧ (∃ x y, x ≠ y ∧ Matches s c x ∧ Matches s c y) ∧ e = .tableAmbig) ∨
    (ResolvesAt s c ∧ (∃ x, ∀ y, Matches s c y ↔ y = x) ∧ xs.length = s.params.symBufSize ∧ e = .outOvf) ∨
    (ResolvesAt s c ∧ (∀ x, ¬ Matches s c x) ∧ ¬ Live s c ∧ e = .decodeNoMatch) ∨
    (Unresolved s c ∧ rest = [] ∧ e = .decodeResidue) →
    ∃ t, exec .decode s = .next t ∧ (∀ i, symRead t i = Config.freeSymbol s.draws i) ∧
      t = { s with
        symBuf := t.symBuf, draws := s.draws + 1, symLen := 0#32, encBits := 0#32, pad := 0#4, phase := .idle,
        done := true, err := true, errCode := some e, errInfo := BitVec.ofNat 32 p₁.length, irqStatus := s.irqStatus ||| 3#2 }

/-- DECODE does not read the stripped bits (R243): two byte sequences that differ only in the last h bits of the last byte decode
alike, BYTE_BUF apart. -/
def Obligations.DecodeIgnoresPaddingBits : Prop :=
  ∀ s t b, HeaderOk s → exec .decode s = .next t →
    (∀ j, j + 1 < s.byteLen.toNat → byteRead { s with byteBuf := b } j = byteRead s j) →
    (∀ k, (byteRead s 0).toNat ≤ k → k < 8 → (byteRead { s with byteBuf := b } (s.byteLen.toNat - 1)).getLsbD k =
      (byteRead s (s.byteLen.toNat - 1)).getLsbD k) →
    exec .decode { s with byteBuf := b } = .next { t with byteBuf := b }

/-! Round trips. -/

/-- Round trip (R242): with a prefix-free table, a DECODE that finds CT, BYTE_BUF and BYTE_LEN as a successful ENCODE left them gives
back the symbols: SYM_LEN = n, SYM_BUF[0..n−1] = x, and ENC_BITS and PAD as ENCODE left them. -/
def Obligations.DecodeInvertsEncode : Prop :=
  ∀ s t u, s.params.WellFormed → PrefixFree s → s.err = false → exec .encode s = .next t → t.err = false →
    u.ct = t.ct → u.byteBuf = t.byteBuf → u.byteLen = t.byteLen → u.params = t.params →
    ∃ v, exec .decode u = .next v ∧ v.symLen = s.symLen ∧ (∀ i < s.symLen.toNat, symRead v i = symRead s i) ∧
      v.encBits = t.encBits ∧ v.pad = t.pad ∧ v.err = u.err ∧ v.errCode = u.errCode

/-- Compress, then decompress (R242 with R292's order of use): BUILD, WALK, ENCODE and DECODE one after another, from a state whose
FREQ is non-zero at every input symbol and does not overflow, with an output that fits, end with the input symbols. -/
def Obligations.DecompressInvertsCompress : Prop :=
  ∀ s s₁ s₂ s₃, StateInv s → ¬ FreqOverflows s → s.symLen.toNat ≤ s.params.symBufSize → s.err = false →
    (∀ i < s.symLen.toNat, freqRead s (symRead s i) ≠ 0#32) →
    exec .build s = .next s₁ → exec .walk s₁ = .next s₂ → exec .encode s₂ = .next s₃ → s₃.err = false →
    ∃ s₄, exec .decode s₃ = .next s₄ ∧ s₄.err = false ∧ s₄.symLen = s.symLen ∧
      ∀ i < s.symLen.toNat, symRead s₄ i = symRead s i

/-- The code is optimal (R217(e)): BUILD, WALK and ENCODE one after another, where the counts of the input symbols are the FREQ that
BUILD read, two symbols or more, give ENC_BITS = Σ_i CT[SYM_BUF[i]].LEN, and no prefix-free code for these symbols takes fewer
bits. -/
def Obligations.EncodeIsOptimal : Prop :=
  ∀ s s₁ s₂ s₃, s.params.WellFormed → ¬ FreqOverflows s → s.err = false → 2 ≤ (leafSymbols s).length →
    (∀ x, ((List.range s.symLen.toNat).map (symRead s)).count x = (freqRead s x).toNat) →
    exec .build s = .next s₁ → exec .walk s₁ = .next s₂ → exec .encode s₂ = .next s₃ → s₃.err = false →
    s₃.encBits.toNat = ((List.range s.symLen.toNat).map fun i => (ctRead s₂ (symRead s i)).len.toNat).sum ∧
    ∀ code : Byte → List Bool, (∀ x y, x ≠ y → freqRead s x ≠ 0#32 → freqRead s y ≠ 0#32 → ¬ code x <+: code y) →
      s₃.encBits.toNat ≤ ((List.range s.symLen.toNat).map fun i => (code (symRead s i)).length).sum

/-! The whole machine. -/

/-- Every step keeps the invariant, from every state that meets it. -/
def Obligations.StepKeepsInvariant : Prop := ∀ s t, StateInv s → step s = .next t → StateInv t

/-- No step stops the machine (R260, R270; 93_implementation_defined.md section 4): from a state that meets the invariant every step
answers a next state, so the model's one fault (log 6) is never raised. The constants of the configuration stay (R290, R21). -/
def Obligations.StepNeverStops : Prop := ∀ s, StateInv s → ∃ t, step s = .next t ∧ t.params = s.params

/-- No command reads or writes IRQ_EN, CT_SEL or NODE_SEL (R104): with other values there it does the same, those values kept. -/
def Obligations.CommandsIgnoreHostRegisters : Prop :=
  ∀ i s t, exec i s = .next t →
    (t.irqEn = s.irqEn ∧ t.ctSel = s.ctSel ∧ t.nodeSel = s.nodeSel) ∧
    ∀ a b c, exec i { s with irqEn := a, ctSel := b, nodeSel := c } = .next { t with irqEn := a, ctSel := b, nodeSel := c }

/-- TREE_VALID changes only by a BUILD or by reset (R27), and only a BUILD writes the arena and the tree registers (R43): another
command and every bus transaction leave them; so do FREQ writes. -/
def Obligations.OnlyBuildChangesTree : Prop :=
  (∀ i s t, i ≠ .build → exec i s = .next t →
    t.treeValid = s.treeValid ∧ t.node = s.node ∧ t.nleaf = s.nleaf ∧ t.nnode = s.nnode ∧ t.root = s.root) ∧
  ∀ (x : Transaction) s, let t := (busAccess x s).1
    t.treeValid = s.treeValid ∧ t.node = s.node ∧ t.nleaf = s.nleaf ∧ t.nnode = s.nnode ∧ t.root = s.root

/-- Only CLEAR_FREQ, host writes and reset change FREQ (R40), and only WALK, CLEAR_TABLE, host writes and reset change CT (R42, R295). -/
def Obligations.CommandsLeaveTablesTheyDoNotWrite : Prop :=
  (∀ i s t, i ≠ .clearFreq → exec i s = .next t → t.freq = s.freq) ∧
  (∀ i s t, i ≠ .walk → i ≠ .clearTable → exec i s = .next t → t.ct = s.ct) ∧
  (∀ i s t, i ≠ .decode → exec i s = .next t → t.symBuf = s.symBuf ∧ t.symLen = s.symLen) ∧
  (∀ i s t, i ≠ .encode → exec i s = .next t → t.byteBuf = s.byteBuf ∧ t.byteLen = s.byteLen)

/-- The pending bits (R266). Every completion, an illegal word's among them, sets DONE_IP, and sets ERR_IP if it is an error, else
leaves it. Over every step: a bit is set by the engine's completion step alone, ERR_IP by one that records an error; a bit is
cleared by reset, which clears both, or by a bus transaction that is a write to IRQ_STATUS with a 1 there, and by nothing else,
so accepting a command clears none. (The queue that says whose step it is is the model's own, log 1.) -/
def Obligations.PendingBitsSetOnlyByCompletion : Prop :=
  (∀ s w t, s.phase = .busy w → s.err = false → engineStep s = .next t → doneIp t = true ∧ errIp t = (errIp s || t.err)) ∧
  (∀ i s t, s.err = false → exec i s = .next t → doneIp t = true ∧ errIp t = (errIp s || t.err)) ∧
  (∀ s rest, s.events = .reset :: rest → ∃ t, step s = .next t ∧ doneIp t = false ∧ errIp t = false) ∧
  (∀ s t, step s = .next t →
    (doneIp s = false → doneIp t = true → (∃ w, s.phase = .busy w) ∧ t.phase = .idle ∧ t.done = true) ∧
    (errIp s = false → errIp t = true → (∃ w, s.phase = .busy w) ∧ t.phase = .idle ∧ t.err = true) ∧
    (doneIp s = true → doneIp t = false → (∃ rest, s.events = .reset :: rest) ∨
      ∃ (x : Transaction) (v : Word) (rest : List Event), s.events = .bus x :: rest ∧ x.offset = 0x0001C#18 ∧
        x.kind = .write v ∧ v.getLsbD 0 = true) ∧
    (errIp s = true → errIp t = false → (∃ rest, s.events = .reset :: rest) ∨
      ∃ (x : Transaction) (v : Word) (rest : List Event), s.events = .bus x :: rest ∧ x.offset = 0x0001C#18 ∧
        x.kind = .write v ∧ v.getLsbD 1 = true)) ∧
  (∀ (x : Transaction) s, let t := (busAccess x s).1
    (doneIp t = true → doneIp s = true) ∧ (errIp t = true → errIp s = true) ∧
    (doneIp s = true → doneIp t = false → x.offset = 0x0001C#18 ∧ ∃ v, x.kind = .write v ∧ v.getLsbD 0 = true) ∧
    (errIp s = true → errIp t = false → x.offset = 0x0001C#18 ∧ ∃ v, x.kind = .write v ∧ v.getLsbD 1 = true))

/-- The error record stays until the next command is accepted (R262): a bus transaction changes DONE, ERR, ERR_CODE, ERR_INFO or
LAST_OP only if it is a write to CMD accepted while IDLE. -/
def Obligations.ErrorRecordStaysUntilNextCommand : Prop :=
  ∀ (x : Transaction) s, let t := (busAccess x s).1
    (t.done = s.done ∧ t.err = s.err ∧ t.errCode = s.errCode ∧ t.errInfo = s.errInfo ∧ t.lastOp = s.lastOp ∧ t.phase = s.phase) ∨
    (s.phase = .idle ∧ x.offset = 0x00010#18 ∧ ∃ w, x.kind = .write w ∧ t.phase = .busy w)

/-- While a command is pending, no host transaction changes an operand, a result or the command (R80, R86, R89): whatever the host
issues, only IRQ_EN, IRQ_STATUS and the responses differ afterwards. -/
def Obligations.HostCannotDisturbPendingCommand : Prop :=
  ∀ (xs : List Transaction) s w, s.phase = .busy w → s.events = xs.map .bus → ∃ t, core.run xs.length s = .next t ∧
    t = { s with irqEn := t.irqEn, irqStatus := t.irqStatus, responses := t.responses, events := [] } ∧
    t.responses.length = s.responses.length + xs.length

/-- Fairness (R298; the queue is the model's own, log 1, log 8): a pending command completes after the finitely many host
transactions still queued, and no later. -/
def Obligations.PendingCommandCompletes : Prop :=
  ∀ (xs : List Transaction) s w, StateInv s → s.phase = .busy w → s.events = xs.map .bus →
    (∃ u, core.run xs.length s = .next u ∧ u.phase = .busy w) ∧
    ∃ t, core.run (xs.length + 1) s = .next t ∧ t.phase = .idle ∧ t.done = true

/-- A host write to IRQ_STATUS and the completion that sets the bit, in both orders (R269): write first, the bit ends set;
completion first, the write clears it. Both are runs of the model. -/
def Obligations.AcknowledgeRacesCompletion : Prop :=
  ∀ s w rest (v : Word), StateInv s → s.phase = .busy w → v.getLsbD 0 = true →
    (∃ t, core.run 2 { s with events := .bus (writeAt 0x0001C v) :: .engine :: rest } = .next t ∧ doneIp t = true) ∧
    (∃ t, core.run 2 { s with events := .engine :: .bus (writeAt 0x0001C v) :: rest } = .next t ∧ doneIp t = false)

/-! Host scripts. -/

/-- The `ct s, n, v` pseudo-instruction (R121), issued while IDLE, leaves CT[x] = {n, v} and CT_SEL = x, and nothing else of HTB
changed. It is ten writes; those of CT_CODEk that the script leaves out, with their word 0, are not issued, and the same is left
if these words of CT[x].CODE are already 0 (log 10). -/
def Obligations.CtPseudoLoadsEntry : Prop :=
  ∀ s x n v (leftOut : List (Fin 8)), s.phase = .idle →
    (∀ k ∈ leftOut, v.extractLsb' (32 * k.val) 32 = 0#32 → (ctRead s x).code.extractLsb' (32 * k.val) 32 = 0#32) →
    let ts := transactionsOf (Stmt.ct x n v leftOut).expand []
    (leftOut = [] → ts.length = 10) ∧
    (∀ k ∈ leftOut, v.extractLsb' (32 * k.val) 32 = 0#32 → ∀ t ∈ ts, t.offset.toNat ≠ 0x00048 + 4 * k.val) ∧
    (s.events = ts.map .bus → ∃ t, core.run ts.length s = .next t ∧
      ctRead t x = { len := n, code := v } ∧ (∀ y, y ≠ x → ctRead t y = ctRead s y) ∧
      t = { s with ct := t.ct, ctSel := x, responses := t.responses, events := [] })

/-- The run of a host script (R122, R299, with the assertions of R120). Its meaning is the sequence of its transactions, with engine
steps and resets between them: from a machine with nothing queued, any turns of it are the steps of the core over a queue of
events (log 1); once the script has issued its last transaction, the transactions of that queue are those of the script, for some
number of polls of each `wait` (log 10); its read responses are the responses to the reads among them. A run has a result exactly
when nothing is left to issue and PHASE = IDLE. A failed assertion stays failed; `=> v` holds exactly when rdata = v, `=> ERR`
exactly when resp = ERR. A `wait` (R121) while a command is pending, in a state that meets the invariant, polls as long as the
engine does not move; the first poll after the engine's turn ends it, with the command completed (R298). -/
def Obligations.ScriptRunsOnTheMachine : Prop :=
  (∀ turns r u, r.machine.events = [] → ScriptRun.play turns r = .next u → ∃ (es : List Event) (rs : List Response),
    let ts := busTransactions es
    core.run es.length { r.machine with events := es } = .next u.machine ∧
    u.machine.responses = r.machine.responses ++ rs ∧ rs.length = ts.length ∧
    u.reads = r.reads ++ (ts.zip rs).filterMap (fun p => if p.1.kind = .read then some p.2 else none) ∧
    (u.todo = [] → ∃ polls, ts = transactionsOf r.todo polls) ∧
    (u.result.isSome = true ↔ u.todo = [] ∧ u.machine.phase = .idle) ∧ (r.failed = true → u.failed = true)) ∧
  (∀ (r : ScriptRun) p v as, r.failed = false →
    (r.todo = (Stmt.rdValue p v).expand ++ as → (r.issue.failed = false ↔ (busAccess (readFrom p) r.machine).2.rdata = v)) ∧
    (r.todo = (Stmt.rdErr p).expand ++ as → (r.issue.failed = false ↔ (busAccess (readFrom p) r.machine).2.resp = .err)) ∧
    (r.todo = (Stmt.wrErr p v).expand ++ as → (r.issue.failed = false ↔ (busAccess (writeTo p v) r.machine).2.resp = .err))) ∧
  (∀ r as w n, StateInv r.machine → r.machine.phase = .busy w → r.todo = .wait :: as →
    (∃ u, ScriptRun.play (List.replicate n .host) r = .next u ∧ u.todo = .wait :: as ∧ u.machine.phase = .busy w) ∧
    ∃ u, ScriptRun.play (List.replicate n .host ++ [.engine, .host]) r = .next u ∧ u.todo = as ∧ u.machine.phase = .idle ∧
      u.machine.done = true ∧ u.failed = r.failed)
end

