-- ==== Sys2Proof/Laws/Memory.lean ====
section
/-! SUPPORT. The laws of the local memories as data: read after write, and that every operation keeps the canonical form. -/

namespace Sys2Proof.Machine

variable {α : Type}

/-! Reading after listing, removing, writing. -/

@[simp] theorem Memory.lookup_insert_same (i : Nat) (v : α) (m : Memory α) : (m.insert i v).lookup i = some v := by
  induction m with
  | nil => simp [Memory.insert, Memory.lookup]
  | cons c m ih =>
    obtain ⟨j, w⟩ := c
    simp only [Memory.insert]
    split
    · simp [Memory.lookup]
    · split
      · simp [Memory.lookup]
      · rename_i h1 h2
        simp [Memory.lookup, Ne.symm h2, ih]

theorem Memory.lookup_insert_other {i k : Nat} (h : k ≠ i) (v : α) (m : Memory α) :
    (m.insert i v).lookup k = m.lookup k := by
  induction m with
  | nil => simp [Memory.insert, Memory.lookup, Ne.symm h]
  | cons c m ih =>
    obtain ⟨j, w⟩ := c
    simp only [Memory.insert]
    split
    · simp [Memory.lookup, Ne.symm h]
    · split
      · rename_i h1 h2
        subst h2
        simp [Memory.lookup, Ne.symm h]
      · simp only [Memory.lookup, ih]

theorem Memory.lookup_insert (i k : Nat) (v : α) (m : Memory α) :
    (m.insert i v).lookup k = if k = i then some v else m.lookup k := by
  split
  · next h => rw [h, Memory.lookup_insert_same]
  · next h => exact Memory.lookup_insert_other h v m

theorem Memory.lookup_erase (i k : Nat) (m : Memory α) :
    (m.erase i).lookup k = if k = i then none else m.lookup k := by
  unfold Memory.erase
  induction m with
  | nil => simp [Memory.lookup]
  | cons c m ih =>
    obtain ⟨j, w⟩ := c
    rw [List.filter_cons]
    by_cases hj : j = i
    · subst hj
      rw [if_neg (by simp), ih]
      by_cases hk : k = j
      · simp [hk]
      · simp [hk, Memory.lookup, Ne.symm hk]
    · rw [if_pos (by simpa using hj)]
      simp only [Memory.lookup, ih]
      by_cases hk : k = i
      · subst hk; simp [hj]
      · simp [hk]

@[simp] theorem Memory.read_nil (d : α) (i : Nat) : Memory.read d ([] : Memory α) i = d := rfl

theorem Memory.read_insert (d : α) (i k : Nat) (v : α) (m : Memory α) :
    Memory.read d (m.insert i v) k = if k = i then v else Memory.read d m k := by
  simp only [Memory.read, Memory.lookup_insert]
  split <;> rfl

theorem Memory.read_write [DecidableEq α] (d : α) (i k : Nat) (v : α) (m : Memory α) :
    Memory.read d (m.write d i v) k = if k = i then v else Memory.read d m k := by
  unfold Memory.write
  split
  · next h =>
    simp only [Memory.read, Memory.lookup_erase]
    split
    · simp [h]
    · rfl
  · exact Memory.read_insert d i k v m

/-- What `insertAll` lists: the values at the indices from `i` on, and what was listed elsewhere. -/
theorem Memory.lookup_insertAll (vs : List α) (i k : Nat) (m : Memory α) :
    (m.insertAll i vs).lookup k = if i ≤ k ∧ k < i + vs.length then vs[k - i]? else m.lookup k := by
  induction vs generalizing i m with
  | nil => simp [Memory.insertAll]
  | cons v vs ih =>
    simp only [Memory.insertAll, ih, Memory.lookup_insert, List.length_cons]
    by_cases hk : k = i
    · subst hk; simp
    · by_cases h1 : i + 1 ≤ k ∧ k < i + 1 + vs.length
      · have h2 : i ≤ k ∧ k < i + (vs.length + 1) := by omega
        have h3 : k - i = (k - (i + 1)) + 1 := by omega
        simp [h1, h2, h3]
      · have h2 : ¬ (i ≤ k ∧ k < i + (vs.length + 1)) := by omega
        rw [if_neg h1, if_neg h2, if_neg hk]

theorem Memory.read_insertAll (d : α) (vs : List α) (i k : Nat) (m : Memory α) :
    Memory.read d (m.insertAll i vs) k =
      if i ≤ k ∧ k < i + vs.length then vs.getD (k - i) d else Memory.read d m k := by
  simp only [Memory.read, Memory.lookup_insertAll]
  split <;> simp [List.getD_eq_getElem?_getD]

/-! The canonical form. -/

theorem Memory.wf_iff (dropped : α → Bool) (bound : Nat) (m : Memory α) :
    m.wf dropped bound = true ↔
      (m.map Prod.fst).Pairwise (· < ·) ∧ ∀ c ∈ m, c.1 < bound ∧ dropped c.2 = false := by
  simp [Memory.wf, List.all_eq_true]

@[simp] theorem Memory.wf_nil (dropped : α → Bool) (bound : Nat) : Memory.wf dropped bound ([] : Memory α) = true := rfl

theorem Memory.mem_insert {i : Nat} {v : α} {m : Memory α} {c : Nat × α} (h : c ∈ m.insert i v) :
    c = (i, v) ∨ c ∈ m := by
  induction m with
  | nil => simpa [Memory.insert] using h
  | cons d m ih =>
    obtain ⟨j, w⟩ := d
    simp only [Memory.insert] at h
    split at h
    · simpa using h
    · split at h
      · rcases List.mem_cons.mp h with h | h
        · exact .inl h
        · exact .inr (List.mem_cons_of_mem _ h)
      · rcases List.mem_cons.mp h with h | h
        · exact .inr (by simp [h])
        · exact (ih h).imp id (List.mem_cons_of_mem _)

theorem Memory.sorted_insert (i : Nat) (v : α) (m : Memory α) (h : (m.map Prod.fst).Pairwise (· < ·)) :
    ((m.insert i v).map Prod.fst).Pairwise (· < ·) := by
  induction m with
  | nil => simp [Memory.insert]
  | cons d m ih =>
    obtain ⟨j, w⟩ := d
    simp only [List.map_cons, List.pairwise_cons] at h
    simp only [Memory.insert]
    split
    · next hij =>
      simp only [List.map_cons, List.pairwise_cons]
      refine ⟨?_, h.1, h.2⟩
      intro b hb
      rcases List.mem_cons.mp hb with hb | hb
      · exact hb ▸ hij
      · exact Nat.lt_trans hij (h.1 b hb)
    · split
      · next hij =>
        simp only [List.map_cons, List.pairwise_cons]
        exact ⟨fun b hb => hij ▸ h.1 b hb, h.2⟩
      · next h1 h2 =>
        simp only [List.map_cons, List.pairwise_cons]
        refine ⟨?_, ih h.2⟩
        intro b hb
        obtain ⟨c, hc, rfl⟩ := List.mem_map.mp hb
        rcases Memory.mem_insert hc with hc | hc
        · simp only [hc]; omega
        · exact h.1 _ (List.mem_map_of_mem hc)

/-- Listing an entry below the bound that is not dropped keeps the canonical form. -/
theorem Memory.wf_insert {dropped : α → Bool} {bound i : Nat} {v : α} {m : Memory α} (hi : i < bound)
    (hv : dropped v = false) (h : m.wf dropped bound = true) : (m.insert i v).wf dropped bound = true := by
  rw [Memory.wf_iff] at h ⊢
  refine ⟨Memory.sorted_insert i v m h.1, fun c hc => ?_⟩
  rcases Memory.mem_insert hc with hc | hc
  · simp [hc, hi, hv]
  · exact h.2 c hc

/-- Removing an entry keeps the canonical form. -/
theorem Memory.wf_erase {dropped : α → Bool} {bound : Nat} (i : Nat) {m : Memory α} (h : m.wf dropped bound = true) :
    (m.erase i).wf dropped bound = true := by
  rw [Memory.wf_iff] at h ⊢
  refine ⟨(h.1.sublist ((List.filter_sublist).map Prod.fst)), fun c hc => h.2 c (List.mem_of_mem_filter hc)⟩

/-- Writing keeps the canonical form of a memory whose unlisted entries read `d`. -/
theorem Memory.wf_write [DecidableEq α] {d : α} {bound i : Nat} {v : α} {m : Memory α} (hi : i < bound)
    (h : m.wf (fun w => decide (w = d)) bound = true) : (m.write d i v).wf (fun w => decide (w = d)) bound = true := by
  unfold Memory.write
  split
  · exact Memory.wf_erase i h
  · next hv => exact Memory.wf_insert hi (by simpa using hv) h

/-- Listing values below the bound keeps the canonical form of a memory that drops nothing. -/
theorem Memory.wf_insertAll {bound i : Nat} {vs : List α} {m : Memory α} (hi : i + vs.length ≤ bound)
    (h : m.wf (fun _ => false) bound = true) : (m.insertAll i vs).wf (fun _ => false) bound = true := by
  induction vs generalizing i m with
  | nil => exact h
  | cons v vs ih =>
    simp only [List.length_cons] at hi
    exact ih (by omega) (Memory.wf_insert (by omega) rfl h)

end Sys2Proof.Machine
end

