-- ==== Sys2Proof/Laws/Bits.lean ====
section
/-! SUPPORT. Bit strings: their lengths, their bits, and that reading a string as a number and writing it again agree. -/

namespace Sys2Proof.Machine

/-! `bits_n(v)` and `val(s)`. -/

@[simp] theorem length_bitsOf (n v : Nat) : (bitsOf n v).length = n := by
  induction n with
  | zero => rfl
  | succ n ih => simp [bitsOf, ih]

/-- Bit k of `bits_n(v)` is v[n−1−k]. -/
theorem getElem?_bitsOf {n k : Nat} (v : Nat) (h : k < n) : (bitsOf n v)[k]? = some (v.testBit (n - 1 - k)) := by
  induction n generalizing k with
  | zero => omega
  | succ n ih =>
    cases k with
    | zero => simp [bitsOf]
    | succ k =>
      have : n + 1 - 1 - (k + 1) = n - 1 - k := by omega
      simp only [bitsOf, List.getElem?_cons_succ, this]
      exact ih (by omega)

theorem valOf_append (s t : List Bool) : valOf (s ++ t) = valOf s * 2 ^ t.length + valOf t := by
  induction t using List.reverseRecOn generalizing s with
  | nil => simp [valOf]
  | append_singleton t b ih =>
    have h1 : ∀ u : List Bool, valOf (u ++ [b]) = 2 * valOf u + b.toNat := by
      intro u; simp [valOf, List.foldl_append]
    rw [← List.append_assoc, h1, h1, ih, List.length_append, List.length_singleton, Nat.pow_succ]
    ring

@[simp] theorem valOf_nil : valOf [] = 0 := rfl

theorem valOf_cons (b : Bool) (s : List Bool) : valOf (b :: s) = b.toNat * 2 ^ s.length + valOf s := by
  have := valOf_append [b] s
  simpa [valOf] using this

theorem valOf_lt (s : List Bool) : valOf s < 2 ^ s.length := by
  induction s with
  | nil => simp [valOf]
  | cons b s ih =>
    rw [valOf_cons, List.length_cons, Nat.pow_succ]
    have : b.toNat ≤ 1 := Bool.toNat_le b
    nlinarith [Nat.two_pow_pos s.length]

/-- A bit of `val(s)` is the bit of `s` counted from the end. -/
theorem testBit_valOf {s : List Bool} {k : Nat} (h : k < s.length) : (valOf s).testBit (s.length - 1 - k) = s[k] := by
  induction s generalizing k with
  | nil => simp at h
  | cons b s ih =>
    have hlt := valOf_lt s
    rw [valOf_cons]
    cases k with
    | zero =>
      simp only [List.length_cons, Nat.add_sub_cancel, Nat.sub_zero, List.getElem_cons_zero]
      cases b
      · simpa using Nat.testBit_lt_two_pow hlt
      · simp only [Bool.toNat_true, Nat.one_mul]
        rw [Nat.testBit_two_pow_add_eq, Nat.testBit_lt_two_pow hlt]; rfl
    | succ k =>
      simp only [List.length_cons, List.getElem_cons_succ] at h ⊢
      have hk : k < s.length := by omega
      have e : s.length + 1 - 1 - (k + 1) = s.length - 1 - k := by omega
      rw [e, ← ih hk]
      cases b
      · simp
      · simp only [Bool.toNat_true, Nat.one_mul]
        rw [Nat.testBit_two_pow_add_gt (by omega)]

/-- Writing `val(s)` in as many bits as `s` has gives `s`. -/
theorem bitsOf_valOf (s : List Bool) : bitsOf s.length (valOf s) = s := by
  apply List.ext_getElem?
  intro k
  by_cases h : k < s.length
  · rw [getElem?_bitsOf _ h, testBit_valOf h, List.getElem?_eq_getElem h]
  · rw [List.getElem?_eq_none (by simp; omega), List.getElem?_eq_none (by omega)]

theorem valOf_bitsOf (n v : Nat) : valOf (bitsOf n v) = v % 2 ^ n := by
  induction n with
  | zero => simp [bitsOf, valOf, Nat.mod_one]
  | succ n ih =>
    rw [bitsOf, valOf_cons, length_bitsOf, ih, Nat.testBit_eq_decide_div_mod_eq, Nat.pow_succ, Nat.mod_mul]
    rcases Nat.mod_two_eq_zero_or_one (v / 2 ^ n) with h | h <;> simp [h]; ring

theorem bitsOf_mod (n v : Nat) : bitsOf n (v % 2 ^ n) = bitsOf n v := by
  have h := bitsOf_valOf (bitsOf n v)
  rwa [valOf_bitsOf, length_bitsOf] at h

/-! Codes. -/

@[simp] theorem length_codeBits (e : CtEntry) : (codeBits e).length = e.len.toNat := length_bitsOf _ _

@[simp] theorem length_codeOf (s : State) (x : Byte) : (codeOf s x).length = (ctRead s x).len.toNat := length_codeBits _

theorem codeOf_ne_nil {s : State} {x : Byte} (h : (ctRead s x).len ≠ 0#8) : codeOf s x ≠ [] := by
  intro hc
  have := congrArg List.length hc
  rw [length_codeOf, List.length_nil] at this
  exact h (by simpa [← BitVec.toNat_inj] using this)

/-- The code of an entry that holds a path: the path (42_code_table.md R195). -/
theorem codeBits_of_path {p : List Bool} (h : p.length ≤ 255) :
    codeBits { len := BitVec.ofNat 8 p.length, code := BitVec.ofNat 256 (valOf p) } = p := by
  have hl : p.length % 2 ^ 8 = p.length := Nat.mod_eq_of_lt (by omega)
  have hv : valOf p % 2 ^ 256 = valOf p :=
    Nat.mod_eq_of_lt (Nat.lt_of_lt_of_le (valOf_lt p) (Nat.pow_le_pow_right (by decide) (by omega)))
  simp only [codeBits, BitVec.toNat_ofNat, hl, hv, bitsOf_valOf]

/-! Bytes. -/

@[simp] theorem length_byteBits (b : Byte) : (byteBits b).length = 8 := length_bitsOf _ _

/-- Stream bit k of a byte is its bit 7−k (20_memory.md R84). -/
theorem getElem?_byteBits (b : Byte) {k : Nat} (h : k < 8) : (byteBits b)[k]? = some (b.getLsbD (7 - k)) := by
  have : 8 - 1 - k = 7 - k := by omega
  rw [byteBits, getElem?_bitsOf _ h, this]
  rfl

@[simp] theorem length_bytesOf (n : Nat) (s : List Bool) : (bytesOf n s).length = n := by
  induction n generalizing s with
  | zero => rfl
  | succ n ih => simp [bytesOf, ih]

theorem getElem?_bytesOf {n j : Nat} (s : List Bool) (h : j < n) :
    (bytesOf n s)[j]? = some (BitVec.ofNat 8 (valOf ((s.drop (8 * j)).take 8))) := by
  induction n generalizing s j with
  | zero => omega
  | succ n ih =>
    cases j with
    | zero => simp [bytesOf]
    | succ j =>
      have hj : j < n := by omega
      rw [bytesOf, List.getElem?_cons_succ, ih (s.drop 8) hj, List.drop_drop, show 8 + 8 * j = 8 * (j + 1) by ring]

/-- The bits of eight stream bits packed into a byte (20_memory.md R84). -/
theorem byteBits_of_eight {u : List Bool} (h : u.length = 8) : byteBits (BitVec.ofNat 8 (valOf u)) = u := by
  have hb := bitsOf_valOf u
  rw [h] at hb
  rw [byteBits, BitVec.toNat_ofNat, bitsOf_mod, hb]

/-- Bit 7−k of byte j is stream bit 8j+k (20_memory.md R84, 30_encoding.md R110). -/
theorem getLsbD_bytesOf {n j k : Nat} {s : List Bool} (hs : 8 * n ≤ s.length) (hj : j < n) (hk : k < 8) :
    ((bytesOf n s).getD j 0#8).getLsbD (7 - k) = s.getD (8 * j + k) false := by
  have hu : ((s.drop (8 * j)).take 8).length = 8 := by simp; omega
  have h1 := getElem?_byteBits (BitVec.ofNat 8 (valOf ((s.drop (8 * j)).take 8))) hk
  rw [byteBits_of_eight hu, List.getElem?_take_of_lt hk, List.getElem?_drop] at h1
  rw [List.getD_eq_getElem?_getD, getElem?_bytesOf s hj, List.getD_eq_getElem?_getD, h1]
  rfl

/-! The packed stream. -/

theorem padOf_pos (l : Nat) : 1 ≤ padOf l := by unfold padOf; omega

theorem padOf_le (l : Nat) : padOf l ≤ 8 := by unfold padOf; omega

/-- |S| is a multiple of 8: floor(L/8) + 2 bytes (30_encoding.md R110). -/
theorem length_packedStream (e : List Bool) : (packedStream e).length = 8 * (e.length / 8 + 2) := by
  simp only [packedStream, List.length_append, length_bitsOf, List.length_replicate, padOf]
  omega

end Sys2Proof.Machine
end

