-- ==== Sys2Proof/Laws/Queue.lean ====
section
/-! SUPPORT. The priority-queue arbiter: what one and two `extract_min` give (41_tree_builder.md R160 to R163). -/

namespace Sys2Proof.Machine

/-- The key order is irreflexive and transitive, and two different keys are ordered one way (41_tree_builder.md R161). -/
theorem Key.before_iff (a b : Key) :
    a.before b = true ↔ a.freq < b.freq ∨ (a.freq = b.freq ∧ a.index < b.index) := by
  simp [Key.before]

theorem Key.before_trans {a b c : Key} (h₁ : a.before b = true) (h₂ : b.before c = true) : a.before c = true := by
  rw [Key.before_iff] at *; omega

theorem Key.eq_or_before_of_not {a b : Key} (h : ¬ a.before b = true) : b = a ∨ b.before a = true := by
  rw [Key.before_iff] at *
  by_cases hf : a.freq = b.freq
  · by_cases hi : a.index = b.index
    · left; cases a; cases b; simp_all
    · right; omega
  · right; omega

/-- `extract_min` takes one key out and keeps the others (41_tree_builder.md R162). -/
theorem extractMin_perm (k : Key) (ks : List Key) : ((extractMin k ks).1 :: (extractMin k ks).2).Perm (k :: ks) := by
  induction ks generalizing k with
  | nil => exact List.Perm.refl _
  | cons x xs ih =>
    simp only [extractMin]
    split
    · exact (List.Perm.swap _ _ _).trans (((ih k).cons x).trans (List.Perm.swap _ _ _))
    · exact (List.Perm.swap _ _ _).trans ((ih x).cons k)

/-- The key it takes is the least (41_tree_builder.md R162). -/
theorem extractMin_least (k : Key) (ks : List Key) :
    ∀ x ∈ k :: ks, x = (extractMin k ks).1 ∨ (extractMin k ks).1.before x = true := by
  induction ks generalizing k with
  | nil => intro x hx; exact .inl (by simpa [extractMin] using hx)
  | cons y ys ih =>
    intro x hx
    simp only [extractMin]
    split
    · next hky =>
      have hk := ih k
      rcases List.mem_cons.mp hx with rfl | hx
      · exact hk _ (by simp)
      · rcases List.mem_cons.mp hx with rfl | hx
        · rcases hk k (by simp) with h | h
          · exact .inr (h ▸ hky)
          · exact .inr (Key.before_trans h hky)
        · exact hk x (List.mem_cons_of_mem _ hx)
    · next hky =>
      have hy := ih y
      rcases List.mem_cons.mp hx with rfl | hx
      · rcases Key.eq_or_before_of_not hky with h | h
        · exact h ▸ hy y (by simp)
        · rcases hy y (by simp) with h' | h'
          · exact .inr (h' ▸ h)
          · exact .inr (Key.before_trans h' h)
      · exact hy x hx

@[simp] theorem length_extractMin (k : Key) (ks : List Key) : (extractMin k ks).2.length = ks.length := by
  simpa using (extractMin_perm k ks).length_eq

/-- The two extractions of a merge stop only on a queue of at most one (41_tree_builder.md R167: "While PQ.count > 1"). -/
theorem extractTwo_eq_none {q : List Key} : extractTwo q = none ↔ q.length ≤ 1 := by
  cases q with
  | nil => simp [extractTwo]
  | cons k ks =>
    have h := length_extractMin k ks
    simp only [extractTwo]
    split
    · next h' => rw [h'] at h; simp at h; simp [← h]
    · next h' => rw [h', List.length_cons] at h; simp [← h]

/-- The two extractions of a merge take the two least keys, in order, and keep the others (41_tree_builder.md R162, R167). -/
theorem extractTwo_eq_some {q rest : List Key} {a c : Key} (h : extractTwo q = some (a, c, rest)) :
    (a :: c :: rest).Perm q ∧ (c = a ∨ a.before c = true) ∧ ∀ x ∈ rest, x = c ∨ c.before x = true := by
  cases q with
  | nil => simp [extractTwo] at h
  | cons k ks =>
    simp only [extractTwo] at h
    have hp := extractMin_perm k ks
    have hl := extractMin_least k ks
    split at h
    · simp at h
    · next x xs h' =>
      simp only [Option.some.injEq, Prod.mk.injEq] at h
      obtain ⟨rfl, rfl, rfl⟩ := h
      rw [h'] at hp
      have hp2 := extractMin_perm x xs
      have hl2 := extractMin_least x xs
      refine ⟨(hp2.cons _).trans hp, ?_, ?_⟩
      · exact hl _ (hp.mem_iff.mp (List.mem_cons_of_mem _ (hp2.mem_iff.mp (by simp))))
      · intro y hy
        exact hl2 y (hp2.mem_iff.mp (List.mem_cons_of_mem _ hy))

end Sys2Proof.Machine
end

