-- ==== Sys2Proof/Laws/State.lean ====
section
/-! SUPPORT. What each named update of the state leaves in each field, by rfl: no later proof unfolds a record update. -/

namespace Sys2Proof.Machine

/-! accept -/

@[simp] theorem accept_phase (w : Word) (s : State) : (accept w s).phase = .busy w := rfl
@[simp] theorem accept_done (w : Word) (s : State) : (accept w s).done = false := rfl
@[simp] theorem accept_err (w : Word) (s : State) : (accept w s).err = false := rfl
@[simp] theorem accept_treeValid (w : Word) (s : State) : (accept w s).treeValid = s.treeValid := rfl
@[simp] theorem accept_lastOp (w : Word) (s : State) : (accept w s).lastOp = opField w := rfl
@[simp] theorem accept_errCode (w : Word) (s : State) : (accept w s).errCode = none := rfl
@[simp] theorem accept_irqEn (w : Word) (s : State) : (accept w s).irqEn = s.irqEn := rfl
@[simp] theorem accept_irqStatus (w : Word) (s : State) : (accept w s).irqStatus = s.irqStatus := rfl
@[simp] theorem accept_errInfo (w : Word) (s : State) : (accept w s).errInfo = 0#32 := rfl
@[simp] theorem accept_symLen (w : Word) (s : State) : (accept w s).symLen = s.symLen := rfl
@[simp] theorem accept_byteLen (w : Word) (s : State) : (accept w s).byteLen = s.byteLen := rfl
@[simp] theorem accept_encBits (w : Word) (s : State) : (accept w s).encBits = s.encBits := rfl
@[simp] theorem accept_pad (w : Word) (s : State) : (accept w s).pad = s.pad := rfl
@[simp] theorem accept_nleaf (w : Word) (s : State) : (accept w s).nleaf = s.nleaf := rfl
@[simp] theorem accept_nnode (w : Word) (s : State) : (accept w s).nnode = s.nnode := rfl
@[simp] theorem accept_root (w : Word) (s : State) : (accept w s).root = s.root := rfl
@[simp] theorem accept_ctSel (w : Word) (s : State) : (accept w s).ctSel = s.ctSel := rfl
@[simp] theorem accept_nodeSel (w : Word) (s : State) : (accept w s).nodeSel = s.nodeSel := rfl
@[simp] theorem accept_freq (w : Word) (s : State) : (accept w s).freq = s.freq := rfl
@[simp] theorem accept_ct (w : Word) (s : State) : (accept w s).ct = s.ct := rfl
@[simp] theorem accept_node (w : Word) (s : State) : (accept w s).node = s.node := rfl
@[simp] theorem accept_symBuf (w : Word) (s : State) : (accept w s).symBuf = s.symBuf := rfl
@[simp] theorem accept_byteBuf (w : Word) (s : State) : (accept w s).byteBuf = s.byteBuf := rfl
@[simp] theorem accept_params (w : Word) (s : State) : (accept w s).params = s.params := rfl
@[simp] theorem accept_events (w : Word) (s : State) : (accept w s).events = s.events := rfl
@[simp] theorem accept_responses (w : Word) (s : State) : (accept w s).responses = s.responses := rfl
@[simp] theorem accept_draws (w : Word) (s : State) : (accept w s).draws = s.draws := rfl

/-! complete -/

@[simp] theorem complete_phase (s : State) : (complete s).phase = .idle := rfl
@[simp] theorem complete_done (s : State) : (complete s).done = true := rfl
@[simp] theorem complete_err (s : State) : (complete s).err = s.err := rfl
@[simp] theorem complete_treeValid (s : State) : (complete s).treeValid = s.treeValid := rfl
@[simp] theorem complete_lastOp (s : State) : (complete s).lastOp = s.lastOp := rfl
@[simp] theorem complete_errCode (s : State) : (complete s).errCode = s.errCode := rfl
@[simp] theorem complete_irqEn (s : State) : (complete s).irqEn = s.irqEn := rfl
@[simp] theorem complete_irqStatus (s : State) : (complete s).irqStatus = s.irqStatus ||| 1#2 := rfl
@[simp] theorem complete_errInfo (s : State) : (complete s).errInfo = s.errInfo := rfl
@[simp] theorem complete_symLen (s : State) : (complete s).symLen = s.symLen := rfl
@[simp] theorem complete_byteLen (s : State) : (complete s).byteLen = s.byteLen := rfl
@[simp] theorem complete_encBits (s : State) : (complete s).encBits = s.encBits := rfl
@[simp] theorem complete_pad (s : State) : (complete s).pad = s.pad := rfl
@[simp] theorem complete_nleaf (s : State) : (complete s).nleaf = s.nleaf := rfl
@[simp] theorem complete_nnode (s : State) : (complete s).nnode = s.nnode := rfl
@[simp] theorem complete_root (s : State) : (complete s).root = s.root := rfl
@[simp] theorem complete_ctSel (s : State) : (complete s).ctSel = s.ctSel := rfl
@[simp] theorem complete_nodeSel (s : State) : (complete s).nodeSel = s.nodeSel := rfl
@[simp] theorem complete_freq (s : State) : (complete s).freq = s.freq := rfl
@[simp] theorem complete_ct (s : State) : (complete s).ct = s.ct := rfl
@[simp] theorem complete_node (s : State) : (complete s).node = s.node := rfl
@[simp] theorem complete_symBuf (s : State) : (complete s).symBuf = s.symBuf := rfl
@[simp] theorem complete_byteBuf (s : State) : (complete s).byteBuf = s.byteBuf := rfl
@[simp] theorem complete_params (s : State) : (complete s).params = s.params := rfl
@[simp] theorem complete_events (s : State) : (complete s).events = s.events := rfl
@[simp] theorem complete_responses (s : State) : (complete s).responses = s.responses := rfl
@[simp] theorem complete_draws (s : State) : (complete s).draws = s.draws := rfl

/-! completeErr -/

@[simp] theorem completeErr_phase (e : CmdError) (v : Word) (s : State) : (completeErr e v s).phase = .idle := rfl
@[simp] theorem completeErr_done (e : CmdError) (v : Word) (s : State) : (completeErr e v s).done = true := rfl
@[simp] theorem completeErr_err (e : CmdError) (v : Word) (s : State) : (completeErr e v s).err = true := rfl
@[simp] theorem completeErr_treeValid (e : CmdError) (v : Word) (s : State) : (completeErr e v s).treeValid = s.treeValid := rfl
@[simp] theorem completeErr_lastOp (e : CmdError) (v : Word) (s : State) : (completeErr e v s).lastOp = s.lastOp := rfl
@[simp] theorem completeErr_errCode (e : CmdError) (v : Word) (s : State) : (completeErr e v s).errCode = some e := rfl
@[simp] theorem completeErr_irqEn (e : CmdError) (v : Word) (s : State) : (completeErr e v s).irqEn = s.irqEn := rfl
@[simp] theorem completeErr_irqStatus (e : CmdError) (v : Word) (s : State) : (completeErr e v s).irqStatus = s.irqStatus ||| 3#2 := rfl
@[simp] theorem completeErr_errInfo (e : CmdError) (v : Word) (s : State) : (completeErr e v s).errInfo = v := rfl
@[simp] theorem completeErr_symLen (e : CmdError) (v : Word) (s : State) : (completeErr e v s).symLen = s.symLen := rfl
@[simp] theorem completeErr_byteLen (e : CmdError) (v : Word) (s : State) : (completeErr e v s).byteLen = s.byteLen := rfl
@[simp] theorem completeErr_encBits (e : CmdError) (v : Word) (s : State) : (completeErr e v s).encBits = s.encBits := rfl
@[simp] theorem completeErr_pad (e : CmdError) (v : Word) (s : State) : (completeErr e v s).pad = s.pad := rfl
@[simp] theorem completeErr_nleaf (e : CmdError) (v : Word) (s : State) : (completeErr e v s).nleaf = s.nleaf := rfl
@[simp] theorem completeErr_nnode (e : CmdError) (v : Word) (s : State) : (completeErr e v s).nnode = s.nnode := rfl
@[simp] theorem completeErr_root (e : CmdError) (v : Word) (s : State) : (completeErr e v s).root = s.root := rfl
@[simp] theorem completeErr_ctSel (e : CmdError) (v : Word) (s : State) : (completeErr e v s).ctSel = s.ctSel := rfl
@[simp] theorem completeErr_nodeSel (e : CmdError) (v : Word) (s : State) : (completeErr e v s).nodeSel = s.nodeSel := rfl
@[simp] theorem completeErr_freq (e : CmdError) (v : Word) (s : State) : (completeErr e v s).freq = s.freq := rfl
@[simp] theorem completeErr_ct (e : CmdError) (v : Word) (s : State) : (completeErr e v s).ct = s.ct := rfl
@[simp] theorem completeErr_node (e : CmdError) (v : Word) (s : State) : (completeErr e v s).node = s.node := rfl
@[simp] theorem completeErr_symBuf (e : CmdError) (v : Word) (s : State) : (completeErr e v s).symBuf = s.symBuf := rfl
@[simp] theorem completeErr_byteBuf (e : CmdError) (v : Word) (s : State) : (completeErr e v s).byteBuf = s.byteBuf := rfl
@[simp] theorem completeErr_params (e : CmdError) (v : Word) (s : State) : (completeErr e v s).params = s.params := rfl
@[simp] theorem completeErr_events (e : CmdError) (v : Word) (s : State) : (completeErr e v s).events = s.events := rfl
@[simp] theorem completeErr_responses (e : CmdError) (v : Word) (s : State) : (completeErr e v s).responses = s.responses := rfl
@[simp] theorem completeErr_draws (e : CmdError) (v : Word) (s : State) : (completeErr e v s).draws = s.draws := rfl

/-! freqWrite -/

@[simp] theorem freqWrite_phase (x : Byte) (v : Word) (s : State) : (freqWrite x v s).phase = s.phase := rfl
@[simp] theorem freqWrite_done (x : Byte) (v : Word) (s : State) : (freqWrite x v s).done = s.done := rfl
@[simp] theorem freqWrite_err (x : Byte) (v : Word) (s : State) : (freqWrite x v s).err = s.err := rfl
@[simp] theorem freqWrite_treeValid (x : Byte) (v : Word) (s : State) : (freqWrite x v s).treeValid = s.treeValid := rfl
@[simp] theorem freqWrite_lastOp (x : Byte) (v : Word) (s : State) : (freqWrite x v s).lastOp = s.lastOp := rfl
@[simp] theorem freqWrite_errCode (x : Byte) (v : Word) (s : State) : (freqWrite x v s).errCode = s.errCode := rfl
@[simp] theorem freqWrite_irqEn (x : Byte) (v : Word) (s : State) : (freqWrite x v s).irqEn = s.irqEn := rfl
@[simp] theorem freqWrite_irqStatus (x : Byte) (v : Word) (s : State) : (freqWrite x v s).irqStatus = s.irqStatus := rfl
@[simp] theorem freqWrite_errInfo (x : Byte) (v : Word) (s : State) : (freqWrite x v s).errInfo = s.errInfo := rfl
@[simp] theorem freqWrite_symLen (x : Byte) (v : Word) (s : State) : (freqWrite x v s).symLen = s.symLen := rfl
@[simp] theorem freqWrite_byteLen (x : Byte) (v : Word) (s : State) : (freqWrite x v s).byteLen = s.byteLen := rfl
@[simp] theorem freqWrite_encBits (x : Byte) (v : Word) (s : State) : (freqWrite x v s).encBits = s.encBits := rfl
@[simp] theorem freqWrite_pad (x : Byte) (v : Word) (s : State) : (freqWrite x v s).pad = s.pad := rfl
@[simp] theorem freqWrite_nleaf (x : Byte) (v : Word) (s : State) : (freqWrite x v s).nleaf = s.nleaf := rfl
@[simp] theorem freqWrite_nnode (x : Byte) (v : Word) (s : State) : (freqWrite x v s).nnode = s.nnode := rfl
@[simp] theorem freqWrite_root (x : Byte) (v : Word) (s : State) : (freqWrite x v s).root = s.root := rfl
@[simp] theorem freqWrite_ctSel (x : Byte) (v : Word) (s : State) : (freqWrite x v s).ctSel = s.ctSel := rfl
@[simp] theorem freqWrite_nodeSel (x : Byte) (v : Word) (s : State) : (freqWrite x v s).nodeSel = s.nodeSel := rfl
@[simp] theorem freqWrite_freq (x : Byte) (v : Word) (s : State) : (freqWrite x v s).freq = s.freq.write 0#32 x.toNat v := rfl
@[simp] theorem freqWrite_ct (x : Byte) (v : Word) (s : State) : (freqWrite x v s).ct = s.ct := rfl
@[simp] theorem freqWrite_node (x : Byte) (v : Word) (s : State) : (freqWrite x v s).node = s.node := rfl
@[simp] theorem freqWrite_symBuf (x : Byte) (v : Word) (s : State) : (freqWrite x v s).symBuf = s.symBuf := rfl
@[simp] theorem freqWrite_byteBuf (x : Byte) (v : Word) (s : State) : (freqWrite x v s).byteBuf = s.byteBuf := rfl
@[simp] theorem freqWrite_params (x : Byte) (v : Word) (s : State) : (freqWrite x v s).params = s.params := rfl
@[simp] theorem freqWrite_events (x : Byte) (v : Word) (s : State) : (freqWrite x v s).events = s.events := rfl
@[simp] theorem freqWrite_responses (x : Byte) (v : Word) (s : State) : (freqWrite x v s).responses = s.responses := rfl
@[simp] theorem freqWrite_draws (x : Byte) (v : Word) (s : State) : (freqWrite x v s).draws = s.draws := rfl

/-! ctWrite -/

@[simp] theorem ctWrite_phase (x : Byte) (e : CtEntry) (s : State) : (ctWrite x e s).phase = s.phase := rfl
@[simp] theorem ctWrite_done (x : Byte) (e : CtEntry) (s : State) : (ctWrite x e s).done = s.done := rfl
@[simp] theorem ctWrite_err (x : Byte) (e : CtEntry) (s : State) : (ctWrite x e s).err = s.err := rfl
@[simp] theorem ctWrite_treeValid (x : Byte) (e : CtEntry) (s : State) : (ctWrite x e s).treeValid = s.treeValid := rfl
@[simp] theorem ctWrite_lastOp (x : Byte) (e : CtEntry) (s : State) : (ctWrite x e s).lastOp = s.lastOp := rfl
@[simp] theorem ctWrite_errCode (x : Byte) (e : CtEntry) (s : State) : (ctWrite x e s).errCode = s.errCode := rfl
@[simp] theorem ctWrite_irqEn (x : Byte) (e : CtEntry) (s : State) : (ctWrite x e s).irqEn = s.irqEn := rfl
@[simp] theorem ctWrite_irqStatus (x : Byte) (e : CtEntry) (s : State) : (ctWrite x e s).irqStatus = s.irqStatus := rfl
@[simp] theorem ctWrite_errInfo (x : Byte) (e : CtEntry) (s : State) : (ctWrite x e s).errInfo = s.errInfo := rfl
@[simp] theorem ctWrite_symLen (x : Byte) (e : CtEntry) (s : State) : (ctWrite x e s).symLen = s.symLen := rfl
@[simp] theorem ctWrite_byteLen (x : Byte) (e : CtEntry) (s : State) : (ctWrite x e s).byteLen = s.byteLen := rfl
@[simp] theorem ctWrite_encBits (x : Byte) (e : CtEntry) (s : State) : (ctWrite x e s).encBits = s.encBits := rfl
@[simp] theorem ctWrite_pad (x : Byte) (e : CtEntry) (s : State) : (ctWrite x e s).pad = s.pad := rfl
@[simp] theorem ctWrite_nleaf (x : Byte) (e : CtEntry) (s : State) : (ctWrite x e s).nleaf = s.nleaf := rfl
@[simp] theorem ctWrite_nnode (x : Byte) (e : CtEntry) (s : State) : (ctWrite x e s).nnode = s.nnode := rfl
@[simp] theorem ctWrite_root (x : Byte) (e : CtEntry) (s : State) : (ctWrite x e s).root = s.root := rfl
@[simp] theorem ctWrite_ctSel (x : Byte) (e : CtEntry) (s : State) : (ctWrite x e s).ctSel = s.ctSel := rfl
@[simp] theorem ctWrite_nodeSel (x : Byte) (e : CtEntry) (s : State) : (ctWrite x e s).nodeSel = s.nodeSel := rfl
@[simp] theorem ctWrite_freq (x : Byte) (e : CtEntry) (s : State) : (ctWrite x e s).freq = s.freq := rfl
@[simp] theorem ctWrite_ct (x : Byte) (e : CtEntry) (s : State) : (ctWrite x e s).ct = ctPut x e s.ct := rfl
@[simp] theorem ctWrite_node (x : Byte) (e : CtEntry) (s : State) : (ctWrite x e s).node = s.node := rfl
@[simp] theorem ctWrite_symBuf (x : Byte) (e : CtEntry) (s : State) : (ctWrite x e s).symBuf = s.symBuf := rfl
@[simp] theorem ctWrite_byteBuf (x : Byte) (e : CtEntry) (s : State) : (ctWrite x e s).byteBuf = s.byteBuf := rfl
@[simp] theorem ctWrite_params (x : Byte) (e : CtEntry) (s : State) : (ctWrite x e s).params = s.params := rfl
@[simp] theorem ctWrite_events (x : Byte) (e : CtEntry) (s : State) : (ctWrite x e s).events = s.events := rfl
@[simp] theorem ctWrite_responses (x : Byte) (e : CtEntry) (s : State) : (ctWrite x e s).responses = s.responses := rfl
@[simp] theorem ctWrite_draws (x : Byte) (e : CtEntry) (s : State) : (ctWrite x e s).draws = s.draws := rfl

/-! symWriteAll -/

@[simp] theorem symWriteAll_phase (i : Nat) (vs : List Byte) (s : State) : (symWriteAll i vs s).phase = s.phase := rfl
@[simp] theorem symWriteAll_done (i : Nat) (vs : List Byte) (s : State) : (symWriteAll i vs s).done = s.done := rfl
@[simp] theorem symWriteAll_err (i : Nat) (vs : List Byte) (s : State) : (symWriteAll i vs s).err = s.err := rfl
@[simp] theorem symWriteAll_treeValid (i : Nat) (vs : List Byte) (s : State) : (symWriteAll i vs s).treeValid = s.treeValid := rfl
@[simp] theorem symWriteAll_lastOp (i : Nat) (vs : List Byte) (s : State) : (symWriteAll i vs s).lastOp = s.lastOp := rfl
@[simp] theorem symWriteAll_errCode (i : Nat) (vs : List Byte) (s : State) : (symWriteAll i vs s).errCode = s.errCode := rfl
@[simp] theorem symWriteAll_irqEn (i : Nat) (vs : List Byte) (s : State) : (symWriteAll i vs s).irqEn = s.irqEn := rfl
@[simp] theorem symWriteAll_irqStatus (i : Nat) (vs : List Byte) (s : State) : (symWriteAll i vs s).irqStatus = s.irqStatus := rfl
@[simp] theorem symWriteAll_errInfo (i : Nat) (vs : List Byte) (s : State) : (symWriteAll i vs s).errInfo = s.errInfo := rfl
@[simp] theorem symWriteAll_symLen (i : Nat) (vs : List Byte) (s : State) : (symWriteAll i vs s).symLen = s.symLen := rfl
@[simp] theorem symWriteAll_byteLen (i : Nat) (vs : List Byte) (s : State) : (symWriteAll i vs s).byteLen = s.byteLen := rfl
@[simp] theorem symWriteAll_encBits (i : Nat) (vs : List Byte) (s : State) : (symWriteAll i vs s).encBits = s.encBits := rfl
@[simp] theorem symWriteAll_pad (i : Nat) (vs : List Byte) (s : State) : (symWriteAll i vs s).pad = s.pad := rfl
@[simp] theorem symWriteAll_nleaf (i : Nat) (vs : List Byte) (s : State) : (symWriteAll i vs s).nleaf = s.nleaf := rfl
@[simp] theorem symWriteAll_nnode (i : Nat) (vs : List Byte) (s : State) : (symWriteAll i vs s).nnode = s.nnode := rfl
@[simp] theorem symWriteAll_root (i : Nat) (vs : List Byte) (s : State) : (symWriteAll i vs s).root = s.root := rfl
@[simp] theorem symWriteAll_ctSel (i : Nat) (vs : List Byte) (s : State) : (symWriteAll i vs s).ctSel = s.ctSel := rfl
@[simp] theorem symWriteAll_nodeSel (i : Nat) (vs : List Byte) (s : State) : (symWriteAll i vs s).nodeSel = s.nodeSel := rfl
@[simp] theorem symWriteAll_freq (i : Nat) (vs : List Byte) (s : State) : (symWriteAll i vs s).freq = s.freq := rfl
@[simp] theorem symWriteAll_ct (i : Nat) (vs : List Byte) (s : State) : (symWriteAll i vs s).ct = s.ct := rfl
@[simp] theorem symWriteAll_node (i : Nat) (vs : List Byte) (s : State) : (symWriteAll i vs s).node = s.node := rfl
@[simp] theorem symWriteAll_symBuf (i : Nat) (vs : List Byte) (s : State) : (symWriteAll i vs s).symBuf = { s.symBuf with cells := s.symBuf.cells.insertAll i vs } := rfl
@[simp] theorem symWriteAll_byteBuf (i : Nat) (vs : List Byte) (s : State) : (symWriteAll i vs s).byteBuf = s.byteBuf := rfl
@[simp] theorem symWriteAll_params (i : Nat) (vs : List Byte) (s : State) : (symWriteAll i vs s).params = s.params := rfl
@[simp] theorem symWriteAll_events (i : Nat) (vs : List Byte) (s : State) : (symWriteAll i vs s).events = s.events := rfl
@[simp] theorem symWriteAll_responses (i : Nat) (vs : List Byte) (s : State) : (symWriteAll i vs s).responses = s.responses := rfl
@[simp] theorem symWriteAll_draws (i : Nat) (vs : List Byte) (s : State) : (symWriteAll i vs s).draws = s.draws := rfl

/-! byteWriteAll -/

@[simp] theorem byteWriteAll_phase (i : Nat) (vs : List Byte) (s : State) : (byteWriteAll i vs s).phase = s.phase := rfl
@[simp] theorem byteWriteAll_done (i : Nat) (vs : List Byte) (s : State) : (byteWriteAll i vs s).done = s.done := rfl
@[simp] theorem byteWriteAll_err (i : Nat) (vs : List Byte) (s : State) : (byteWriteAll i vs s).err = s.err := rfl
@[simp] theorem byteWriteAll_treeValid (i : Nat) (vs : List Byte) (s : State) : (byteWriteAll i vs s).treeValid = s.treeValid := rfl
@[simp] theorem byteWriteAll_lastOp (i : Nat) (vs : List Byte) (s : State) : (byteWriteAll i vs s).lastOp = s.lastOp := rfl
@[simp] theorem byteWriteAll_errCode (i : Nat) (vs : List Byte) (s : State) : (byteWriteAll i vs s).errCode = s.errCode := rfl
@[simp] theorem byteWriteAll_irqEn (i : Nat) (vs : List Byte) (s : State) : (byteWriteAll i vs s).irqEn = s.irqEn := rfl
@[simp] theorem byteWriteAll_irqStatus (i : Nat) (vs : List Byte) (s : State) : (byteWriteAll i vs s).irqStatus = s.irqStatus := rfl
@[simp] theorem byteWriteAll_errInfo (i : Nat) (vs : List Byte) (s : State) : (byteWriteAll i vs s).errInfo = s.errInfo := rfl
@[simp] theorem byteWriteAll_symLen (i : Nat) (vs : List Byte) (s : State) : (byteWriteAll i vs s).symLen = s.symLen := rfl
@[simp] theorem byteWriteAll_byteLen (i : Nat) (vs : List Byte) (s : State) : (byteWriteAll i vs s).byteLen = s.byteLen := rfl
@[simp] theorem byteWriteAll_encBits (i : Nat) (vs : List Byte) (s : State) : (byteWriteAll i vs s).encBits = s.encBits := rfl
@[simp] theorem byteWriteAll_pad (i : Nat) (vs : List Byte) (s : State) : (byteWriteAll i vs s).pad = s.pad := rfl
@[simp] theorem byteWriteAll_nleaf (i : Nat) (vs : List Byte) (s : State) : (byteWriteAll i vs s).nleaf = s.nleaf := rfl
@[simp] theorem byteWriteAll_nnode (i : Nat) (vs : List Byte) (s : State) : (byteWriteAll i vs s).nnode = s.nnode := rfl
@[simp] theorem byteWriteAll_root (i : Nat) (vs : List Byte) (s : State) : (byteWriteAll i vs s).root = s.root := rfl
@[simp] theorem byteWriteAll_ctSel (i : Nat) (vs : List Byte) (s : State) : (byteWriteAll i vs s).ctSel = s.ctSel := rfl
@[simp] theorem byteWriteAll_nodeSel (i : Nat) (vs : List Byte) (s : State) : (byteWriteAll i vs s).nodeSel = s.nodeSel := rfl
@[simp] theorem byteWriteAll_freq (i : Nat) (vs : List Byte) (s : State) : (byteWriteAll i vs s).freq = s.freq := rfl
@[simp] theorem byteWriteAll_ct (i : Nat) (vs : List Byte) (s : State) : (byteWriteAll i vs s).ct = s.ct := rfl
@[simp] theorem byteWriteAll_node (i : Nat) (vs : List Byte) (s : State) : (byteWriteAll i vs s).node = s.node := rfl
@[simp] theorem byteWriteAll_symBuf (i : Nat) (vs : List Byte) (s : State) : (byteWriteAll i vs s).symBuf = s.symBuf := rfl
@[simp] theorem byteWriteAll_byteBuf (i : Nat) (vs : List Byte) (s : State) : (byteWriteAll i vs s).byteBuf = { s.byteBuf with cells := s.byteBuf.cells.insertAll i vs } := rfl
@[simp] theorem byteWriteAll_params (i : Nat) (vs : List Byte) (s : State) : (byteWriteAll i vs s).params = s.params := rfl
@[simp] theorem byteWriteAll_events (i : Nat) (vs : List Byte) (s : State) : (byteWriteAll i vs s).events = s.events := rfl
@[simp] theorem byteWriteAll_responses (i : Nat) (vs : List Byte) (s : State) : (byteWriteAll i vs s).responses = s.responses := rfl
@[simp] theorem byteWriteAll_draws (i : Nat) (vs : List Byte) (s : State) : (byteWriteAll i vs s).draws = s.draws := rfl

/-! failEncode -/

@[simp] theorem failEncode_phase (s : State) : (failEncode s).phase = s.phase := rfl
@[simp] theorem failEncode_done (s : State) : (failEncode s).done = s.done := rfl
@[simp] theorem failEncode_err (s : State) : (failEncode s).err = s.err := rfl
@[simp] theorem failEncode_treeValid (s : State) : (failEncode s).treeValid = s.treeValid := rfl
@[simp] theorem failEncode_lastOp (s : State) : (failEncode s).lastOp = s.lastOp := rfl
@[simp] theorem failEncode_errCode (s : State) : (failEncode s).errCode = s.errCode := rfl
@[simp] theorem failEncode_irqEn (s : State) : (failEncode s).irqEn = s.irqEn := rfl
@[simp] theorem failEncode_irqStatus (s : State) : (failEncode s).irqStatus = s.irqStatus := rfl
@[simp] theorem failEncode_errInfo (s : State) : (failEncode s).errInfo = s.errInfo := rfl
@[simp] theorem failEncode_symLen (s : State) : (failEncode s).symLen = s.symLen := rfl
@[simp] theorem failEncode_byteLen (s : State) : (failEncode s).byteLen = 0#32 := rfl
@[simp] theorem failEncode_encBits (s : State) : (failEncode s).encBits = 0#32 := rfl
@[simp] theorem failEncode_pad (s : State) : (failEncode s).pad = 0#4 := rfl
@[simp] theorem failEncode_nleaf (s : State) : (failEncode s).nleaf = s.nleaf := rfl
@[simp] theorem failEncode_nnode (s : State) : (failEncode s).nnode = s.nnode := rfl
@[simp] theorem failEncode_root (s : State) : (failEncode s).root = s.root := rfl
@[simp] theorem failEncode_ctSel (s : State) : (failEncode s).ctSel = s.ctSel := rfl
@[simp] theorem failEncode_nodeSel (s : State) : (failEncode s).nodeSel = s.nodeSel := rfl
@[simp] theorem failEncode_freq (s : State) : (failEncode s).freq = s.freq := rfl
@[simp] theorem failEncode_ct (s : State) : (failEncode s).ct = s.ct := rfl
@[simp] theorem failEncode_node (s : State) : (failEncode s).node = s.node := rfl
@[simp] theorem failEncode_symBuf (s : State) : (failEncode s).symBuf = s.symBuf := rfl
@[simp] theorem failEncode_byteBuf (s : State) : (failEncode s).byteBuf = { draw := s.draws, cells := [] } := rfl
@[simp] theorem failEncode_params (s : State) : (failEncode s).params = s.params := rfl
@[simp] theorem failEncode_events (s : State) : (failEncode s).events = s.events := rfl
@[simp] theorem failEncode_responses (s : State) : (failEncode s).responses = s.responses := rfl
@[simp] theorem failEncode_draws (s : State) : (failEncode s).draws = s.draws + 1 := rfl

/-! failDecode -/

@[simp] theorem failDecode_phase (s : State) : (failDecode s).phase = s.phase := rfl
@[simp] theorem failDecode_done (s : State) : (failDecode s).done = s.done := rfl
@[simp] theorem failDecode_err (s : State) : (failDecode s).err = s.err := rfl
@[simp] theorem failDecode_treeValid (s : State) : (failDecode s).treeValid = s.treeValid := rfl
@[simp] theorem failDecode_lastOp (s : State) : (failDecode s).lastOp = s.lastOp := rfl
@[simp] theorem failDecode_errCode (s : State) : (failDecode s).errCode = s.errCode := rfl
@[simp] theorem failDecode_irqEn (s : State) : (failDecode s).irqEn = s.irqEn := rfl
@[simp] theorem failDecode_irqStatus (s : State) : (failDecode s).irqStatus = s.irqStatus := rfl
@[simp] theorem failDecode_errInfo (s : State) : (failDecode s).errInfo = s.errInfo := rfl
@[simp] theorem failDecode_symLen (s : State) : (failDecode s).symLen = 0#32 := rfl
@[simp] theorem failDecode_byteLen (s : State) : (failDecode s).byteLen = s.byteLen := rfl
@[simp] theorem failDecode_encBits (s : State) : (failDecode s).encBits = 0#32 := rfl
@[simp] theorem failDecode_pad (s : State) : (failDecode s).pad = 0#4 := rfl
@[simp] theorem failDecode_nleaf (s : State) : (failDecode s).nleaf = s.nleaf := rfl
@[simp] theorem failDecode_nnode (s : State) : (failDecode s).nnode = s.nnode := rfl
@[simp] theorem failDecode_root (s : State) : (failDecode s).root = s.root := rfl
@[simp] theorem failDecode_ctSel (s : State) : (failDecode s).ctSel = s.ctSel := rfl
@[simp] theorem failDecode_nodeSel (s : State) : (failDecode s).nodeSel = s.nodeSel := rfl
@[simp] theorem failDecode_freq (s : State) : (failDecode s).freq = s.freq := rfl
@[simp] theorem failDecode_ct (s : State) : (failDecode s).ct = s.ct := rfl
@[simp] theorem failDecode_node (s : State) : (failDecode s).node = s.node := rfl
@[simp] theorem failDecode_symBuf (s : State) : (failDecode s).symBuf = { draw := s.draws, cells := [] } := rfl
@[simp] theorem failDecode_byteBuf (s : State) : (failDecode s).byteBuf = s.byteBuf := rfl
@[simp] theorem failDecode_params (s : State) : (failDecode s).params = s.params := rfl
@[simp] theorem failDecode_events (s : State) : (failDecode s).events = s.events := rfl
@[simp] theorem failDecode_responses (s : State) : (failDecode s).responses = s.responses := rfl
@[simp] theorem failDecode_draws (s : State) : (failDecode s).draws = s.draws + 1 := rfl

/-! resetEvent -/

@[simp] theorem resetEvent_phase (s : State) : (resetEvent s).phase = .idle := rfl
@[simp] theorem resetEvent_done (s : State) : (resetEvent s).done = false := rfl
@[simp] theorem resetEvent_err (s : State) : (resetEvent s).err = false := rfl
@[simp] theorem resetEvent_treeValid (s : State) : (resetEvent s).treeValid = false := rfl
@[simp] theorem resetEvent_lastOp (s : State) : (resetEvent s).lastOp = 0#4 := rfl
@[simp] theorem resetEvent_errCode (s : State) : (resetEvent s).errCode = none := rfl
@[simp] theorem resetEvent_irqEn (s : State) : (resetEvent s).irqEn = 0#2 := rfl
@[simp] theorem resetEvent_irqStatus (s : State) : (resetEvent s).irqStatus = 0#2 := rfl
@[simp] theorem resetEvent_errInfo (s : State) : (resetEvent s).errInfo = 0#32 := rfl
@[simp] theorem resetEvent_symLen (s : State) : (resetEvent s).symLen = 0#32 := rfl
@[simp] theorem resetEvent_byteLen (s : State) : (resetEvent s).byteLen = 0#32 := rfl
@[simp] theorem resetEvent_encBits (s : State) : (resetEvent s).encBits = 0#32 := rfl
@[simp] theorem resetEvent_pad (s : State) : (resetEvent s).pad = 0#4 := rfl
@[simp] theorem resetEvent_nleaf (s : State) : (resetEvent s).nleaf = 0#9 := rfl
@[simp] theorem resetEvent_nnode (s : State) : (resetEvent s).nnode = 0#9 := rfl
@[simp] theorem resetEvent_root (s : State) : (resetEvent s).root = noneIndex := rfl
@[simp] theorem resetEvent_ctSel (s : State) : (resetEvent s).ctSel = 0#8 := rfl
@[simp] theorem resetEvent_nodeSel (s : State) : (resetEvent s).nodeSel = 0#9 := rfl
@[simp] theorem resetEvent_freq (s : State) : (resetEvent s).freq = [] := rfl
@[simp] theorem resetEvent_ct (s : State) : (resetEvent s).ct = [] := rfl
@[simp] theorem resetEvent_node (s : State) : (resetEvent s).node = { draw := s.draws, cells := [] } := rfl
@[simp] theorem resetEvent_symBuf (s : State) : (resetEvent s).symBuf = { draw := s.draws, cells := [] } := rfl
@[simp] theorem resetEvent_byteBuf (s : State) : (resetEvent s).byteBuf = { draw := s.draws, cells := [] } := rfl
@[simp] theorem resetEvent_params (s : State) : (resetEvent s).params = s.params := rfl
@[simp] theorem resetEvent_events (s : State) : (resetEvent s).events = s.events := rfl
@[simp] theorem resetEvent_responses (s : State) : (resetEvent s).responses = s.responses := rfl
@[simp] theorem resetEvent_draws (s : State) : (resetEvent s).draws = s.draws + 1 := rfl

end Sys2Proof.Machine
end

