-- ==== Sys2Proof/Laws/Ops.lean ====
section
/-! SUPPORT. What each operation over HTB's memories does to what is read, once, and that it keeps the memories canonical. -/

namespace Sys2Proof.Machine

theorem toNat_inj_byte {x y : Byte} : x.toNat = y.toNat ↔ x = y := BitVec.toNat_inj

/-! FREQ. -/

theorem freqRead_freqWrite (x y : Byte) (v : Word) (s : State) :
    freqRead (freqWrite x v s) y = if y = x then v else freqRead s y := by
  simp only [freqRead, freqWrite, Memory.read_write, toNat_inj_byte]

/-! CT. -/

theorem read_ctPut (x y : Byte) (e : CtEntry) (m : Memory CtEntry) :
    Memory.read .absent (ctPut x e m) y.toNat = if y = x then e else Memory.read .absent m y.toNat := by
  simp only [ctPut, Memory.read_write, toNat_inj_byte]

theorem ctRead_ctWrite (x y : Byte) (e : CtEntry) (s : State) :
    ctRead (ctWrite x e s) y = if y = x then e else ctRead s y := read_ctPut x y e s.ct

/-- What is read of CT depends on CT alone. -/
theorem ctRead_congr {s t : State} (h : s.ct = t.ct) (x : Byte) : ctRead s x = ctRead t x := by
  simp only [ctRead, h]

theorem codeOf_congr {s t : State} (h : s.ct = t.ct) (x : Byte) : codeOf s x = codeOf t x := by
  simp only [codeOf, ctRead_congr h]

/-! NODE. -/

/-- What is read of NODE depends on the arena alone. -/
theorem nodeRead_congr {s t : State} (h : s.node = t.node) (i : Nat) : nodeRead s i = nodeRead t i := by
  simp only [nodeRead, h]

/-! SYM_BUF and BYTE_BUF. -/

theorem symRead_congr {s t : State} (h : s.symBuf = t.symBuf) (i : Nat) : symRead s i = symRead t i := by
  simp only [symRead, h]

theorem byteRead_congr {s t : State} (h : s.byteBuf = t.byteBuf) (j : Nat) : byteRead s j = byteRead t j := by
  simp only [byteRead, h]

theorem symRead_symWriteAll (i k : Nat) (vs : List Byte) (s : State) :
    symRead (symWriteAll i vs s) k = if i ≤ k ∧ k < i + vs.length then vs.getD (k - i) 0#8 else symRead s k := by
  simp only [symRead, symWriteAll_symBuf, Memory.read_insertAll]
  split
  · next h =>
    have : k - i < vs.length := by omega
    simp [List.getD_eq_getElem?_getD, List.getElem?_eq_getElem this]
  · rfl

theorem byteRead_byteWriteAll (j k : Nat) (vs : List Byte) (s : State) :
    byteRead (byteWriteAll j vs s) k = if j ≤ k ∧ k < j + vs.length then vs.getD (k - j) 0#8 else byteRead s k := by
  simp only [byteRead, byteWriteAll_byteBuf, Memory.read_insertAll]
  split
  · next h =>
    have : k - j < vs.length := by omega
    simp [List.getD_eq_getElem?_getD, List.getElem?_eq_getElem this]
  · rfl

/-- After a failed ENCODE every BYTE_BUF entry is a free value of the new draw (43_bit_packer.md R216). -/
theorem byteRead_failEncode (s : State) (j : Nat) : byteRead (failEncode s) j = Config.freeByte s.draws j := rfl

/-- After a failed DECODE every SYM_BUF entry is a free value of the new draw (44_decoder.md R241). -/
theorem symRead_failDecode (s : State) (i : Nat) : symRead (failDecode s) i = Config.freeSymbol s.draws i := rfl

/-! The canonical form of all memories (log 4). -/

theorem MemoriesCanonical.congr {s t : State} (h : MemoriesCanonical s) (hf : t.freq = s.freq) (hc : t.ct = s.ct)
    (hn : t.node = s.node) (hs : t.symBuf = s.symBuf) (hb : t.byteBuf = s.byteBuf) (hp : t.params = s.params) :
    MemoriesCanonical t := by
  simpa only [MemoriesCanonical, hf, hc, hn, hs, hb, hp] using h

theorem memoriesCanonical_resetWith (p : Params) : MemoriesCanonical (State.resetWith p) := by
  simp [MemoriesCanonical, State.resetWith]

theorem wf_ctPut {x : Byte} {e : CtEntry} {m : Memory CtEntry} (h : m.wf (fun e => decide (e = .absent)) 256 = true) :
    (ctPut x e m).wf (fun e => decide (e = .absent)) 256 = true :=
  Memory.wf_write (by have := x.isLt; omega) h

theorem memoriesCanonical_freqWrite {s : State} (h : MemoriesCanonical s) (x : Byte) (v : Word) :
    MemoriesCanonical (freqWrite x v s) :=
  ⟨Memory.wf_write (by have := x.isLt; omega) h.1, h.2⟩

theorem memoriesCanonical_ctWrite {s : State} (h : MemoriesCanonical s) (x : Byte) (e : CtEntry) :
    MemoriesCanonical (ctWrite x e s) :=
  ⟨h.1, wf_ctPut h.2.1, h.2.2⟩

theorem memoriesCanonical_symWriteAll {s : State} (h : MemoriesCanonical s) {i : Nat} {vs : List Byte}
    (hi : i + vs.length ≤ s.params.symBufSize) : MemoriesCanonical (symWriteAll i vs s) :=
  ⟨h.1, h.2.1, h.2.2.1, Memory.wf_insertAll hi h.2.2.2.1, h.2.2.2.2⟩

theorem memoriesCanonical_byteWriteAll {s : State} (h : MemoriesCanonical s) {j : Nat} {vs : List Byte}
    (hj : j + vs.length ≤ s.params.byteBufSize) : MemoriesCanonical (byteWriteAll j vs s) :=
  ⟨h.1, h.2.1, h.2.2.1, h.2.2.2.1, Memory.wf_insertAll hj h.2.2.2.2⟩

theorem memoriesCanonical_failEncode {s : State} (h : MemoriesCanonical s) : MemoriesCanonical (failEncode s) :=
  ⟨h.1, h.2.1, h.2.2.1, h.2.2.2.1, Memory.wf_nil _ _⟩

theorem memoriesCanonical_failDecode {s : State} (h : MemoriesCanonical s) : MemoriesCanonical (failDecode s) :=
  ⟨h.1, h.2.1, h.2.2.1, Memory.wf_nil _ _, h.2.2.2.2⟩

theorem memoriesCanonical_resetEvent (s : State) : MemoriesCanonical (resetEvent s) := by
  simp [MemoriesCanonical, resetEvent, State.resetWith]

end Sys2Proof.Machine
end

