-- ==== Sys2Proof/Laws/Tree.lean ====
section
/-! SUPPORT. The tree in the arena: what it depends on, its leaves and its paths. -/

namespace Sys2Proof.Machine

/-- What tree stands at an index depends on the arena alone. -/
theorem represents_congr {s t : State} (h : s.node = t.node) (tr : Tree) : ∀ i, Represents s i tr ↔ Represents t i tr := by
  induction tr with
  | leaf x f => intro i; simp only [Represents, nodeRead_congr h]
  | node l r ihl ihr => intro i; simp only [Represents, nodeRead_congr h, ihl, ihr]

/-- A valid tree depends on the arena and the tree registers alone. -/
theorem ArenaHoldsTree.congr {s t : State} (h : ArenaHoldsTree s) (hn : s.node = t.node) (hl : s.nleaf = t.nleaf)
    (hc : s.nnode = t.nnode) (hr : s.root = t.root) : ArenaHoldsTree t := by
  simpa only [ArenaHoldsTree, represents_congr hn, hn, hl, hc, hr] using h

/-- Where a path leads depends on the arena alone. -/
theorem follow_congr {s t : State} (h : s.node = t.node) (p : List Bool) : ∀ i, follow s i p = follow t i p := by
  induction p with
  | nil => intro i; rfl
  | cons b p ih => intro i; simp only [follow, nodeRead_congr h, ih]

@[simp] theorem Tree.symbols_length_pos (t : Tree) : 0 < t.symbols.length := by
  induction t with
  | leaf => simp [Tree.symbols]
  | node l r ihl ihr => simp [Tree.symbols]; omega

/-- A strict binary tree with N leaves has depth at most N − 1 (00_scope.md R6). -/
theorem Tree.depth_lt_symbols (t : Tree) : t.depth < t.symbols.length := by
  induction t with
  | leaf => simp [Tree.depth, Tree.symbols]
  | node l r ihl ihr =>
    simp only [Tree.depth, Tree.symbols, List.length_append]
    omega

/-- The leaves of a tree, left to right, each with its frequency. -/
def Tree.leaves : Tree → List (Byte × Word)
  | .leaf x f => [(x, f)]
  | .node l r => l.leaves ++ r.leaves

theorem Tree.symbols_eq (t : Tree) : t.symbols = t.leaves.map Prod.fst := by
  induction t with
  | leaf x f => rfl
  | node l r ihl ihr => simp [Tree.symbols, Tree.leaves, ihl, ihr]

theorem Tree.freq_eq (t : Tree) : t.freq = (t.leaves.map fun e => e.2.toNat).sum := by
  induction t with
  | leaf x f => simp [Tree.freq, Tree.leaves]
  | node l r ihl ihr => simp [Tree.freq, Tree.leaves, ihl, ihr]

/-- What tree stands at an index depends on the arena up to that index alone (41_tree_builder.md R172(e)). -/
theorem Represents.congr_below {s t : State} {tr : Tree} : ∀ {i : Nat}, Represents s i tr →
    (∀ j ≤ i, nodeRead s j = nodeRead t j) → Represents t i tr := by
  induction tr with
  | leaf x f => intro i h hc; exact ⟨h.1, (hc i (Nat.le_refl i)) ▸ h.2⟩
  | node l r ihl ihr =>
    intro i h hc
    obtain ⟨hf, a, c, ha, hb, hne, hn, hl, hr⟩ := h
    exact ⟨hf, a, c, ha, hb, hne, (hc i (Nat.le_refl i)) ▸ hn, ihl hl fun j hj => hc j (by omega),
      ihr hr fun j hj => hc j (by omega)⟩

/-- The frequency of the node a tree stands at is the tree's (41_tree_builder.md R172(d)). -/
theorem Represents.freq {s : State} {tr : Tree} {i : Nat} (h : Represents s i tr) : (nodeRead s i).freq.toNat = tr.freq := by
  cases tr with
  | leaf x f => rw [h.2]; rfl
  | node l r =>
    obtain ⟨hf, a, c, -, -, -, hn, -, -⟩ := h
    rw [hn]
    simp only [internalNode, BitVec.toNat_ofNat, Tree.freq]
    omega

end Sys2Proof.Machine
end

