-- ==== Sys2Proof/Laws/Build.lean ====
section
/-! SUPPORT. Leaf loading and the merge loop of BUILD: what holds of the arena and the queue at every pass. -/

namespace Sys2Proof.Machine

/-! Leaf loading (41_tree_builder.md R165). -/

/-- The symbols with a frequency in a list of symbol numbers. -/
def present (s : State) (ks : List Nat) : List Byte := (ks.map (BitVec.ofNat 8)).filter fun x => decide (freqRead s x ≠ 0#32)

theorem present_cons (s : State) (k : Nat) (ks : List Nat) : present s (k :: ks) =
    if freqRead s (BitVec.ofNat 8 k) = 0#32 then present s ks else BitVec.ofNat 8 k :: present s ks := by
  simp only [present, List.map_cons, List.filter_cons, decide_not, Bool.not_eq_true']
  split <;> simp_all

theorem loadLeaves_n (s : State) (ks : List Nat) : ∀ b, (loadLeaves s ks b).n = b.n + (present s ks).length := by
  induction ks with
  | nil => intro b; rfl
  | cons k ks ih =>
    intro b
    rw [loadLeaves, present_cons]
    split
    · simp [ih]
    · simp [ih, Builder.add]; omega

theorem loadLeaves_lookup (s : State) (ks : List Nat) : ∀ b i, (loadLeaves s ks b).cells.lookup i =
    if b.n ≤ i then (((present s ks)[i - b.n]?).map fun x => leafNode x (freqRead s x)).or (b.cells.lookup i)
    else b.cells.lookup i := by
  induction ks with
  | nil => intro b i; simp [loadLeaves, present]
  | cons k ks ih =>
    intro b i
    rw [loadLeaves, present_cons]
    by_cases h : freqRead s (BitVec.ofNat 8 k) = 0#32
    · simp only [h, if_true, ih]
    · simp only [h, if_false, ih, Builder.add, Memory.lookup_insert]
      by_cases h1 : i = b.n
      · subst h1; simp
      · by_cases h2 : b.n ≤ i
        · have h3 : b.n + 1 ≤ i := by omega
          have h4 : i - b.n = (i - (b.n + 1)) + 1 := by omega
          simp [h1, h2, h3, h4]
        · have h3 : ¬ b.n + 1 ≤ i := by omega
          simp [h1, h2, h3]

theorem loadLeaves_queue (s : State) (ks : List Nat) : ∀ b, (loadLeaves s ks b).queue =
    (((present s ks).zipIdx b.n).map fun e => (⟨(freqRead s e.1).toNat, e.2⟩ : Key)).reverse ++ b.queue := by
  induction ks with
  | nil => intro b; rfl
  | cons k ks ih =>
    intro b
    rw [loadLeaves, present_cons]
    by_cases h : freqRead s (BitVec.ofNat 8 k) = 0#32
    · simp [h, ih]
    · simp [h, ih, Builder.add, leafNode]

/-! The state of the arena and the queue during BUILD. -/

/-- The state with the arena a builder carries and its number of leaves. -/
def arenaOf (s : State) (b : Builder) : State :=
  { s with node := { s.node with cells := b.cells }, nleaf := BitVec.ofNat 9 (leafSymbols s).length }

/-- What holds at every pass of the merge loop. `forest` is the trees that stand at the queue's indices. -/
structure Building (s : State) (b : Builder) (forest : List (Key × Tree)) : Prop where
  queue   : (forest.map Prod.fst).Perm b.queue
  trees   : ∀ e ∈ forest, e.1.index < b.n ∧ e.1.freq = e.2.freq ∧ Represents (arenaOf s b) e.1.index e.2
  leaves  : (forest.flatMap fun e => e.2.leaves).Perm ((leafSymbols s).map fun x => (x, freqRead s x))
  count   : forest.length + b.n = 2 * (leafSymbols s).length
  nonempty : leafSymbols s ≠ [] → forest ≠ []
  above   : ∀ k, b.n ≤ k → b.cells.lookup k = s.node.cells.lookup k
  written : ∀ k < b.n, (b.cells.lookup k).isSome
  loaded  : LeavesLoaded s (arenaOf s b)
  loadedLe : (leafSymbols s).length ≤ b.n
  indices : (b.queue.map Key.index).Nodup
  inQueue : ∀ i, InQueueAt (arenaOf s b) b.n i ↔ ∃ k ∈ b.queue, k.index = i
  merged  : ∀ m, (leafSymbols s).length ≤ m → m < b.n → MergedAt (arenaOf s b) m

theorem length_leafSymbols_le (s : State) : (leafSymbols s).length ≤ 256 := by
  refine (List.length_filter_le _ _).trans ?_
  simp [allSymbols]

theorem arenaOf_nleaf (s : State) (b : Builder) : (arenaOf s b).nleaf.toNat = (leafSymbols s).length := by
  have := length_leafSymbols_le s
  simp only [arenaOf, BitVec.toNat_ofNat]
  omega

theorem nodeRead_arenaOf (s : State) (b : Builder) (i : Nat) :
    nodeRead (arenaOf s b) i = (b.cells.lookup i).getD (freeNode s.node.draw i) := rfl

/-- After leaf loading (41_tree_builder.md R165). -/
theorem building_loaded (s : State) : ∃ forest, Building s (loadedBuilder s) forest := by
  have hp : present s (List.range 256) = leafSymbols s := rfl
  have hn : (loadedBuilder s).n = (leafSymbols s).length := by
    rw [loadedBuilder, loadLeaves_n, hp]; simp
  have hl : ∀ i, (loadedBuilder s).cells.lookup i =
      (((leafSymbols s)[i]?).map fun x => leafNode x (freqRead s x)).or (s.node.cells.lookup i) := by
    intro i; rw [loadedBuilder, loadLeaves_lookup, hp]; simp
  have hq : (loadedBuilder s).queue = (((leafSymbols s).zipIdx 0).map fun e => (⟨(freqRead s e.1).toNat, e.2⟩ : Key)).reverse := by
    rw [loadedBuilder, loadLeaves_queue, hp]; simp
  have hld : LeavesLoaded s (arenaOf s (loadedBuilder s)) := by
    intro k x hx
    rw [nodeRead_arenaOf, hl, hx]
    rfl
  have hmem : ∀ e ∈ (leafSymbols s).zipIdx 0, (leafSymbols s)[e.2]? = some e.1 := by
    intro e he
    exact List.mem_zipIdx_iff_getElem?.mp he
  have hidx : (((leafSymbols s).zipIdx 0).map Prod.snd) = List.range (leafSymbols s).length := by
    rw [List.zipIdx_map_snd, List.range_eq_range']
  refine ⟨((leafSymbols s).zipIdx 0).map fun e => (⟨(freqRead s e.1).toNat, e.2⟩, .leaf e.1 (freqRead s e.1)), ?_⟩
  constructor
  · rw [hq, List.map_map]
    exact (List.reverse_perm _).symm
  · intro e he
    obtain ⟨y, hy, rfl⟩ := List.mem_map.mp he
    have h1 := hmem y hy
    have h2 : y.2 < (leafSymbols s).length := (List.getElem?_eq_some_iff.mp h1).1
    refine ⟨by rw [hn]; exact h2, rfl, ?_, hld _ _ h1⟩
    have h3 : y.1 ∈ leafSymbols s := List.mem_of_getElem? h1
    simpa [leafSymbols] using (List.mem_filter.mp h3).2
  · rw [List.flatMap_map]
    have : ((leafSymbols s).zipIdx 0).flatMap (fun e => (Tree.leaf e.1 (freqRead s e.1)).leaves) =
        (((leafSymbols s).zipIdx 0).map Prod.fst).map fun x => (x, freqRead s x) := by
      simp only [Tree.leaves, List.map_map, ← List.map_eq_flatMap]
      rfl
    rw [this, List.zipIdx_map_fst]
  · simp [hn]; omega
  · intro h0 h
    simp at h
    exact h0 h
  · intro k hk
    rw [hl, List.getElem?_eq_none (by omega)]
    rfl
  · intro k hk
    rw [hl, List.getElem?_eq_getElem (by omega)]
    rfl
  · exact hld
  · omega
  · rw [hq, List.map_reverse, List.map_map]
    have : (Key.index ∘ fun e : Byte × Nat => (⟨(freqRead s e.1).toNat, e.2⟩ : Key)) = Prod.snd := rfl
    rw [this, hidx]
    exact List.nodup_reverse.mpr List.nodup_range
  · intro i
    rw [InQueueAt, arenaOf_nleaf, hn]
    constructor
    · rintro ⟨h, -⟩
      have : i ∈ ((leafSymbols s).zipIdx 0).map Prod.snd := by rw [hidx]; simpa using h
      obtain ⟨e, he, rfl⟩ := List.mem_map.mp this
      exact ⟨_, by rw [hq]; exact List.mem_reverse.mpr (List.mem_map.mpr ⟨e, he, rfl⟩), rfl⟩
    · rintro ⟨k, hk, rfl⟩
      rw [hq] at hk
      obtain ⟨e, he, rfl⟩ := List.mem_map.mp (List.mem_reverse.mp hk)
      exact ⟨(List.getElem?_eq_some_iff.mp (hmem e he)).1, fun m hm hm' => by omega⟩
  · intro m hm hm'
    omega

/-! One pass of the merge loop (41_tree_builder.md R167). -/

theorem exists_perm_cons_of_map {α β : Type} {f : α → β} {l : List α} {y : β} {m : List β} (h : (l.map f).Perm (y :: m)) :
    ∃ x l', l.Perm (x :: l') ∧ f x = y ∧ (l'.map f).Perm m := by
  obtain ⟨x, hx, hy⟩ := List.mem_map.mp (h.mem_iff.mpr (List.mem_cons_self ..))
  obtain ⟨l₁, l₂, rfl⟩ := List.append_of_mem hx
  refine ⟨x, l₁ ++ l₂, List.perm_middle, hy, ?_⟩
  have h2 := (List.perm_middle.map f).symm.trans h
  rw [List.map_cons, hy] at h2
  exact h2.cons_inv

/-- Which indices the queue holds depends on the arena below `n` and on NLEAF alone. -/
theorem inQueueAt_congr {s t : State} {n : Nat} (hl : s.nleaf = t.nleaf) (h : ∀ j < n, nodeRead s j = nodeRead t j) (i : Nat) :
    InQueueAt s n i ↔ InQueueAt t n i := by
  unfold InQueueAt
  rw [hl]
  refine and_congr_right fun _ => forall_congr' fun m => forall_congr' fun _ => forall_congr' fun hm => ?_
  rw [h m hm]

theorem TwoLeast.congr {s t : State} {n a c : Nat} (h : TwoLeast s n a c) (hl : s.nleaf = t.nleaf)
    (hr : ∀ j < n, nodeRead s j = nodeRead t j) : TwoLeast t n a c := by
  obtain ⟨ha, hc, hac, hi⟩ := h
  refine ⟨(inQueueAt_congr hl hr a).mp ha, (inQueueAt_congr hl hr c).mp hc, ?_, fun i hq h1 h2 => ?_⟩
  · simpa only [KeyBefore, hr a ha.1, hr c hc.1] using hac
  · have h' := hi i ((inQueueAt_congr hl hr i).mpr hq) h1 h2
    simpa only [KeyBefore, hr i hq.1, hr c hc.1] using h'

theorem MergedAt.congr {s t : State} {n : Nat} (h : MergedAt s n) (hl : s.nleaf = t.nleaf)
    (hr : ∀ j ≤ n, nodeRead s j = nodeRead t j) : MergedAt t n := by
  obtain ⟨a, c, h2, hn⟩ := h
  refine ⟨a, c, h2.congr hl fun j hj => hr j (by omega), ?_⟩
  rw [← hr n (Nat.le_refl n), ← hr a (by have := h2.1.1; omega), ← hr c (by have := h2.2.1.1; omega)]
  exact hn

theorem Building.perm {s : State} {b : Builder} {f g : List (Key × Tree)} (h : Building s b f) (p : f.Perm g) : Building s b g where
  queue := (p.map Prod.fst).symm.trans h.queue
  trees := fun e he => h.trees e (p.mem_iff.mpr he)
  leaves := (p.flatMap_right _).symm.trans h.leaves
  count := p.length_eq ▸ h.count
  nonempty := fun h0 hg => h.nonempty h0 (by simpa [hg] using p)
  above := h.above
  written := h.written
  loaded := h.loaded
  loadedLe := h.loadedLe
  indices := h.indices
  inQueue := h.inQueue
  merged := h.merged

/-- Every key of the queue is the key of its index (41_tree_builder.md R161, R163). -/
theorem Building.key {s : State} {b : Builder} {f : List (Key × Tree)} (h : Building s b f) {k : Key} (hk : k ∈ b.queue) :
    k.index < b.n ∧ k.freq = (nodeRead (arenaOf s b) k.index).freq.toNat := by
  obtain ⟨e, he, rfl⟩ := List.mem_map.mp (h.queue.mem_iff.mpr hk)
  obtain ⟨h1, h2, h3⟩ := h.trees e he
  exact ⟨h1, h2.trans h3.freq.symm⟩

/-- The two extractions give the two least keys of the queue (41_tree_builder.md R162, R167). -/
theorem Building.twoLeast {s : State} {b : Builder} {f : List (Key × Tree)} (h : Building s b f) {a c : Key} {rest : List Key}
    (hx : extractTwo b.queue = some (a, c, rest)) : TwoLeast (arenaOf s b) b.n a.index c.index := by
  obtain ⟨hp, hac, hr⟩ := extractTwo_eq_some hx
  have hnd := (hp.map Key.index).nodup_iff.mpr h.indices
  simp only [List.map_cons, List.nodup_cons, List.mem_cons, not_or] at hnd
  have ha : a ∈ b.queue := hp.mem_iff.mp (by simp)
  have hc : c ∈ b.queue := hp.mem_iff.mp (by simp)
  have hb : ∀ {x y : Key}, x ∈ b.queue → y ∈ b.queue → x.before y = true → KeyBefore (arenaOf s b) x.index y.index := by
    intro x y hx hy hxy
    rw [Key.before_iff, (h.key hx).2, (h.key hy).2] at hxy
    exact hxy.imp id fun hh => ⟨BitVec.eq_of_toNat_eq hh.1, hh.2⟩
  refine ⟨(h.inQueue _).mpr ⟨a, ha, rfl⟩, (h.inQueue _).mpr ⟨c, hc, rfl⟩, ?_, ?_⟩
  · rcases hac with rfl | hac
    · exact absurd rfl hnd.1.1
    · exact hb ha hc hac
  · intro i hi h1 h2
    obtain ⟨k, hk, rfl⟩ := (h.inQueue i).mp hi
    rcases List.mem_cons.mp (hp.mem_iff.mpr hk) with rfl | hk'
    · exact absurd rfl h1
    rcases List.mem_cons.mp hk' with rfl | hk'
    · exact absurd rfl h2
    rcases hr k hk' with rfl | hck
    · exact absurd rfl h2
    · exact hb hc hk hck

theorem nodeRead_add (s : State) (b : Builder) (nd : Node) (q : List Key) (i : Nat) :
    nodeRead (arenaOf s (Builder.add nd { b with queue := q })) i = if i = b.n then nd else nodeRead (arenaOf s b) i := by
  simp only [nodeRead_arenaOf, Builder.add, Memory.lookup_insert]
  split <;> rfl

/-- A pass that does not overflow keeps everything (41_tree_builder.md R167). -/
theorem building_merge {s : State} {b : Builder} {f : List (Key × Tree)} (h : Building s b f) {a c : Key} {rest : List Key}
    (hx : extractTwo b.queue = some (a, c, rest)) (hle : a.freq + c.freq ≤ 0xFFFFFFFF) :
    ∃ f' ta tc, f.Perm ((a, ta) :: (c, tc) :: f') ∧
      Building s (Builder.add (internalNode (a.freq + c.freq) a.index c.index) { b with queue := rest })
        ((⟨a.freq + c.freq, b.n⟩, .node ta tc) :: f') := by
  have htl := h.twoLeast hx
  obtain ⟨hp, -, -⟩ := extractTwo_eq_some hx
  obtain ⟨⟨a', ta⟩, f1, hf1, rfl, hq1⟩ := exists_perm_cons_of_map (h.queue.trans hp.symm)
  obtain ⟨⟨c', tc⟩, f', hf', rfl, hq2⟩ := exists_perm_cons_of_map hq1
  have hperm := hf1.trans (hf'.cons _)
  refine ⟨f', ta, tc, hperm, ?_⟩
  simp only at hp hle hx htl ⊢
  have hb := h.perm hperm
  have hN := length_leafSymbols_le s
  have hcnt := hb.count
  simp only [List.length_cons] at hcnt
  obtain ⟨ha1, ha2, ha3⟩ := hb.trees (a', ta) (by simp)
  obtain ⟨hc1, hc2, hc3⟩ := hb.trees (c', tc) (by simp)
  simp only at ha1 ha2 ha3 hc1 hc2 hc3
  have hnd := (hp.map Key.index).nodup_iff.mpr h.indices
  simp only [List.map_cons, List.nodup_cons, List.mem_cons, not_or] at hnd
  have hfreq : (internalNode (a'.freq + c'.freq) a'.index c'.index).freq.toNat = a'.freq + c'.freq := by
    simp only [internalNode, BitVec.toNat_ofNat]; omega
  have hleft : (internalNode (a'.freq + c'.freq) a'.index c'.index).left.toNat = a'.index := by
    simp only [internalNode, BitVec.toNat_ofNat]; omega
  have hright : (internalNode (a'.freq + c'.freq) a'.index c'.index).right.toNat = c'.index := by
    simp only [internalNode, BitVec.toNat_ofNat]; omega
  have hread := nodeRead_add s b (internalNode (a'.freq + c'.freq) a'.index c'.index) rest
  have hsame : ∀ j < b.n, nodeRead (arenaOf s b) j =
      nodeRead (arenaOf s (Builder.add (internalNode (a'.freq + c'.freq) a'.index c'.index) { b with queue := rest })) j := by
    intro j hj; rw [hread, if_neg (by omega)]
  have hnew : nodeRead (arenaOf s (Builder.add (internalNode (a'.freq + c'.freq) a'.index c'.index) { b with queue := rest })) b.n =
      internalNode (a'.freq + c'.freq) a'.index c'.index := by rw [hread, if_pos rfl]
  have hrest : ∀ k ∈ rest, k ∈ b.queue := fun k hk => hp.mem_iff.mp (by simp [hk])
  have hbn : (Builder.add (internalNode (a'.freq + c'.freq) a'.index c'.index) { b with queue := rest }).n = b.n + 1 := rfl
  have hbq : (Builder.add (internalNode (a'.freq + c'.freq) a'.index c'.index) { b with queue := rest }).queue =
      ⟨a'.freq + c'.freq, b.n⟩ :: rest := by simp only [Builder.add, hfreq]
  have hbc : (Builder.add (internalNode (a'.freq + c'.freq) a'.index c'.index) { b with queue := rest }).cells =
      b.cells.insert b.n (internalNode (a'.freq + c'.freq) a'.index c'.index) := rfl
  clear hread
  generalize Builder.add (internalNode (a'.freq + c'.freq) a'.index c'.index) { b with queue := rest } = b' at *
  constructor
  · rw [hbq]
    exact hq2.cons _
  · intro e he
    rcases List.mem_cons.mp he with rfl | he
    · refine ⟨by simp [hbn], by simp [Tree.freq, ha2, hc2], by rw [← ha2, ← hc2]; exact hle, a'.index, c'.index, ha1, hc1,
        fun e => hnd.1.1 e, by rw [← ha2, ← hc2]; exact hnew, ha3.congr_below fun j hj => hsame j (by omega),
        hc3.congr_below fun j hj => hsame j (by omega)⟩
    · obtain ⟨h1, h2, h3⟩ := hb.trees e (by simp [he])
      exact ⟨by omega, h2, h3.congr_below fun j hj => hsame j (by omega)⟩
  · have := hb.leaves
    simp only [List.flatMap_cons, Tree.leaves, ← List.append_assoc] at this ⊢
    exact this
  · simp only [List.length_cons]; omega
  · intro _; simp
  · intro k hk
    rw [hbc, Memory.lookup_insert_other (by omega)]
    exact h.above k (by omega)
  · intro k hk
    rw [hbc, Memory.lookup_insert]
    split
    · rfl
    · exact h.written k (by omega)
  · intro k x hk
    rw [← hsame k (by have := (List.getElem?_eq_some_iff.mp hk).1; have := h.loadedLe; omega)]
    exact h.loaded k x hk
  · have := h.loadedLe; omega
  · rw [hbq, List.map_cons, List.nodup_cons]
    refine ⟨fun hm => ?_, hnd.2.2⟩
    obtain ⟨k, hk, he⟩ := List.mem_map.mp hm
    have := (h.key (hrest k hk)).1
    simp only at he
    omega
  · intro i
    simp only [hbn, hbq, List.mem_cons]
    constructor
    · rintro ⟨hi, hm⟩
      by_cases hin : i = b.n
      · exact ⟨_, .inl rfl, hin.symm⟩
      · have hq : InQueueAt (arenaOf s b) b.n i := ⟨by omega, fun m h1 h2 => by
          have := hm m h1 (by omega)
          rwa [← hsame m h2] at this⟩
        obtain ⟨k, hk, rfl⟩ := (h.inQueue i).mp hq
        have hnn := hm b.n (by rw [arenaOf_nleaf]; exact h.loadedLe) (by omega)
        rw [hnew, hleft, hright] at hnn
        rcases List.mem_cons.mp (hp.mem_iff.mpr hk) with rfl | hk'
        · exact absurd rfl hnn.1
        rcases List.mem_cons.mp hk' with rfl | hk'
        · exact absurd rfl hnn.2
        exact ⟨k, .inr hk', rfl⟩
    · rintro ⟨k, rfl | hk, rfl⟩
      · refine ⟨by simp, fun m h1 h2 => ?_⟩
        rw [arenaOf_nleaf] at h1
        simp only at h2 ⊢
        by_cases hmn : m = b.n
        · rw [hmn, hnew, hleft, hright]; omega
        · obtain ⟨x, y, hxy, -, hnode⟩ := h.merged m h1 (by omega)
          have hx1 := hxy.1.1
          have hy1 := hxy.2.1.1
          rw [← hsame m (by omega), hnode]
          simp only [internalNode, BitVec.toNat_ofNat]
          omega
      · obtain ⟨h1, h2⟩ := (h.inQueue k.index).mpr ⟨k, hrest k hk, rfl⟩
        refine ⟨by omega, fun m h3 h4 => ?_⟩
        by_cases hmn : m = b.n
        · rw [hmn, hnew, hleft, hright]
          exact ⟨fun e => hnd.1.2 (List.mem_map.mpr ⟨k, hk, e.symm⟩), fun e => hnd.2.1 (List.mem_map.mpr ⟨k, hk, e.symm⟩)⟩
        · rw [← hsame m (by omega)]
          exact h2 m h3 (by omega)
  · intro m h1 h2
    by_cases hmn : m = b.n
    · subst hmn
      refine ⟨a'.index, c'.index, htl.congr rfl hsame, ?_⟩
      rw [hnew, ← hsame _ ha1, ← hsame _ hc1, ha3.freq, hc3.freq, ← ha2, ← hc2]
      exact ⟨hle, rfl⟩
    · exact (h.merged m h1 (by omega)).congr rfl fun j hj => hsame j (by omega)

/-! The whole loop (41_tree_builder.md R167 to R169). -/

/-- The frequencies of the queue sum to Σ_s FREQ[s] at every pass (41_tree_builder.md R168). -/
theorem Building.total {s : State} {b : Builder} {f : List (Key × Tree)} (h : Building s b f) :
    (f.map fun e => e.1.freq).sum = totalFreq s := by
  have h1 : (f.map fun e => e.1.freq).sum = ((f.flatMap fun e => e.2.leaves).map fun e => e.2.toNat).sum := by
    have : ∀ g : List (Key × Tree), (∀ e ∈ g, e.1.freq = e.2.freq) →
        (g.map fun e => e.1.freq).sum = ((g.flatMap fun e => e.2.leaves).map fun e => e.2.toNat).sum := by
      intro g
      induction g with
      | nil => intro _; rfl
      | cons e g ih =>
        intro hg
        rw [List.map_cons, List.sum_cons, hg e (by simp), Tree.freq_eq, ih fun x hx => hg x (by simp [hx])]
        simp
    exact this f fun e he => (h.trees e he).2.1
  have h2 : totalFreq s = ((leafSymbols s).map fun x => (freqRead s x).toNat).sum := by
    have : ∀ l : List Byte, (l.map fun x => (freqRead s x).toNat).sum =
        ((l.filter fun x => decide (freqRead s x ≠ 0#32)).map fun x => (freqRead s x).toNat).sum := by
      intro l
      induction l with
      | nil => rfl
      | cons x l ih =>
        rw [List.filter_cons]
        split
        · simp [ih]
        · next hx => simp only [ne_eq, decide_not, Bool.not_eq_true', not_not,
            decide_eq_false_iff_not] at hx; simp [ih, hx]
    exact this allSymbols
  rw [h1, h2, (h.leaves.map fun e => e.2.toNat).sum_eq, List.map_map]
  rfl

/-- The merge loop ends with one tree or none in the queue, or at the first pass whose sum overflows (41_tree_builder.md R167,
R168). -/
theorem mergeLoop_building {s : State} : ∀ (fuel : Nat) (b : Builder) (f : List (Key × Tree)), Building s b f → b.queue.length ≤ fuel →
    (∃ b' f', mergeLoop fuel b = .done b' ∧ Building s b' f' ∧ b'.queue.length ≤ 1) ∨
      ∃ b' f' a c rest, mergeLoop fuel b = .overflow b' ∧ Building s b' f' ∧ extractTwo b'.queue = some (a, c, rest) ∧
        0xFFFFFFFF < a.freq + c.freq := by
  intro fuel
  induction fuel with
  | zero => intro b f h hl; exact .inl ⟨b, f, rfl, h, by omega⟩
  | succ fuel ih =>
    intro b f h hl
    rw [mergeLoop]
    cases hx : extractTwo b.queue with
    | none => exact .inl ⟨b, f, rfl, h, extractTwo_eq_none.mp hx⟩
    | some e =>
      obtain ⟨a, c, rest⟩ := e
      simp only
      split
      · next ho => exact .inr ⟨b, f, a, c, rest, rfl, h, hx, ho⟩
      · next ho =>
        obtain ⟨f', ta, tc, -, hb⟩ := building_merge h hx (by omega)
        refine ih _ _ hb ?_
        have := (extractTwo_eq_some hx).1.length_eq
        simp only [List.length_cons] at this
        simp only [Builder.add, List.length_cons]
        omega

/-- A BUILD ends as the merge loop does, from the leaves loaded (41_tree_builder.md R164). -/
theorem mergeLoop_loaded (s : State) :
    (∃ b' f', mergeLoop (loadedBuilder s).n (loadedBuilder s) = .done b' ∧ Building s b' f' ∧ b'.queue.length ≤ 1) ∨
      ∃ b' f' a c rest, mergeLoop (loadedBuilder s).n (loadedBuilder s) = .overflow b' ∧ Building s b' f' ∧
        extractTwo b'.queue = some (a, c, rest) ∧ 0xFFFFFFFF < a.freq + c.freq := by
  obtain ⟨f, h⟩ := building_loaded s
  refine mergeLoop_building _ _ f h ?_
  have h1 := h.queue.length_eq
  rw [List.length_map] at h1
  have h2 := h.count
  have h3 := h.loadedLe
  omega

theorem loadedBuilder_n (s : State) : (loadedBuilder s).n = (leafSymbols s).length := by
  rw [loadedBuilder, loadLeaves_n, Nat.zero_add]
  rfl

/-- An overflow of one pass is an overflow of the whole sum (41_tree_builder.md R168). -/
theorem Building.overflows {s : State} {b : Builder} {f : List (Key × Tree)} (h : Building s b f) {a c : Key} {rest : List Key}
    (hx : extractTwo b.queue = some (a, c, rest)) (ho : 0xFFFFFFFF < a.freq + c.freq) : FreqOverflows s := by
  have hq := h.queue.trans (extractTwo_eq_some hx).1.symm
  have hs := (hq.map Key.freq).sum_eq
  have ht := h.total
  have hl := hq.length_eq
  have hc := h.count
  have hle := h.loadedLe
  simp only [List.map_map, List.map_cons, List.sum_cons, Function.comp_def, List.length_map, List.length_cons] at hs ht hl
  exact ⟨by omega, by omega⟩

/-- With one tree left, its frequency is the whole sum, and it stands at the last index (41_tree_builder.md R169, R172(d)). -/
theorem Building.root {s : State} {b : Builder} {f : List (Key × Tree)} (h : Building s b f) (hq : b.queue.length ≤ 1)
    (hne : leafSymbols s ≠ []) : ∃ k tr, f = [(k, tr)] ∧ b.queue = [k] ∧ k.index + 1 = b.n ∧
      b.n + 1 = 2 * (leafSymbols s).length ∧ tr.freq = totalFreq s := by
  have hl := h.queue.length_eq
  rw [List.length_map] at hl
  have hf := h.nonempty hne
  obtain ⟨⟨k, tr⟩, rfl⟩ : ∃ e, f = [e] := by
    match f with
    | [] => exact absurd rfl hf
    | [e] => exact ⟨e, rfl⟩
    | _ :: _ :: _ => simp at hl; omega
  have hqk : b.queue = [k] := (List.singleton_perm.mp h.queue).symm
  have hc := h.count
  have ht := h.total
  have hN := length_leafSymbols_le s
  obtain ⟨h1, h2, -⟩ := h.trees (k, tr) (by simp)
  simp only [List.length_singleton, List.map_singleton, List.sum_singleton] at hc ht h1 h2
  refine ⟨k, tr, rfl, hqk, ?_, by omega, h2.symm.trans ht⟩
  have hlast : InQueueAt (arenaOf s b) b.n (b.n - 1) := by
    refine ⟨by omega, fun m h3 h4 => ?_⟩
    rw [arenaOf_nleaf] at h3
    obtain ⟨x, y, hxy, -, hnode⟩ := h.merged m h3 h4
    have hx := hxy.1.1
    have hy := hxy.2.1.1
    rw [hnode]
    simp only [internalNode, BitVec.toNat_ofNat]
    omega
  obtain ⟨k', hk', hi⟩ := (h.inQueue _).mp hlast
  rw [hqk, List.mem_singleton] at hk'
  subst hk'
  omega

/-- The merge loop overflows exactly when the frequencies do (41_tree_builder.md R168). -/
theorem mergeLoop_of_not_overflows {s : State} (h : ¬ FreqOverflows s) :
    ∃ b f, mergeLoop (loadedBuilder s).n (loadedBuilder s) = .done b ∧ Building s b f ∧ b.queue.length ≤ 1 := by
  rcases mergeLoop_loaded s with hd | ⟨b, f, a, c, rest, -, hb, hx, ho⟩
  · exact hd
  · exact absurd (hb.overflows hx ho) h

theorem mergeLoop_of_overflows {s : State} (h : FreqOverflows s) :
    ∃ b f a c rest, mergeLoop (loadedBuilder s).n (loadedBuilder s) = .overflow b ∧ Building s b f ∧
      extractTwo b.queue = some (a, c, rest) ∧ 0xFFFFFFFF < a.freq + c.freq := by
  rcases mergeLoop_loaded s with ⟨b, f, -, hb, hq⟩ | ho
  · exfalso
    obtain ⟨k, tr, rfl, -, -, -, ht⟩ := hb.root hq fun h0 => by have := h.1; simp [h0] at this
    have h1 := (hb.trees (k, tr) (by simp)).2.2.freq
    have h2 := (nodeRead (arenaOf s b) k.index).freq.isLt
    have h3 := h.2
    simp only at h1
    omega
  · exact ho

end Sys2Proof.Machine
end

