-- ==== Sys2Proof/Laws/Bus.lean ====
section
/-! SUPPORT. What a bus transaction can do: which target it reaches, and the three cases of its effect. -/

namespace Sys2Proof.Machine

/-! The offset map. -/

/-- Every register's offset selects it (20_memory.md R71). -/
theorem targetAt_reg (r : Reg) : targetAt (BitVec.ofNat 18 r.offset) = some (.reg r) := by
  cases r with
  | ctCode k => revert k; decide
  | _ => rfl

theorem targetAt_freq (x : Byte) : targetAt (BitVec.ofNat 18 (0x00400 + 4 * x.toNat)) = some (.freq x) := by
  have h := x.isLt
  have e : (BitVec.ofNat 18 (0x00400 + 4 * x.toNat)).toNat = 0x00400 + 4 * x.toNat := by
    rw [BitVec.toNat_ofNat]; omega
  have q : (0x00400 + 4 * x.toNat - 0x00400) / 4 = x.toNat := by omega
  simp only [targetAt, e, q, BitVec.ofNat_toNat, BitVec.setWidth_eq]
  rw [if_neg (by omega), if_pos (by omega)]

theorem targetAt_symWord {w : Nat} (h : w < 0x4000) :
    targetAt (BitVec.ofNat 18 (0x10000 + 4 * w)) = some (.symWord w) := by
  have e : (BitVec.ofNat 18 (0x10000 + 4 * w)).toNat = 0x10000 + 4 * w := by
    rw [BitVec.toNat_ofNat]; omega
  have q : (0x10000 + 4 * w - 0x10000) / 4 = w := by omega
  simp only [targetAt, e, q]
  rw [if_neg (by omega), if_neg (by omega), if_neg (by omega), if_pos (by omega)]

theorem targetAt_byteWord {w : Nat} (h : w < 0x4000) :
    targetAt (BitVec.ofNat 18 (0x20000 + 4 * w)) = some (.byteWord w) := by
  have e : (BitVec.ofNat 18 (0x20000 + 4 * w)).toNat = 0x20000 + 4 * w := by
    rw [BitVec.toNat_ofNat]; omega
  have q : (0x20000 + 4 * w - 0x20000) / 4 = w := by omega
  simp only [targetAt, e, q]
  rw [if_neg (by omega), if_neg (by omega), if_neg (by omega), if_neg (by omega), if_pos (by omega)]

/-- The offset of a register is a multiple of 4 (20_memory.md R72). -/
theorem offset_aligned (r : Reg) : (BitVec.ofNat 18 r.offset).toNat % 4 = 0 := by
  cases r with
  | ctCode k => revert k; decide
  | _ => rfl

/-! Reaching a target. -/

/-- A transaction reaches a target exactly when the access is legal, the offset is mapped, and HTB is not BUSY or the row can be
reached then (20_memory.md R72 to R74, R78, R80). -/
theorem reachedTarget_eq_some {t : Transaction} {s : State} {g : Target} :
    reachedTarget t s = some g ↔ t.WellFormed ∧ targetAt t.offset = some g ∧ g.isMapped s.params = true ∧
      (s.phase.isBusy = true → g.whileBusy = true) := by
  unfold reachedTarget
  by_cases hw : t.WellFormed
  · rw [if_pos hw]
    cases hg : targetAt t.offset with
    | none => simp
    | some g' =>
      by_cases hc : (g'.isMapped s.params && (!s.phase.isBusy || g'.whileBusy)) = true
      · simp only [hc, if_true, Option.some.injEq]
        rw [Bool.and_eq_true, Bool.or_eq_true, Bool.not_eq_true'] at hc
        constructor
        · rintro rfl
          exact ⟨hw, rfl, hc.1, fun hb => hc.2.resolve_left (by simp [hb])⟩
        · exact fun h => h.2.1
      · simp only [hc, Bool.false_eq_true, if_false, Option.some.injEq, reduceCtorEq, false_iff]
        rintro ⟨-, rfl, hm, hb⟩
        apply hc
        rw [hm, Bool.true_and]
        cases hx : s.phase.isBusy
        · rfl
        · simpa using hb hx
  · rw [if_neg hw]
    exact iff_of_false (by simp) fun h => hw h.1

/-- A transaction that reaches nothing is refused (20_memory.md R73, R74, R80). -/
theorem busAccess_of_none {t : Transaction} {s : State} (h : reachedTarget t s = none) :
    busAccess t s = (s, errResponse) := by
  simp only [busAccess, h]

theorem busAccess_of_read {t : Transaction} {s : State} {g : Target} (h : reachedTarget t s = some g)
    (hk : t.kind = .read) : busAccess t s = (s, readResponse (targetRead s g)) := by
  simp only [busAccess, h, hk]

theorem busAccess_of_write {t : Transaction} {s : State} {g : Target} {v : Word} (h : reachedTarget t s = some g)
    (hk : t.kind = .write v) (hr : g.readOnly = false) : busAccess t s = (targetWrite g v s, writeResponse s) := by
  simp [busAccess, h, hk, hr]

theorem busAccess_of_readOnly {t : Transaction} {s : State} {g : Target} {v : Word} (h : reachedTarget t s = some g)
    (hk : t.kind = .write v) (hr : g.readOnly = true) : busAccess t s = (s, errResponse) := by
  simp [busAccess, h, hk, hr]

/-- Everything a transaction can do: nothing, or the write of a target that it reaches and that is not read-only. -/
theorem busAccess_cases (t : Transaction) (s : State) :
    (busAccess t s).1 = s ∨ ∃ g v, reachedTarget t s = some g ∧ t.kind = .write v ∧ g.readOnly = false ∧
      (busAccess t s).1 = targetWrite g v s := by
  cases hg : reachedTarget t s with
  | none => exact .inl (by rw [busAccess_of_none hg])
  | some g =>
    cases hk : t.kind with
    | read => exact .inl (by rw [busAccess_of_read hg hk])
    | write v =>
      cases hr : g.readOnly with
      | true => exact .inl (by rw [busAccess_of_readOnly hg hk hr])
      | false => exact .inr ⟨g, v, rfl, rfl, hr, by rw [busAccess_of_write hg hk hr]⟩

/-- What the write of a target leaves alone: everything but its own register, or its own memory, or for CMD the command record. -/
theorem targetWrite_frame (g : Target) (v : Word) (s : State) :
    ∃ t, targetWrite g v s = t ∧ t.treeValid = s.treeValid ∧ t.encBits = s.encBits ∧ t.pad = s.pad ∧ t.nleaf = s.nleaf ∧
      t.nnode = s.nnode ∧ t.root = s.root ∧ t.node = s.node ∧ t.params = s.params ∧ t.events = s.events ∧
      t.responses = s.responses ∧ t.draws = s.draws ∧ t.symBuf.draw = s.symBuf.draw ∧ t.byteBuf.draw = s.byteBuf.draw := by
  cases g with
  | reg r => cases r <;> exact ⟨_, rfl, rfl, rfl, rfl, rfl, rfl, rfl, rfl, rfl, rfl, rfl, rfl, rfl, rfl⟩
  | _ => exact ⟨_, rfl, rfl, rfl, rfl, rfl, rfl, rfl, rfl, rfl, rfl, rfl, rfl, rfl, rfl⟩

/-- A write keeps the memories canonical (log 4). -/
theorem memoriesCanonical_targetWrite {g : Target} {s : State} (v : Word) (hg : g.isMapped s.params = true)
    (h : MemoriesCanonical s) : MemoriesCanonical (targetWrite g v s) := by
  cases g with
  | reg r =>
    cases r with
    | ctLen => exact memoriesCanonical_ctWrite h _ _
    | ctCode k => exact memoriesCanonical_ctWrite h _ _
    | _ => exact h
  | freq x => exact memoriesCanonical_freqWrite h x v
  | symWord w =>
    refine memoriesCanonical_symWriteAll h ?_
    simp only [Target.isMapped, decide_eq_true_eq] at hg
    simp only [lanes, List.length_cons, List.length_nil]
    omega
  | byteWord w =>
    refine memoriesCanonical_byteWriteAll h ?_
    simp only [Target.isMapped, decide_eq_true_eq] at hg
    simp only [lanes, List.length_cons, List.length_nil]
    omega

end Sys2Proof.Machine
end

