-- ==== Sys2Proof/Laws/Flags.lean ====
section
/-! SUPPORT. The bits of the packed words: STATUS, the node read-back words, the lanes of a buffer word, a word of CODE. -/

namespace Sys2Proof.Machine

/-- A bit of a field (00_scope.md section 5). -/
theorem getLsbD_field {n : Nat} (v : BitVec n) (lo i : Nat) :
    (field v lo).getLsbD i = (decide (i < 32) && (decide (lo ≤ i) && v.getLsbD (i - lo))) := by
  by_cases h : i < 32 <;> by_cases h2 : lo ≤ i <;> simp [field, h, h2]

theorem getElem_field {n : Nat} (v : BitVec n) (lo i : Nat) (h : i < 32) :
    (field v lo)[i] = (decide (lo ≤ i) && v.getLsbD (i - lo)) := by
  rw [← BitVec.getLsbD_eq_getElem, getLsbD_field]
  simp [h]

/-- The fields of STATUS (10_state.md R23). -/
theorem statusWord_fields (s : State) :
    (statusWord s).getLsbD 0 = s.phase.isBusy ∧ (statusWord s).getLsbD 1 = s.done ∧ (statusWord s).getLsbD 2 = s.err ∧
      (statusWord s).getLsbD 3 = s.treeValid ∧ (statusWord s).extractLsb' 4 4 = s.lastOp ∧
      (statusWord s).extractLsb' 8 8 = errCodeByte s.errCode ∧ (statusWord s).extractLsb' 16 16 = 0#16 := by
  refine ⟨?_, ?_, ?_, ?_, ?_, ?_, ?_⟩
  all_goals first | apply BitVec.eq_of_getLsbD_eq; intro i hi; interval_cases i | skip
  all_goals simp [statusWord, getElem_field]

/-- The fields of NODE_INFO (10_state.md R44). -/
theorem nodeInfoWord_fields (nd : Node) :
    (nodeInfoWord nd).getLsbD 31 = nd.leaf ∧ (nodeInfoWord nd).extractLsb' 8 23 = 0#23 ∧
      (nodeInfoWord nd).extractLsb' 0 8 = nd.sym := by
  refine ⟨?_, ?_, ?_⟩
  all_goals first | apply BitVec.eq_of_getLsbD_eq; intro i hi; interval_cases i | skip
  all_goals simp [nodeInfoWord, getElem_field]

/-- The fields of NODE_LINK (10_state.md R44). -/
theorem nodeLinkWord_fields (nd : Node) :
    (nodeLinkWord nd).extractLsb' 25 7 = 0#7 ∧ (nodeLinkWord nd).extractLsb' 16 9 = nd.right ∧
      (nodeLinkWord nd).extractLsb' 9 7 = 0#7 ∧ (nodeLinkWord nd).extractLsb' 0 9 = nd.left := by
  refine ⟨?_, ?_, ?_, ?_⟩
  all_goals apply BitVec.eq_of_getLsbD_eq; intro i hi; interval_cases i
  all_goals simp [nodeLinkWord, getElem_field]

/-- The lanes of a buffer word (20_memory.md R76, R77). -/
theorem lanes_laneWord (b0 b1 b2 b3 : Byte) : lanes (laneWord b0 b1 b2 b3) = [b0, b1, b2, b3] := by
  simp only [lanes, List.cons.injEq, and_true]
  refine ⟨?_, ?_, ?_, ?_⟩
  all_goals apply BitVec.eq_of_getLsbD_eq; intro i hi; interval_cases i
  all_goals simp [laneWord, getElem_field]

/-- One word of CODE is replaced and the others stay (10_state.md R41). -/
theorem extract_setCodeWord (k j : Fin 8) (v : Word) (c : CodeWord) :
    (setCodeWord k v c).extractLsb' (32 * j.val) 32 = if j = k then v else c.extractLsb' (32 * j.val) 32 := by
  apply BitVec.eq_of_getLsbD_eq
  intro i hi
  have hk := k.isLt
  have hj := j.isLt
  have hb : 32 * j.val + i < 256 := by omega
  simp only [setCodeWord, BitVec.getLsbD_extractLsb', hi, decide_true, Bool.true_and, BitVec.getLsbD_or, BitVec.getLsbD_and,
    BitVec.getLsbD_not, BitVec.getLsbD_shiftLeft, BitVec.getLsbD_setWidth, BitVec.getLsbD_allOnes, hb]
  by_cases h : j = k
  · subst h
    simp [hi, show i < 256 by omega]
  · have hne : j.val ≠ k.val := fun e => h (Fin.ext e)
    rw [if_neg h]
    by_cases hlt : 32 * j.val + i < 32 * k.val
    · simp [hlt, hi]
    · have h32 : ¬ 32 * j.val + i - 32 * k.val < 32 := by omega
      have hv : v.getLsbD (32 * j.val + i - 32 * k.val) = false := BitVec.getLsbD_of_ge _ _ (by omega)
      simp [hlt, hi, h32, hv]

end Sys2Proof.Machine
end

