-- ==== Sys2Proof/Laws/Walk.lean ====
section
/-! SUPPORT. The paths of a tree, and what `visit` writes for them (42_code_table.md R195 to R197). -/

namespace Sys2Proof.Machine

/-- The leaves of a tree, each with its path from the root: false for LEFT, true for RIGHT (42_code_table.md R195). -/
def Tree.paths : Tree → List (Byte × List Bool)
  | .leaf x _ => [(x, [])]
  | .node l r => l.paths.map (fun e => (e.1, false :: e.2)) ++ r.paths.map fun e => (e.1, true :: e.2)

theorem Tree.paths_symbols (t : Tree) : t.paths.map Prod.fst = t.symbols := by
  induction t with
  | leaf x f => rfl
  | node l r ihl ihr => simp [Tree.paths, Tree.symbols, ← ihl, ← ihr, Function.comp_def]

theorem Tree.length_path_le {t : Tree} {e : Byte × List Bool} (h : e ∈ t.paths) : e.2.length ≤ t.depth := by
  induction t generalizing e with
  | leaf x f => simp only [Tree.paths, List.mem_singleton] at h; simp [h]
  | node l r ihl ihr =>
    simp only [Tree.paths, List.mem_append, List.mem_map] at h
    rcases h with ⟨a, ha, rfl⟩ | ⟨a, ha, rfl⟩
    · have := ihl ha; simp only [List.length_cons, Tree.depth]; omega
    · have := ihr ha; simp only [List.length_cons, Tree.depth]; omega

/-- No path leads through another's leaf (42_code_table.md R197(a)). -/
theorem Tree.paths_prefixFree (t : Tree) : t.paths.Pairwise fun a b => ¬ a.2 <+: b.2 ∧ ¬ b.2 <+: a.2 := by
  induction t with
  | leaf x f => simp [Tree.paths]
  | node l r ihl ihr =>
    simp only [Tree.paths, List.pairwise_append, List.pairwise_map, List.cons_prefix_cons, true_and]
    refine ⟨ihl, ihr, ?_⟩
    intro a ha b hb
    obtain ⟨a, -, rfl⟩ := List.mem_map.mp ha
    obtain ⟨b, -, rfl⟩ := List.mem_map.mp hb
    simp [List.cons_prefix_cons]

/-- The Kraft sum of a strict binary tree is 1 (42_code_table.md R197(c)), every term times 2^d. -/
theorem Tree.kraft (t : Tree) : ∀ d, t.depth ≤ d → (t.paths.map fun e => 2 ^ (d - e.2.length)).sum = 2 ^ d := by
  induction t with
  | leaf x f => intro d _; simp [Tree.paths]
  | node l r ihl ihr =>
    intro d hd
    simp only [Tree.depth] at hd
    obtain ⟨d, rfl⟩ : ∃ k, d = k + 1 := ⟨d - 1, by omega⟩
    simp only [Tree.paths, List.map_append, List.sum_append, List.map_map, Function.comp_def, List.length_cons,
      Nat.add_sub_add_right, ihl d (by omega), ihr d (by omega)]
    ring

theorem internalNode_links {f a c : Nat} (ha : a < 512) (hc : c < 512) :
    (internalNode f a c).left.toNat = a ∧ (internalNode f a c).right.toNat = c := by
  simp only [internalNode, BitVec.toNat_ofNat]
  omega

/-- The leaves a path of links reaches are the leaves of the tree (41_tree_builder.md R172(a)). -/
theorem mem_paths_iff {s : State} {tr : Tree} : ∀ {i : Nat} {x : Byte} {p : List Bool}, i < 512 → Represents s i tr →
    ((x, p) ∈ tr.paths ↔ ∃ k, follow s i p = some k ∧ (nodeRead s k).leaf = true ∧ (nodeRead s k).sym = x) := by
  induction tr with
  | leaf y f =>
    intro i x p hi h
    cases p with
    | nil =>
      simp only [Tree.paths, List.mem_singleton, Prod.mk.injEq, and_true, follow, Option.some.injEq, exists_eq_left', h.2, leafNode,
        true_and]
      exact eq_comm
    | cons b p => simp [Tree.paths, follow, h.2, leafNode]
  | node l r ihl ihr =>
    intro i x p hi h
    obtain ⟨-, a, c, ha, hc, -, hn, hl, hr⟩ := h
    have hlk := internalNode_links (f := l.freq + r.freq) (show a < 512 by omega) (show c < 512 by omega)
    cases p with
    | nil => simp [Tree.paths, follow, hn, internalNode]
    | cons b p =>
      simp only [Tree.paths, List.mem_append, List.mem_map, Prod.mk.injEq, List.cons.injEq, Prod.exists, follow, hn,
        show (internalNode (l.freq + r.freq) a c).leaf = false from rfl, Bool.false_eq_true, if_false]
      cases b
      · simp only [Bool.false_eq_true, if_false, hlk.1, ← ihl (by omega) hl]
        simp
      · simp only [if_true, hlk.2, ← ihr (by omega) hr]
        simp

/-- The entry WALK writes for a leaf below a node that stands at path `c` of length `d` (42_code_table.md R190). -/
def pathEntry (c d : Nat) (p : List Bool) : CtEntry :=
  { len := BitVec.ofNat 8 (d + p.length), code := BitVec.ofNat 256 (c * 2 ^ p.length + valOf p) }

/-- Everything `visit` does below a tree: one entry a leaf, left to right (42_code_table.md R190, R195). -/
theorem visit_represents {s : State} {tr : Tree} : ∀ {fuel i c d : Nat} {m : Memory CtEntry}, i < 512 → Represents s i tr →
    tr.depth < fuel → visit s fuel i c d m = some (tr.paths.foldl (fun m e => ctPut e.1 (pathEntry c d e.2) m) m) := by
  induction tr with
  | leaf x f =>
    intro fuel i c d m hi h hf
    obtain ⟨fuel, rfl⟩ : ∃ k, fuel = k + 1 := ⟨fuel - 1, by omega⟩
    simp [visit, h.2, leafNode, Tree.paths, pathEntry]
  | node l r ihl ihr =>
    intro fuel i c d m hi h hf
    simp only [Tree.depth] at hf
    obtain ⟨fuel, rfl⟩ : ∃ k, fuel = k + 1 := ⟨fuel - 1, by omega⟩
    obtain ⟨-, a, b, ha, hb, -, hn, hl, hr⟩ := h
    have hlk := internalNode_links (f := l.freq + r.freq) (show a < 512 by omega) (show b < 512 by omega)
    have he : ∀ (q : Bool) (p : List Bool), pathEntry c d (q :: p) = pathEntry (2 * c + q.toNat) (d + 1) p := by
      intro q p
      simp only [pathEntry, List.length_cons, valOf_cons, Nat.pow_succ]
      congr 2
      · omega
      · ring
    simp only [visit, hn, show (internalNode (l.freq + r.freq) a b).leaf = false from rfl, Bool.false_eq_true, if_false, hlk]
    rw [ihl (by omega) hl (by omega), Option.bind_some, ihr (by omega) hr (by omega), Tree.paths, List.foldl_append,
      List.foldl_map, List.foldl_map]
    simp only [he, Bool.toNat_false, Bool.toNat_true, Nat.add_zero]

/-- What a run of entry writes leaves to be read, when no symbol is written twice. -/
theorem read_foldl_ctPut {g : List Bool → CtEntry} : ∀ (ps : List (Byte × List Bool)) (m : Memory CtEntry) (x : Byte),
    (ps.map Prod.fst).Nodup → Memory.read .absent (ps.foldl (fun m e => ctPut e.1 (g e.2) m) m) x.toNat =
      match ps.lookup x with
      | some p => g p
      | none => Memory.read .absent m x.toNat := by
  intro ps
  induction ps with
  | nil => intro m x _; rfl
  | cons e ps ih =>
    intro m x h
    simp only [List.map_cons, List.nodup_cons] at h
    rw [List.foldl_cons, ih _ _ h.2, List.lookup_cons]
    by_cases hx : x = e.1
    · subst hx
      have hn : ps.lookup e.1 = none := by
        rw [List.lookup_eq_none_iff]
        intro p hp
        have : e.1 ≠ p.1 := fun he => h.1 (he ▸ List.mem_map_of_mem hp)
        simpa using this
      simp [hn, read_ctPut]
    · have : (x == e.1) = false := by simpa using hx
      simp only [this]
      cases ps.lookup x with
      | some p => rfl
      | none => simp [read_ctPut, hx]

end Sys2Proof.Machine
end

