-- ==== Sys2Proof/Laws/Huffman.lean ====
section
/-! SUPPORT. Why no prefix-free code beats the tree of BUILD (43_bit_packer.md R217(e)): the Kraft inequality, one merge as a lower
bound, and the two put together along the merge loop. -/

namespace Sys2Proof.Machine

/-! Kraft's inequality, every term times 2^d. -/

theorem kraft_le {d : Nat} : ∀ {cs : List (List Bool)}, (cs.Pairwise fun a b => ¬ a <+: b ∧ ¬ b <+: a) →
    (∀ c ∈ cs, c.length ≤ d) → (cs.map fun c => 2 ^ (d - c.length)).sum ≤ 2 ^ d := by
  induction d with
  | zero =>
    intro cs hp hl
    match cs with
    | [] => simp
    | [c] => simp
    | a :: b :: cs =>
      have ha : a = [] := List.eq_nil_of_length_eq_zero (by have := hl a (by simp); omega)
      exact absurd (ha ▸ List.nil_prefix) ((List.pairwise_cons.mp hp).1 b (by simp)).1
  | succ d ih =>
    intro cs hp hl
    by_cases hn : [] ∈ cs
    · have : cs = [[]] := by
        match cs with
        | [] => simp at hn
        | [c] => simpa [eq_comm] using hn
        | a :: b :: cs =>
          simp only [List.pairwise_cons, List.mem_cons] at hp
          rcases List.mem_cons.mp hn with h | h
          · have := (hp.1 b (.inl rfl)).1; simp [← h] at this
          · have := (hp.1 [] (by simpa using h)).2; simp at this
      simp [this]
    · have key : ∀ l : List (List Bool), (∀ c ∈ l, c ≠ [] ∧ c.length ≤ d + 1) →
          (l.map fun c => 2 ^ (d + 1 - c.length)).sum =
            (((l.filter fun c => c.head? = some false).map List.tail).map fun c => 2 ^ (d - c.length)).sum +
            (((l.filter fun c => c.head? = some true).map List.tail).map fun c => 2 ^ (d - c.length)).sum := by
        intro l
        induction l with
        | nil => intro _; rfl
        | cons c l ihl =>
          intro h
          have h1 := ihl fun x hx => h x (by simp [hx])
          match c with
          | [] => exact absurd rfl (h [] (by simp)).1
          | false :: c => simp at h1 ⊢; omega
          | true :: c => simp at h1 ⊢; omega
      have half : ∀ q : Bool, (((cs.filter fun c => c.head? = some q).map List.tail).map fun c => 2 ^ (d - c.length)).sum ≤ 2 ^ d := by
        intro q
        apply ih
        · rw [List.pairwise_map]
          refine (hp.sublist List.filter_sublist).imp_of_mem fun {a b} ha hb h => ?_
          have ha := (List.mem_filter.mp ha).2
          have hb := (List.mem_filter.mp hb).2
          match a, b with
          | [], _ => simp at ha
          | _ :: _, [] => simp at hb
          | x :: a, y :: b =>
            simp only [List.head?_cons, Option.some.injEq, decide_eq_true_eq] at ha hb
            subst ha; subst hb
            simpa [List.cons_prefix_cons] using h
        · intro c hc
          obtain ⟨a, ha, rfl⟩ := List.mem_map.mp hc
          have := hl a (List.mem_filter.mp ha).1
          simp; omega
      rw [key cs fun c hc => ⟨fun h => hn (h ▸ hc), hl c hc⟩, Nat.pow_succ]
      have h1 := half false
      have h2 := half true
      omega

/-! Weights with lengths. -/

/-- Code lengths for a list of weights, at most `d` each, with Kraft sum at most 1. Each entry is (weight, length). -/
structure Lengths (d : Nat) (g : List (Nat × Nat)) : Prop where
  le    : ∀ e ∈ g, e.2 ≤ d
  kraft : (g.map fun e => 2 ^ (d - e.2)).sum ≤ 2 ^ d

/-- The weighted length. -/
def costOf (g : List (Nat × Nat)) : Nat := (g.map fun e => e.1 * e.2).sum

/-- Only the lengths count. -/
theorem Lengths.congr {d : Nat} {g h : List (Nat × Nat)} (hg : Lengths d g) (p : (g.map Prod.snd).Perm (h.map Prod.snd)) :
    Lengths d h := by
  refine ⟨fun e he => ?_, ?_⟩
  · obtain ⟨x, hx, he'⟩ := List.mem_map.mp (p.mem_iff.mpr (List.mem_map_of_mem he))
    exact he' ▸ hg.le x hx
  · have := (p.map fun l => 2 ^ (d - l)).sum_eq
    rw [List.map_map, List.map_map] at this
    exact this ▸ hg.kraft

theorem costOf_perm {g h : List (Nat × Nat)} (p : g.Perm h) : costOf g = costOf h := by
  unfold costOf
  exact (p.map fun e => e.1 * e.2).sum_eq

theorem sum_pow_succ {d : Nat} : ∀ {g : List (Nat × Nat)}, (∀ e ∈ g, e.2 ≤ d) →
    (g.map fun e => 2 ^ (d + 1 - e.2)).sum = 2 * (g.map fun e => 2 ^ (d - e.2)).sum := by
  intro g
  induction g with
  | nil => intro _; rfl
  | cons e g ih =>
    intro h
    have h1 := h e (by simp)
    have h2 : d + 1 - e.2 = (d - e.2) + 1 := by omega
    rw [List.map_cons, List.sum_cons, ih fun x hx => h x (by simp [hx]), List.map_cons, List.sum_cons, h2, Nat.pow_succ]
    ring

theorem Lengths.succ {d : Nat} {g : List (Nat × Nat)} (h : Lengths d g) : Lengths (d + 1) g := by
  refine ⟨fun e he => (h.le e he).trans (Nat.le_succ d), ?_⟩
  rw [sum_pow_succ h.le, Nat.pow_succ]
  have := h.kraft
  omega

theorem Lengths.pred {d : Nat} {g : List (Nat × Nat)} (h : Lengths (d + 1) g) (hl : ∀ e ∈ g, e.2 ≤ d) : Lengths d g := by
  refine ⟨hl, ?_⟩
  have := h.kraft
  rw [sum_pow_succ hl, Nat.pow_succ] at this
  omega

/-- Giving the longest length to the lighter of two entries costs no more. -/
theorem swap_le {a w m l : Nat} (haw : a ≤ w) (hlm : l ≤ m) : a * m + w * l ≤ a * l + w * m := by
  obtain ⟨k, rfl⟩ := Nat.exists_eq_add_of_le haw
  obtain ⟨j, rfl⟩ := Nat.exists_eq_add_of_le hlm
  nlinarith [Nat.zero_le (k * j)]

/-- An entry of weight `a`, the least, is given the greatest length `m`, which another entry has; the lengths stay the same, and so
do the other weights. -/
theorem give_longest {m a w : Nat} {h : List (Nat × Nat)} {ws : List Nat} (hp : (w :: h.map Prod.fst).Perm (a :: ws))
    (hm : ∀ e ∈ h, e.2 ≤ m) (hmin : ∀ x ∈ ws, a ≤ x) :
    ∃ h', (h'.map Prod.fst).Perm ws ∧ (h'.map Prod.snd).Perm (h.map Prod.snd) ∧ a * m + costOf h' ≤ w * m + costOf h := by
  by_cases hw : w = a
  · subst hw
    exact ⟨h, (List.perm_cons w).mp hp, List.Perm.refl _, Nat.le_refl _⟩
  · have ha : a ∈ h.map Prod.fst := by
      have : a ∈ w :: h.map Prod.fst := hp.mem_iff.mpr (List.mem_cons_self ..)
      exact (List.mem_cons.mp this).resolve_left fun e => hw e.symm
    obtain ⟨⟨a, l⟩, hx, rfl⟩ := List.mem_map.mp ha
    have hh := List.perm_cons_erase hx
    generalize h.erase (a, l) = h0 at hh
    have hws : (w :: h0.map Prod.fst).Perm ws := by
      have h1 : (w :: h.map Prod.fst).Perm (w :: a :: h0.map Prod.fst) := (hh.map Prod.fst).cons w
      exact List.Perm.cons_inv ((List.Perm.swap _ _ _).trans (h1.symm.trans hp))
    refine ⟨(w, l) :: h0, hws, (hh.map Prod.snd).symm, ?_⟩
    have := swap_le (hmin w (hws.mem_iff.mp (List.mem_cons_self ..))) (hm _ hx)
    rw [costOf_perm hh]
    simp only [costOf, List.map_cons, List.sum_cons] at this ⊢
    omega

/-- One merge as a lower bound: from any lengths for the weights `a`, `c` (the two least) and `ws` come lengths for the merged
weight and `ws` that save at least `a + c` (41_tree_builder.md R167). -/
theorem merge_lengths {a c : Nat} {ws : List Nat} (hac : a ≤ c) (hc : ∀ x ∈ ws, c ≤ x) : ∀ {d : Nat} {g : List (Nat × Nat)},
    Lengths d g → (g.map Prod.fst).Perm (a :: c :: ws) →
    ∃ d' g', Lengths d' g' ∧ (g'.map Prod.fst).Perm ((a + c) :: ws) ∧ costOf g' + (a + c) ≤ costOf g := by
  intro d
  induction d with
  | zero =>
    intro g hL hp
    exfalso
    have h1 := hL.kraft
    have h2 := hp.length_eq
    simp at h1 h2
    omega
  | succ d ih =>
    intro g hL hp
    by_cases h1 : ∃ e ∈ g, e.2 = d + 1
    · obtain ⟨⟨w, _⟩, he, rfl⟩ := h1
      have hg := List.perm_cons_erase he
      generalize g.erase (w, d + 1) = g1 at hg
      have hL1 := hL.congr (hg.map Prod.snd)
      have hp1 := (hg.map Prod.fst).symm.trans hp
      rw [costOf_perm hg]
      by_cases h2 : ∃ e ∈ g1, e.2 = d + 1
      · obtain ⟨e, he2, hed⟩ := h2
        have hle : ∀ e ∈ g1, e.2 ≤ d + 1 := fun e he => hL1.le e (by simp [he])
        obtain ⟨g2, hw2, hl2, hcost2⟩ := give_longest (m := d + 1) hp1 hle (by
          intro x hx
          rcases List.mem_cons.mp hx with rfl | hx
          · exact hac
          · exact hac.trans (hc x hx))
        obtain ⟨⟨w2, _⟩, he2, rfl⟩ := List.mem_map.mp (hl2.mem_iff.mpr (List.mem_map.mpr ⟨e, he2, hed⟩))
        have hg2 := List.perm_cons_erase he2
        generalize g2.erase (w2, d + 1) = g3 at hg2
        have hl3 := (hg2.map Prod.snd).symm.trans hl2
        obtain ⟨g4, hw4, hl4, hcost4⟩ := give_longest (m := d + 1) (h := g3) (w := w2) (a := c) (ws := ws)
          ((hg2.map Prod.fst).symm.trans hw2)
          (fun e he => by
            obtain ⟨x, hx, hxe⟩ := List.mem_map.mp (hl3.mem_iff.mp (List.mem_cons_of_mem _ (List.mem_map_of_mem he)))
            exact hxe ▸ hle x hx) hc
        have hL4 : Lengths (d + 1) ((a, d + 1) :: (c, d + 1) :: g4) :=
          hL1.congr (((hl4.cons _).trans hl3).symm.cons _)
        refine ⟨d + 1, (a + c, d) :: g4, ⟨fun e he => ?_, ?_⟩, hw4.cons _, ?_⟩
        · rcases List.mem_cons.mp he with rfl | he
          · exact Nat.le_succ d
          · exact hL4.le e (by simp [he])
        · have := hL4.kraft
          simp only [List.map_cons, List.sum_cons, Nat.sub_self, Nat.pow_zero, Nat.add_sub_cancel_left] at this ⊢
          omega
        · rw [costOf_perm hg2] at hcost2
          simp only [costOf, List.map_cons, List.sum_cons] at hcost2 hcost4 ⊢
          nlinarith
      · have hlow : ∀ e ∈ g1, e.2 ≤ d := fun e he => by
          have := hL1.le e (by simp [he])
          have : e.2 ≠ d + 1 := fun h => h2 ⟨e, he, h⟩
          omega
        have hk := hL1.kraft
        rw [List.map_cons, List.sum_cons, sum_pow_succ hlow, Nat.pow_succ] at hk
        simp only [Nat.sub_self, Nat.pow_zero] at hk
        have hL' : Lengths d ((w, d) :: g1) := by
          refine ⟨fun e he => ?_, ?_⟩
          · rcases List.mem_cons.mp he with rfl | he
            · exact Nat.le_refl d
            · exact hlow e he
          · rw [List.map_cons, List.sum_cons]
            simp only [Nat.sub_self, Nat.pow_zero]
            omega
        obtain ⟨d', g', h3, h4, h5⟩ := ih hL' hp1
        refine ⟨d', g', h3, h4, h5.trans ?_⟩
        simp only [costOf, List.map_cons, List.sum_cons]
        nlinarith
    · exact ih (hL.pred fun e he => by
        have := hL.le e he
        have : e.2 ≠ d + 1 := fun h => h1 ⟨e, he, h⟩
        omega) hp

/-! The tree of BUILD. -/

/-- Σ over the leaves of frequency times depth: the sum of the internal nodes' frequencies. -/
def Tree.cost : Tree → Nat
  | .leaf _ _ => 0
  | .node l r => l.cost + r.cost + (l.freq + r.freq)

theorem Tree.cost_eq {w : Byte → Nat} {t : Tree} (h : ∀ e ∈ t.leaves, e.2.toNat = w e.1) :
    (t.paths.map fun e => w e.1 * e.2.length).sum = t.cost ∧ (t.paths.map fun e => w e.1).sum = t.freq := by
  induction t with
  | leaf x f => simpa [Tree.paths, Tree.cost, Tree.freq, Tree.leaves, eq_comm] using h
  | node l r ihl ihr =>
    obtain ⟨h1, h2⟩ := ihl fun e he => h e (by simp [Tree.leaves, he])
    obtain ⟨h3, h4⟩ := ihr fun e he => h e (by simp [Tree.leaves, he])
    simp only [Tree.paths, List.map_append, List.sum_append, List.map_map, Function.comp_def, List.length_cons, Tree.cost, Tree.freq,
      Nat.mul_add, Nat.mul_one, List.sum_map_add, h1, h2, h3, h4, and_true]
    omega

/-- Along the merge loop the trees of the queue grow into one whose cost no lengths for the queue's keys beat. -/
theorem mergeLoop_optimal {s : State} : ∀ (fuel : Nat) (b b' : Builder) (f : List (Key × Tree)), Building s b f →
    b.queue.length ≤ fuel → mergeLoop fuel b = .done b' → ∃ f', Building s b' f' ∧ b'.queue.length ≤ 1 ∧
      ∀ d g, Lengths d g → (g.map Prod.fst).Perm (f.map fun e => e.1.freq) →
        (f'.map fun e => e.2.cost).sum ≤ (f.map fun e => e.2.cost).sum + costOf g := by
  intro fuel
  induction fuel with
  | zero =>
    intro b b' f h hl hm
    cases hm
    exact ⟨f, h, by omega, fun _ _ _ _ => Nat.le_add_right _ _⟩
  | succ fuel ih =>
    intro b b' f h hl hm
    rw [mergeLoop] at hm
    cases hx : extractTwo b.queue with
    | none =>
      rw [hx] at hm
      cases hm
      exact ⟨f, h, extractTwo_eq_none.mp hx, fun _ _ _ _ => Nat.le_add_right _ _⟩
    | some e =>
      obtain ⟨a, c, rest⟩ := e
      rw [hx] at hm
      simp only at hm
      split at hm
      · cases hm
      · next ho =>
        obtain ⟨f1, ta, tc, hf, hb⟩ := building_merge h hx (by omega)
        obtain ⟨hp, hac, hrest⟩ := extractTwo_eq_some hx
        have hlen := hp.length_eq
        simp only [List.length_cons] at hlen
        obtain ⟨f', h1, h2, h3⟩ := ih _ _ _ hb (by simp only [Builder.add, List.length_cons]; omega) hm
        refine ⟨f', h1, h2, fun d g hL hg => ?_⟩
        have hle : ∀ {x y : Key}, (y = x ∨ x.before y = true) → x.freq ≤ y.freq := by
          rintro x y (rfl | hxy)
          · exact Nat.le_refl _
          · rw [Key.before_iff] at hxy; omega
        have hq1 : (f1.map Prod.fst).Perm rest :=
          List.Perm.cons_inv (List.Perm.cons_inv (((hf.map Prod.fst).symm.trans h.queue).trans hp.symm))
        have hta := (h.perm hf).trees (a, ta) (by simp)
        have htc := (h.perm hf).trees (c, tc) (by simp)
        obtain ⟨d', g', hL', hg', hcost⟩ := merge_lengths (a := a.freq) (c := c.freq) (ws := f1.map fun e => e.1.freq) (hle hac)
          (by
            intro x hx'
            obtain ⟨e, he, rfl⟩ := List.mem_map.mp hx'
            exact hle (hrest e.1 (hq1.mem_iff.mp (List.mem_map_of_mem he)))) hL
          (hg.trans (hf.map fun e => e.1.freq))
        have h4 := h3 d' g' hL' hg'
        have h5 := (hf.map fun e => e.2.cost).sum_eq
        simp only [List.map_cons, List.sum_cons, Tree.cost] at h4 h5
        have h6 := hta.2.1
        have h7 := htc.2.1
        simp only at h6 h7
        omega

end Sys2Proof.Machine
end

