-- ==== Sys2Proof/Laws/Pack.lean ====
section
/-! SUPPORT. ENCODE's first pass (43_bit_packer.md R212) and the bytes it writes (R214). -/

namespace Sys2Proof.Machine

/-- The encoded sequence of SYM_BUF[0..n−1] (43_bit_packer.md R214). -/
theorem encodedBits_inputSymbols (s : State) (n : Nat) :
    encodedBits s (inputSymbols s n) = (List.range n).flatMap fun i => codeOf s (symRead s i) := by
  simp [encodedBits, inputSymbols, List.flatMap_map]

theorem firstUncoded_eq_none {s : State} {xs : List Byte} : ∀ {i : Nat}, firstUncoded s i xs = none ↔ ∀ x ∈ xs, HasCode s x := by
  induction xs with
  | nil => intro i; simp [firstUncoded]
  | cons x xs ih =>
    intro i
    simp only [firstUncoded]
    split
    · next h => simp [HasCode, h]
    · next h => rw [ih]; simp [HasCode, h]

/-- The pass stops at the first symbol without a code (43_bit_packer.md R212). -/
theorem firstUncoded_eq_some {s : State} {xs : List Byte} {x : Byte} : ∀ {i k : Nat}, xs[k]? = some x → ¬ HasCode s x →
    (∀ m < k, ∀ y, xs[m]? = some y → HasCode s y) → firstUncoded s i xs = some (i + k) := by
  induction xs with
  | nil => intro i k h; simp at h
  | cons y ys ih =>
    intro i k hx hn hb
    simp only [firstUncoded]
    cases k with
    | zero =>
      simp only [List.getElem?_cons_zero, Option.some.injEq] at hx
      subst hx
      rw [if_pos (by simpa [HasCode] using hn)]
      rfl
    | succ k =>
      rw [if_neg (hb 0 (by omega) y (by simp)), ih (by simpa using hx) hn fun m hm z hz => hb (m + 1) (by omega) z (by simpa using hz)]
      congr 1
      omega

theorem firstUncoded_of_inputCoded {s : State} (h : InputCoded s) : firstUncoded s 0 (inputSymbols s s.symLen.toNat) = none := by
  rw [firstUncoded_eq_none]
  intro x hx
  simp only [inputSymbols, List.mem_map, List.mem_range] at hx
  obtain ⟨i, hi, rfl⟩ := hx
  exact h.2 i hi

/-- Everything an ENCODE can do (43_bit_packer.md R211 to R216). -/
theorem execEncode_cases (s : State) : ∃ t, execEncode s = .next t ∧
    ((∃ e info, t = completeErr e info (failEncode s)) ∨
      (InputCoded s ∧ (inputCode s).length / 8 + 2 ≤ s.params.byteBufSize ∧
        t = complete { byteWriteAll 0 (bytesOf ((inputCode s).length / 8 + 2) (packedStream (inputCode s))) s with
          byteLen := BitVec.ofNat 32 ((inputCode s).length / 8 + 2)
          encBits := BitVec.ofNat 32 (inputCode s).length
          pad := BitVec.ofNat 4 (padOf (inputCode s).length) })) := by
  simp only [execEncode, encodedBits_inputSymbols, inputCode]
  split
  · exact ⟨_, rfl, .inl ⟨_, _, rfl⟩⟩
  · next h1 =>
    split
    · exact ⟨_, rfl, .inl ⟨_, _, rfl⟩⟩
    · next h2 =>
      split
      · exact ⟨_, rfl, .inl ⟨_, _, rfl⟩⟩
      · next h3 =>
        refine ⟨_, rfl, .inr ⟨⟨by omega, fun i hi => ?_⟩, by omega, rfl⟩⟩
        exact firstUncoded_eq_none.mp h2 _ (by simpa [inputSymbols] using ⟨i, hi, rfl⟩)

/-- ENCODE of coded symbols that fit (43_bit_packer.md R214, R215). -/
theorem execEncode_of_fits {s : State} (hc : InputCoded s) (hb : (inputCode s).length / 8 + 2 ≤ s.params.byteBufSize) :
    execEncode s = .next (complete { byteWriteAll 0 (bytesOf ((inputCode s).length / 8 + 2) (packedStream (inputCode s))) s with
      byteLen := BitVec.ofNat 32 ((inputCode s).length / 8 + 2)
      encBits := BitVec.ofNat 32 (inputCode s).length
      pad := BitVec.ofNat 4 (padOf (inputCode s).length) }) := by
  have h1 := hc.1
  simp only [execEncode, encodedBits_inputSymbols, firstUncoded_of_inputCoded hc]
  rw [if_neg (by omega), if_neg (by simp only [inputCode] at hb; omega)]
  rfl

end Sys2Proof.Machine
end

