-- ==== Sys2Proof/Laws/PerInstr.lean ====
section
/-! SUPPORT. Statements made of every command, one lemma a command: the format of its word. -/

namespace Sys2Proof.Laws

/-- The word of a command has MBZ = 0, and its OP is one of the seven of the assignment (30_encoding.md R100, R101). -/
def CommandFormat.Statement (i : Instr) : Prop :=
  mbzField (encodeCommand i) = 0#28 ∧ (opField (encodeCommand i)).toNat ≤ 6 ∧ i.WellFormed = true

theorem CommandFormat.nop : CommandFormat.Statement .nop := ⟨by decide, by decide, rfl⟩
theorem CommandFormat.clearFreq : CommandFormat.Statement .clearFreq := ⟨by decide, by decide, rfl⟩
theorem CommandFormat.build : CommandFormat.Statement .build := ⟨by decide, by decide, rfl⟩
theorem CommandFormat.walk : CommandFormat.Statement .walk := ⟨by decide, by decide, rfl⟩
theorem CommandFormat.encode : CommandFormat.Statement .encode := ⟨by decide, by decide, rfl⟩
theorem CommandFormat.decode : CommandFormat.Statement .decode := ⟨by decide, by decide, rfl⟩
theorem CommandFormat.clearTable : CommandFormat.Statement .clearTable := ⟨by decide, by decide, rfl⟩

end Sys2Proof.Laws
end

