-- ==== Sys2Proof/Laws/Unpack.lean ====
section
/-! SUPPORT. DECODE's match function (44_decoder.md R236) and the stretches of its greedy walk (R237). -/

namespace Sys2Proof.Machine

/-! The comparator network. -/

theorem mem_codedSymbols {s : State} {x : Byte} {c : List Bool} :
    (x, c) ∈ codedSymbols s ↔ HasCode s x ∧ c = codeOf s x := by
  simp only [codedSymbols, List.mem_filterMap, List.mem_range]
  constructor
  · rintro ⟨k, -, h⟩
    split at h
    · simp at h
    · next hl =>
      simp only [Option.some.injEq, Prod.mk.injEq] at h
      obtain ⟨rfl, rfl⟩ := h
      exact ⟨hl, rfl⟩
  · rintro ⟨h, rfl⟩
    exact ⟨x.toNat, x.isLt, by simp [h]⟩

theorem nodup_codedSymbols (s : State) : ((codedSymbols s).map Prod.fst).Nodup := by
  unfold codedSymbols List.Nodup
  rw [List.map_filterMap, List.pairwise_filterMap]
  refine List.nodup_range.imp_of_mem fun {a b} ha hb hne x hx y hy hxy => hne ?_
  dsimp only at hx hy
  simp only [List.mem_range] at ha hb
  split at hx
  · simp at hx
  · split at hy
    · simp at hy
    · simp only [Option.map_some, Option.some.injEq] at hx hy
      have h := congrArg BitVec.toNat (hx.trans (hxy.trans hy.symm))
      simpa [Nat.mod_eq_of_lt ha, Nat.mod_eq_of_lt hb] using h

/-- M(acc) as the comparator network finds it (44_decoder.md R236). -/
theorem mem_matching {s : State} {acc : List Bool} {x : Byte} (h : acc ≠ []) :
    x ∈ matching (codedSymbols s) acc ↔ Matches s acc x := by
  simp only [matching, List.mem_map, List.mem_filter, decide_eq_true_eq, Prod.exists, exists_and_right, exists_eq_right,
    mem_codedSymbols]
  constructor
  · rintro ⟨c, ⟨-, rfl⟩, rfl⟩
    exact ⟨(length_codeOf s x).symm, rfl⟩
  · rintro ⟨hl, hc⟩
    refine ⟨fun h0 => h ?_, hc.symm⟩
    rw [← List.length_eq_zero_iff, ← hl, h0]
    rfl

theorem nodup_matching (s : State) (acc : List Bool) : (matching (codedSymbols s) acc).Nodup :=
  (nodup_codedSymbols s).sublist (List.filter_sublist.map Prod.fst)

/-- live(acc) as the comparator network finds it (44_decoder.md R236). -/
theorem live_iff {s : State} {acc : List Bool} : live (codedSymbols s) acc = true ↔ Live s acc := by
  simp only [live, List.any_eq_true, Bool.and_eq_true, decide_eq_true_eq, Prod.exists, mem_codedSymbols, Live]
  constructor
  · rintro ⟨x, c, ⟨-, rfl⟩, hl, ht⟩
    exact ⟨x, by simpa using hl, ht⟩
  · rintro ⟨x, hl, ht⟩
    refine ⟨x, _, ⟨fun h0 => ?_, rfl⟩, by simpa using hl, ht⟩
    rw [h0] at hl
    exact absurd hl (by simp)

/-- No symbol matches: the network finds none. -/
theorem matching_eq_nil {s : State} {acc : List Bool} (h : acc ≠ []) (hm : ∀ x, ¬ Matches s acc x) :
    matching (codedSymbols s) acc = [] :=
  List.eq_nil_iff_forall_not_mem.mpr fun x hx => hm x ((mem_matching h).mp hx)

/-- One symbol matches: the network finds that one. -/
theorem matching_eq_singleton {s : State} {acc : List Bool} {x : Byte} (h : acc ≠ []) (hm : ∀ y, Matches s acc y ↔ y = x) :
    matching (codedSymbols s) acc = [x] := by
  have hp : (matching (codedSymbols s) acc).Perm [x] := (List.perm_ext_iff_of_nodup (nodup_matching s acc) (by simp)).mpr
    fun y => by rw [mem_matching h, hm y, List.mem_singleton]
  exact List.perm_singleton.mp hp

/-- Two symbols match: the network finds two or more. -/
theorem matching_eq_two {s : State} {acc : List Bool} {x y : Byte} (h : acc ≠ []) (hxy : x ≠ y) (hx : Matches s acc x)
    (hy : Matches s acc y) : ∃ a b l, matching (codedSymbols s) acc = a :: b :: l := by
  have hx' := (mem_matching h).mpr hx
  have hy' := (mem_matching h).mpr hy
  match hm : matching (codedSymbols s) acc with
  | [] => rw [hm] at hx'; simp at hx'
  | [a] => rw [hm] at hx' hy'; simp at hx' hy'; exact absurd (hx'.trans hy'.symm) hxy
  | a :: b :: l => exact ⟨a, b, l, rfl⟩

/-! Stretches of the walk. -/

/-- While nothing resolves, the walk only accumulates (44_decoder.md R237). -/
theorem greedyWalk_unresolved {s : State} {cap : Nat} {bits : List Bool} {start : Nat} {out : List Byte} :
    ∀ (c acc : List Bool) (k : Nat),
      (∀ n, 0 < n → n ≤ c.length → (∀ x, ¬ Matches s (acc ++ c.take n) x) ∧ Live s (acc ++ c.take n)) →
      greedyWalk (codedSymbols s) cap (c ++ bits) k acc start out =
        greedyWalk (codedSymbols s) cap bits (k + c.length) (acc ++ c) start out := by
  intro c
  induction c with
  | nil => intro acc k _; simp
  | cons b c ih =>
    intro acc k h
    have h1 := h 1 (by omega) (by simp)
    simp only [List.take_succ_cons, List.take_zero] at h1
    rw [List.cons_append, greedyWalk, matching_eq_nil (by simp) h1.1, live_iff.mpr h1.2]
    simp only [if_true]
    rw [ih (acc ++ [b]) (k + 1) ?_]
    · simp [Nat.add_assoc, Nat.add_comm 1]
    · intro n hn hn'
      have := h (n + 1) (by omega) (by simpa using hn')
      simpa using this

/-- The walk reads a stretch `c` up to its last bit `b`, where the accumulation ends (44_decoder.md R237). -/
theorem greedyWalk_resolves {s : State} {cap : Nat} {bits c : List Bool} {k : Nat} {out : List Byte} (h : ResolvesAt s c) :
    greedyWalk (codedSymbols s) cap (c ++ bits) k [] k out =
      match matching (codedSymbols s) c with
      | [x] => if out.length = cap then .error (.outOvf, k)
        else greedyWalk (codedSymbols s) cap bits (k + c.length) [] (k + c.length) (out ++ [x])
      | [] => if live (codedSymbols s) c then greedyWalk (codedSymbols s) cap bits (k + c.length) c k out
        else .error (.decodeNoMatch, k)
      | _ :: _ :: _ => .error (.tableAmbig, k) := by
  obtain ⟨hc, hu⟩ := h
  obtain ⟨d, b, rfl⟩ : ∃ d b, c = d ++ [b] := ⟨c.dropLast, c.getLast hc, (List.dropLast_append_getLast hc).symm⟩
  rw [List.dropLast_concat] at hu
  rw [List.append_assoc, greedyWalk_unresolved d [] k fun n hn hn' => hu n hn hn']
  simp only [List.nil_append, List.singleton_append, greedyWalk, List.length_append, List.length_singleton, Nat.add_assoc]
  try rfl

/-- The walk emits a list of symbols that fits, and stands at the bit after them with nothing accumulated (44_decoder.md R237). -/
theorem greedyWalk_emits {s : State} {cap : Nat} {rest p : List Bool} {xs : List Byte} (h : Emits s p xs) :
    ∀ (k : Nat) (out : List Byte), out.length + xs.length ≤ cap →
      greedyWalk (codedSymbols s) cap (p ++ rest) k [] k out =
        greedyWalk (codedSymbols s) cap rest (k + p.length) [] (k + p.length) (out ++ xs) := by
  induction h with
  | nil => intro k out _; simp
  | cons c x bits xs hr hm _ ih =>
    intro k out hl
    rw [List.length_cons] at hl
    rw [List.append_assoc, greedyWalk_resolves hr, matching_eq_singleton hr.1 hm]
    simp only
    rw [if_neg (by omega), ih _ _ (by simp; omega)]
    simp [Nat.add_assoc]

/-- The walk never emits more than SYM_BUF holds (44_decoder.md R239). -/
theorem length_greedyWalk {codes : List (Byte × List Bool)} {cap : Nat} : ∀ (bits : List Bool) (k : Nat) (acc : List Bool)
    (start : Nat) (out xs : List Byte), out.length ≤ cap → greedyWalk codes cap bits k acc start out = .ok xs → xs.length ≤ cap := by
  intro bits
  induction bits with
  | nil =>
    intro k acc start out xs ho h
    simp only [greedyWalk] at h
    split at h
    · cases h; exact ho
    · simp at h
  | cons b bits ih =>
    intro k acc start out xs ho h
    simp only [greedyWalk] at h
    split at h
    · split at h
      · simp at h
      · exact ih _ _ _ _ _ (by simp; omega) h
    · split at h
      · exact ih _ _ _ _ _ ho h
      · simp at h
    · simp at h

/-- Of the bits of the stream the walk reads the payload alone (44_decoder.md R235): its length. -/
theorem length_inputBits (s : State) (b : Nat) : (inputBits s b).length = 8 * b := by
  induction b with
  | zero => rfl
  | succ b ih => simp only [inputBits, List.range_succ, List.flatMap_append, List.length_append] at *; simp [ih]; omega

/-- Stream bit 8j+k is bit 7−k of BYTE_BUF[j] (20_memory.md R84, 44_decoder.md R233). -/
theorem getElem?_inputBits {s : State} {b i : Nat} (h : i < 8 * b) :
    (inputBits s b)[i]? = some ((byteRead s (i / 8)).getLsbD (7 - i % 8)) := by
  induction b with
  | zero => omega
  | succ b ih =>
    have he : inputBits s (b + 1) = inputBits s b ++ byteBits (byteRead s b) := by
      simp [inputBits, List.range_succ]
    rw [he]
    by_cases hi : i < 8 * b
    · rw [List.getElem?_append_left (by rw [length_inputBits]; exact hi), ih hi]
    · have h1 : i / 8 = b := by omega
      have h2 : i % 8 = i - 8 * b := by omega
      rw [List.getElem?_append_right (by rw [length_inputBits]; omega), length_inputBits, h1, h2,
        getElem?_byteBits _ (by omega)]

theorem length_payloadBits {s : State} {b h : Nat} : (payloadBits s b h).length = 8 * (b - 1) - h := by
  simp only [payloadBits, List.length_take, List.length_drop, length_inputBits]
  omega

/-- The payload bit by bit (44_decoder.md R235). -/
theorem getElem?_payloadBits {s : State} {b h k : Nat} (hk : k < 8 * (b - 1) - h) :
    (payloadBits s b h)[k]? = some ((byteRead s (k / 8 + 1)).getLsbD (7 - k % 8)) := by
  rw [payloadBits, List.getElem?_take_of_lt hk, List.getElem?_drop, getElem?_inputBits (by omega),
    show (8 + k) / 8 = k / 8 + 1 by omega, show (8 + k) % 8 = k % 8 by omega]

/-- The payload of DECODE is P (44_decoder.md R235). -/
theorem isPayload_iff {s : State} {p : List Bool} :
    IsPayload s p ↔ p = payloadBits s s.byteLen.toNat (byteRead s 0).toNat := by
  constructor
  · rintro ⟨hl, hb⟩
    apply List.ext_getElem?
    intro k
    by_cases hk : k < p.length
    · rw [hb k hk, getElem?_payloadBits (hl ▸ hk)]
    · rw [List.getElem?_eq_none (by omega), List.getElem?_eq_none (by rw [length_payloadBits]; omega)]
  · rintro rfl
    exact ⟨length_payloadBits, fun k hk => getElem?_payloadBits (by rwa [length_payloadBits] at hk)⟩

end Sys2Proof.Machine
end

