-- ==== Sys2Proof/Laws/Step.lean ====
section
/-! SUPPORT. Everything a command, the engine and a step can do, once. -/

namespace Sys2Proof.Machine

/-- Everything a DECODE can do (44_decoder.md R231 to R241). -/
theorem execDecode_cases (s : State) : ∃ t, execDecode s = .next t ∧
    ((∃ e info, t = completeErr e info (failDecode s)) ∨
      (s.byteLen = 0#32 ∧ t = complete { s with symLen := 0#32, encBits := 0#32, pad := 0#4 }) ∨
      ∃ xs p, HeaderOk s ∧ IsPayload s p ∧ greedyWalk (codedSymbols s) s.params.symBufSize p 0 [] 0 [] = .ok xs ∧
        xs.length ≤ s.params.symBufSize ∧ t = complete { symWriteAll 0 xs s with
          symLen := BitVec.ofNat 32 xs.length
          encBits := BitVec.ofNat 32 p.length
          pad := BitVec.ofNat 4 (byteRead s 0).toNat }) := by
  simp only [execDecode]
  split
  · exact ⟨_, rfl, .inl ⟨_, _, rfl⟩⟩
  split
  · next h => exact ⟨_, rfl, .inr (.inl ⟨BitVec.eq_of_toNat_eq (by simpa using h), rfl⟩)⟩
  split
  · exact ⟨_, rfl, .inl ⟨_, _, rfl⟩⟩
  split
  · exact ⟨_, rfl, .inl ⟨_, _, rfl⟩⟩
  split
  · exact ⟨_, rfl, .inl ⟨_, _, rfl⟩⟩
  · next xs hw =>
    exact ⟨_, rfl, .inr (.inr ⟨xs, _, ⟨by omega, by omega, by omega, by omega⟩, isPayload_iff.mpr rfl, hw,
      length_greedyWalk _ _ _ _ _ _ (Nat.zero_le _) hw, rfl⟩)⟩

/-- DECODE from the walk on: the header is legal (44_decoder.md R235 to R241). -/
theorem execDecode_of_headerOk {s : State} {p : List Bool} (hh : HeaderOk s) (hp : IsPayload s p) :
    execDecode s = match greedyWalk (codedSymbols s) s.params.symBufSize p 0 [] 0 [] with
      | .error (e, start) => .next (completeErr e (BitVec.ofNat 32 start) (failDecode s))
      | .ok xs => .next (complete { symWriteAll 0 xs s with
          symLen := BitVec.ofNat 32 xs.length
          encBits := BitVec.ofNat 32 p.length
          pad := BitVec.ofNat 4 (byteRead s 0).toNat }) := by
  obtain ⟨h1, h2, h3, h4⟩ := hh
  rw [isPayload_iff.mp hp]
  simp only [execDecode]
  rw [if_neg (by omega), if_neg (by omega), if_neg (by omega), if_neg (by omega)]
  try rfl

/-- Everything a WALK can do (42_code_table.md R190 to R195). -/
theorem execWalk_cases (s : State) :
    (s.treeValid = false ∧ execWalk s = .next (completeErr .noTree 0#32 s)) ∨
      (s.treeValid = true ∧ ((walkTable s = none ∧ execWalk s = .fault .arenaIsNoTree) ∨
        ∃ m, walkTable s = some m ∧ execWalk s = .next (complete { s with ct := m }))) := by
  unfold execWalk
  cases ht : s.treeValid
  · exact .inl ⟨rfl, by simp⟩
  · refine .inr ⟨rfl, ?_⟩
    cases hm : walkTable s with
    | none => exact .inl ⟨rfl, by simp⟩
    | some m => exact .inr ⟨m, rfl, by simp⟩

/-- Everything a BUILD can do (41_tree_builder.md R164 to R170). -/
theorem execBuild_cases (s : State) : ∃ t b, execBuild s = .next t ∧
    ((mergeLoop (loadedBuilder s).n (loadedBuilder s) = .done b ∧ t = complete { s with
        node := { s.node with cells := b.cells }
        nleaf := BitVec.ofNat 9 (loadedBuilder s).n
        nnode := BitVec.ofNat 9 b.n
        root := rootOf b
        treeValid := true }) ∨
      (mergeLoop (loadedBuilder s).n (loadedBuilder s) = .overflow b ∧ t = completeErr .freqOvf (BitVec.ofNat 32 b.n) { s with
        node := { s.node with cells := b.cells }
        nleaf := BitVec.ofNat 9 (loadedBuilder s).n
        nnode := BitVec.ofNat 9 b.n
        root := noneIndex
        treeValid := false })) := by
  simp only [execBuild]
  split
  · next b hb => exact ⟨_, b, rfl, .inl ⟨hb, rfl⟩⟩
  · next b hb => exact ⟨_, b, rfl, .inr ⟨hb, rfl⟩⟩

/-- What every command leaves, and the two forms of its completion (40_command_control.md R132 to R134). -/
structure Completes (s t : State) : Prop where
  phase     : t.phase = .idle
  done      : t.done = true
  lastOp    : t.lastOp = s.lastOp
  irqEn     : t.irqEn = s.irqEn
  ctSel     : t.ctSel = s.ctSel
  nodeSel   : t.nodeSel = s.nodeSel
  params    : t.params = s.params
  events    : t.events = s.events
  responses : t.responses = s.responses
  outcome   : (t.err = s.err ∧ t.errCode = s.errCode ∧ t.errInfo = s.errInfo ∧ t.irqStatus = s.irqStatus ||| 1#2) ∨
    (t.err = true ∧ (∃ e, t.errCode = some e) ∧ t.irqStatus = s.irqStatus ||| 3#2)

/-- Every command that does not fault completes (40_command_control.md R132). -/
theorem exec_completes {i : Instr} {s t : State} (h : exec i s = .next t) : Completes s t := by
  cases i with
  | nop => cases h; exact ⟨rfl, rfl, rfl, rfl, rfl, rfl, rfl, rfl, rfl, .inl ⟨rfl, rfl, rfl, rfl⟩⟩
  | clearFreq => cases h; exact ⟨rfl, rfl, rfl, rfl, rfl, rfl, rfl, rfl, rfl, .inl ⟨rfl, rfl, rfl, rfl⟩⟩
  | clearTable => cases h; exact ⟨rfl, rfl, rfl, rfl, rfl, rfl, rfl, rfl, rfl, .inl ⟨rfl, rfl, rfl, rfl⟩⟩
  | build =>
    obtain ⟨u, b, hu, ⟨-, rfl⟩ | ⟨-, rfl⟩⟩ := execBuild_cases s
    · cases hu.symm.trans h; exact ⟨rfl, rfl, rfl, rfl, rfl, rfl, rfl, rfl, rfl, .inl ⟨rfl, rfl, rfl, rfl⟩⟩
    · cases hu.symm.trans h; exact ⟨rfl, rfl, rfl, rfl, rfl, rfl, rfl, rfl, rfl, .inr ⟨rfl, ⟨_, rfl⟩, rfl⟩⟩
  | walk =>
    obtain ⟨-, hu⟩ | ⟨-, ⟨-, hu⟩ | ⟨m, -, hu⟩⟩ := execWalk_cases s
    · cases hu.symm.trans h; exact ⟨rfl, rfl, rfl, rfl, rfl, rfl, rfl, rfl, rfl, .inr ⟨rfl, ⟨_, rfl⟩, rfl⟩⟩
    · cases hu.symm.trans h
    · cases hu.symm.trans h; exact ⟨rfl, rfl, rfl, rfl, rfl, rfl, rfl, rfl, rfl, .inl ⟨rfl, rfl, rfl, rfl⟩⟩
  | encode =>
    obtain ⟨u, hu, ⟨e, info, rfl⟩ | ⟨-, -, rfl⟩⟩ := execEncode_cases s
    · cases hu.symm.trans h; exact ⟨rfl, rfl, rfl, rfl, rfl, rfl, rfl, rfl, rfl, .inr ⟨rfl, ⟨_, rfl⟩, rfl⟩⟩
    · cases hu.symm.trans h; exact ⟨rfl, rfl, rfl, rfl, rfl, rfl, rfl, rfl, rfl, .inl ⟨rfl, rfl, rfl, rfl⟩⟩
  | decode =>
    obtain ⟨u, hu, ⟨e, info, rfl⟩ | ⟨-, rfl⟩ | ⟨xs, p, -, -, -, -, rfl⟩⟩ := execDecode_cases s
    · cases hu.symm.trans h; exact ⟨rfl, rfl, rfl, rfl, rfl, rfl, rfl, rfl, rfl, .inr ⟨rfl, ⟨_, rfl⟩, rfl⟩⟩
    · cases hu.symm.trans h; exact ⟨rfl, rfl, rfl, rfl, rfl, rfl, rfl, rfl, rfl, .inl ⟨rfl, rfl, rfl, rfl⟩⟩
    · cases hu.symm.trans h; exact ⟨rfl, rfl, rfl, rfl, rfl, rfl, rfl, rfl, rfl, .inl ⟨rfl, rfl, rfl, rfl⟩⟩

/-- Only WALK can end in anything but a next state (log 6). -/
theorem exec_next_or_walk (i : Instr) (s : State) :
    (∃ t, exec i s = .next t) ∨ (i = .walk ∧ s.treeValid = true ∧ walkTable s = none) := by
  cases i with
  | nop => exact .inl ⟨_, rfl⟩
  | clearFreq => exact .inl ⟨_, rfl⟩
  | clearTable => exact .inl ⟨_, rfl⟩
  | build => obtain ⟨t, -, h, -⟩ := execBuild_cases s; exact .inl ⟨t, h⟩
  | encode => obtain ⟨t, h, -⟩ := execEncode_cases s; exact .inl ⟨t, h⟩
  | decode => obtain ⟨t, h, -⟩ := execDecode_cases s; exact .inl ⟨t, h⟩
  | walk =>
    obtain ⟨-, h⟩ | ⟨ht, ⟨hm, -⟩ | ⟨m, -, h⟩⟩ := execWalk_cases s
    · exact .inl ⟨_, h⟩
    · exact .inr ⟨rfl, ht, hm⟩
    · exact .inl ⟨_, h⟩

/-- Everything the engine can do (40_command_control.md R132, R136). -/
theorem engineStep_cases (s : State) :
    (s.phase = .idle ∧ engineStep s = .next s) ∨
      ∃ w, s.phase = .busy w ∧ ((∃ i, decodeCommand w = .ok i ∧ engineStep s = exec i s) ∨
        ((∃ r, decodeCommand w = .error r) ∧ engineStep s = .next (completeErr .illegalCmd w s))) := by
  unfold engineStep
  cases hp : s.phase with
  | idle => exact .inl ⟨rfl, rfl⟩
  | busy w =>
    refine .inr ⟨w, rfl, ?_⟩
    cases hd : decodeCommand w with
    | ok i => exact .inl ⟨i, rfl, by simp only [hd]⟩
    | error r => exact .inr ⟨⟨r, rfl⟩, by simp only [hd]; rfl⟩

/-- Everything a step can do (20_memory.md R86). -/
theorem step_cases (s : State) :
    (s.events = [] ∧ step s = engineStep s) ∨
      ∃ rest, (s.events = .engine :: rest ∧ step s = engineStep { s with events := rest }) ∨
        (∃ t, s.events = .bus t :: rest ∧ step s = .next (busStep t { s with events := rest })) ∨
        (s.events = .reset :: rest ∧ step s = .next (resetEvent { s with events := rest })) := by
  unfold step
  cases hs : s.events with
  | nil => exact .inl ⟨rfl, rfl⟩
  | cons e rest =>
    refine .inr ⟨rest, ?_⟩
    cases e with
    | bus t => exact .inr (.inl ⟨t, rfl, rfl⟩)
    | engine => exact .inl ⟨rfl, rfl⟩
    | reset => exact .inr (.inr ⟨rfl, rfl⟩)

end Sys2Proof.Machine
end

