-- ==== Sys2Proof/Laws/Script.lean ====
section
/-! SUPPORT. What a turn of a host script's run can do, and that no step of the machine reads the queue of events. -/

namespace Sys2Proof.Machine

/-! The queue of events is not read by what happens (20_memory.md R86). -/

theorem loadLeaves_congr {s t : State} (h : s.freq = t.freq) (ks : List Nat) : ∀ b, loadLeaves s ks b = loadLeaves t ks b := by
  induction ks with
  | nil => intro b; rfl
  | cons k ks ih => intro b; simp only [loadLeaves, freqRead, h]; exact ih _

theorem visit_congr {s t : State} (h : s.node = t.node) (fuel : Nat) : ∀ i c d m, visit s fuel i c d m = visit t fuel i c d m := by
  induction fuel with
  | zero => intros; rfl
  | succ fuel ih => intro i c d m; simp only [visit, nodeRead_congr h, ih]

theorem firstUncoded_congr {s t : State} (h : s.ct = t.ct) (xs : List Byte) : ∀ i, firstUncoded s i xs = firstUncoded t i xs := by
  induction xs with
  | nil => intro i; rfl
  | cons x xs ih => intro i; simp only [firstUncoded, ctRead_congr h, ih]

theorem execBuild_withEvents (s : State) (es : List Event) {t : State} (h : execBuild s = .next t) :
    execBuild { s with events := es } = .next { t with events := es } := by
  have hl : loadedBuilder { s with events := es } = loadedBuilder s := loadLeaves_congr (by rfl) _ _
  unfold execBuild at h ⊢
  simp only [hl]
  cases hm : mergeLoop (loadedBuilder s).n (loadedBuilder s) <;> simp only [hm] at h ⊢ <;> cases h <;> rfl

theorem execWalk_withEvents (s : State) (es : List Event) {t : State} (h : execWalk s = .next t) :
    execWalk { s with events := es } = .next { t with events := es } := by
  have hw : walkTable { s with events := es } = walkTable s := by
    unfold walkTable
    rw [visit_congr (by rfl : ({ s with events := es } : State).node = s.node)]
    rfl
  unfold execWalk at h ⊢
  rw [hw]
  split at h
  · next ht =>
    rw [if_pos ht]
    cases hm : walkTable s <;> simp only [hm] at h ⊢ <;> cases h
    rfl
  · next ht => rw [if_neg ht]; cases h; rfl

theorem execEncode_withEvents (s : State) (es : List Event) {t : State} (h : execEncode s = .next t) :
    execEncode { s with events := es } = .next { t with events := es } := by
  have hf := firstUncoded_congr (by rfl : ({ s with events := es } : State).ct = s.ct) (inputSymbols s s.symLen.toNat) 0
  have hx : inputSymbols { s with events := es } s.symLen.toNat = inputSymbols s s.symLen.toNat := rfl
  have he : encodedBits { s with events := es } (inputSymbols s s.symLen.toNat) =
      encodedBits s (inputSymbols s s.symLen.toNat) := rfl
  simp only [execEncode] at h ⊢
  rw [hx, hf, he]
  split at h
  · next hn => rw [if_pos hn]; cases h; rfl
  · next hn =>
    rw [if_neg hn]
    cases hu : firstUncoded s 0 (inputSymbols s s.symLen.toNat) with
    | some i => simp only [hu] at h ⊢; cases h; rfl
    | none =>
      simp only [hu] at h ⊢
      split at h
      · next hb => rw [if_pos hb]; cases h; rfl
      · next hb => rw [if_neg hb]; cases h; rfl

theorem execDecode_withEvents (s : State) (es : List Event) {t : State} (h : execDecode s = .next t) :
    execDecode { s with events := es } = .next { t with events := es } := by
  have hb : byteRead { s with events := es } 0 = byteRead s 0 := rfl
  have hc : codedSymbols { s with events := es } = codedSymbols s := rfl
  have hp : ∀ n k, payloadBits { s with events := es } n k = payloadBits s n k := fun _ _ => rfl
  simp only [execDecode] at h ⊢
  rw [hb, hc, hp]
  split at h
  · next hn => rw [if_pos hn]; cases h; rfl
  rename_i hn; rw [if_neg hn]; clear hn
  split at h
  · next hn => rw [if_pos hn]; cases h; rfl
  rename_i hn; rw [if_neg hn]; clear hn
  split at h
  · next hn => rw [if_pos hn]; cases h; rfl
  rename_i hn; rw [if_neg hn]; clear hn
  split at h
  · next hn => rw [if_pos hn]; cases h; rfl
  rename_i hn; rw [if_neg hn]; clear hn
  cases hw : greedyWalk (codedSymbols s) s.params.symBufSize (payloadBits s s.byteLen.toNat (byteRead s 0).toNat) 0 [] 0 [] <;>
    simp only [hw] at h ⊢ <;> cases h <;> rfl

/-- A command does the same whatever is queued, and keeps the queue (40_command_control.md R132). -/
theorem exec_withEvents {i : Instr} {s t : State} (h : exec i s = .next t) (es : List Event) :
    exec i { s with events := es } = .next { t with events := es } := by
  cases i with
  | nop => cases h; rfl
  | clearFreq => cases h; rfl
  | clearTable => cases h; rfl
  | build => exact execBuild_withEvents s es h
  | walk => exact execWalk_withEvents s es h
  | encode => exact execEncode_withEvents s es h
  | decode => exact execDecode_withEvents s es h

/-- So does the engine (40_command_control.md R132). -/
theorem engineStep_withEvents {s t : State} (h : engineStep s = .next t) (es : List Event) :
    engineStep { s with events := es } = .next { t with events := es } := by
  have hp : ({ s with events := es } : State).phase = s.phase := rfl
  obtain ⟨h1, he⟩ | ⟨w, h1, hc⟩ := engineStep_cases s <;>
    obtain ⟨h2, he'⟩ | ⟨w', h2, hc'⟩ := engineStep_cases { s with events := es } <;> rw [hp, h1] at h2 <;> cases h2
  · rw [he'] ; cases he.symm.trans h; rfl
  · obtain ⟨i, hd, he⟩ | ⟨⟨r, hd⟩, he⟩ := hc <;> obtain ⟨i', hd', he'⟩ | ⟨⟨r', hd'⟩, he'⟩ := hc' <;> cases hd.symm.trans hd'
    · rw [he']; exact exec_withEvents (he.symm.trans h) es
    · rw [he']; cases he.symm.trans h; rfl

theorem busAccess_withEvents (t : Transaction) (s : State) (es : List Event) :
    busAccess t { s with events := es } = ({ (busAccess t s).1 with events := es }, (busAccess t s).2) := by
  have hr : reachedTarget t { s with events := es } = reachedTarget t s := rfl
  unfold busAccess
  rw [hr]
  cases reachedTarget t s with
  | none => rfl
  | some g =>
    cases t.kind with
    | read => exact Prod.ext rfl (congrArg readResponse (by cases g with | reg r => cases r <;> rfl | _ => rfl))
    | write v =>
      cases hro : g.readOnly
      · simp only [hro]
        exact Prod.ext (by cases g with | reg r => cases r <;> rfl | _ => rfl) rfl
      · simp only [hro]; rfl

/-- A step whose event is at the head of the queue: what the event does, with the rest of the queue left (20_memory.md R86). -/
theorem busStep_withEvents (t : Transaction) (s : State) (es : List Event) :
    busStep t { s with events := es } = { busStep t s with events := es } := by
  simp only [busStep, busAccess_withEvents]

/-! The run of a script (30_encoding.md R122). -/

/-- Everything the issue of the next transaction can do (30_encoding.md R120, R121). -/
theorem ScriptRun.issue_cases (r : ScriptRun) :
    (r.todo = [] ∧ r.issue = r) ∨
      ∃ t, r.nextTransaction = some t ∧ r.issue.machine = busStep t r.machine ∧
        r.issue.reads = receive t (busAccess t r.machine).2 r.reads ∧
        ((∃ e as, r.todo = .access t e :: as ∧ r.issue.todo = as ∧
            r.issue.failed = (r.failed || !e.holds (busAccess t r.machine).2)) ∨
          ∃ as, r.todo = .wait :: as ∧ t = statusRead ∧ r.issue.failed = r.failed ∧
            r.issue.todo = if showsBusy (busAccess t r.machine).2 then .wait :: as else as) := by
  obtain ⟨todo, s, reads, failed⟩ := r
  match todo with
  | [] => exact .inl ⟨rfl, rfl⟩
  | .access t e :: as => exact .inr ⟨t, rfl, rfl, rfl, .inl ⟨e, as, rfl, rfl, rfl⟩⟩
  | .wait :: as => exact .inr ⟨statusRead, rfl, rfl, rfl, .inr ⟨as, rfl, rfl, rfl, rfl⟩⟩

/-- Everything a turn can do, when it answers: each is a step of the machine (20_memory.md R86). -/
theorem ScriptRun.turn_cases {r u : ScriptRun} {m : Turn} (h : r.turn m = .next u) :
    (m = .host ∧ u = r.issue) ∨
      (m = .engine ∧ ∃ s, engineStep r.machine = .next s ∧ u = { r with machine := s }) ∨
      (m = .reset ∧ u = { r with machine := resetEvent r.machine }) := by
  cases m with
  | host => cases h; exact .inl ⟨rfl, rfl⟩
  | reset => cases h; exact .inr (.inr ⟨rfl, rfl⟩)
  | engine =>
    simp only [ScriptRun.turn] at h
    split at h <;> cases h
    next s hs => exact .inr (.inl ⟨rfl, s, hs, rfl⟩)

/-- A run in two parts. -/
theorem ScriptRun.play_append (ms ns : List Turn) (r : ScriptRun) :
    ScriptRun.play (ms ++ ns) r = match ScriptRun.play ms r with
      | .next u => ScriptRun.play ns u
      | .fault f => .fault f
      | .refused f => .refused f := by
  induction ms generalizing r with
  | nil => rfl
  | cons m ms ih =>
    simp only [List.cons_append, ScriptRun.play]
    cases r.turn m with
    | next u => exact ih u
    | fault f => rfl
    | refused f => rfl

/-- A poll is answered while BUSY too, and shows it (10_state.md R24, 20_memory.md R80). -/
theorem busAccess_statusRead (s : State) :
    busAccess statusRead s = (s, readResponse (statusWord s)) ∧ showsBusy (readResponse (statusWord s)) = s.phase.isBusy := by
  have hr : reachedTarget statusRead s = some (.reg .status) := by
    have : statusRead.WellFormed := by decide
    have ht : targetAt statusRead.offset = some (.reg .status) := by decide
    rw [reachedTarget, if_pos this, ht]
    simp [Target.isMapped, Target.whileBusy, Reg.whileBusy]
  refine ⟨busAccess_of_read hr rfl, ?_⟩
  simp [showsBusy, readResponse, statusWord, field]

end Sys2Proof.Machine
end

