-- ==== Sys2Proof/Tests/Slice0.lean ====
section
/-! SUPPORT. Tests of one step each, with the expected values of the spec's tables, and for every statement with hypotheses a
witness that meets them. -/

namespace Sys2Proof.Tests

open Sys2Proof Sys2Proof.Machine

/-! What the well-formedness checks refuse. -/

theorem test_params_refuse_size_not_multiple_of_4 : ¬ Params.WellFormed ⟨18, 16, 0⟩ := by decide
theorem test_params_refuse_size_0 : ¬ Params.WellFormed ⟨16, 0, 0⟩ := by decide
theorem test_params_refuse_size_past_65536 : ¬ Params.WellFormed ⟨65540, 16, 0⟩ := by decide
theorem test_transaction_refuses_narrow : ¬ Transaction.WellFormed ⟨.read, 0x20000#18, .one⟩ := by decide
theorem test_transaction_refuses_misaligned : ¬ Transaction.WellFormed ⟨.read, 0x00002#18, .four⟩ := by decide
theorem test_command_refuses_mbz : ¬ CommandWord.WellFormed 0x00000010#32 := by decide
theorem test_command_refuses_reserved : ¬ CommandWord.WellFormed 0x00000007#32 := by decide
theorem test_response_refuses_data_of_err : ¬ Response.WellFormed ⟨.err, 1#32⟩ := by decide

/-! Decoding: the words of 30_encoding.md R101 bit by bit, MBZ (28 bits) then OP (4 bits); R102's illegal words. -/

theorem test_decode_nop : decodeCommand (0b0000000000000000000000000000#28 ++ 0b0000#4) = .ok .nop := by decide
theorem test_decode_clearFreq : decodeCommand (0b0000000000000000000000000000#28 ++ 0b0001#4) = .ok .clearFreq := by decide
theorem test_decode_build : decodeCommand (0b0000000000000000000000000000#28 ++ 0b0010#4) = .ok .build := by decide
theorem test_decode_walk : decodeCommand (0b0000000000000000000000000000#28 ++ 0b0011#4) = .ok .walk := by decide
theorem test_decode_encode : decodeCommand (0b0000000000000000000000000000#28 ++ 0b0100#4) = .ok .encode := by decide
theorem test_decode_decode : decodeCommand (0b0000000000000000000000000000#28 ++ 0b0101#4) = .ok .decode := by decide
theorem test_decode_clearTable : decodeCommand (0b0000000000000000000000000000#28 ++ 0b0110#4) = .ok .clearTable := by decide
theorem test_decode_reserved : decodeCommand (0b0000000000000000000000000000#28 ++ 0b1111#4) = .error .reservedOpcode := by decide
theorem test_decode_mbz : decodeCommand (0b1000000000000000000000000000#28 ++ 0b0000#4) = .error .mustBeZero := by decide

/-! Small states. The symbols 'a', 'b', 'c' are 0x61, 0x62, 0x63 (30_encoding.md R120). -/

/-- The state of an outcome that is a next state. -/
def after : Host.Outcome State Fault Refusal → State
  | .next t => t
  | _ => State.reset

def isNext : Host.Outcome State Fault Refusal → Bool
  | .next _ => true
  | _ => false

theorem next_after {o : Host.Outcome State Fault Refusal} (h : isNext o = true) : o = .next (after o) := by
  cases o <;> simp_all [isNext, after]

/-- The frequencies of V-B1: 'a' 3, 'b' 2, 'c' 1. -/
def abc : State := { State.reset with freq := [(0x61, 3#32), (0x62, 2#32), (0x63, 1#32)] }

/-- Frequencies that overflow (V-B10): 0xFFFFFFFF and 1. -/
def overflowing : State := { State.reset with freq := [(0x00, 0xFFFFFFFF#32), (0x01, 1#32)] }

/-- One symbol, with the greatest frequency. -/
def single : State := { State.reset with freq := [(0x78, 0xFFFFFFFF#32)] }

/-- A code table: 'a' "0", 'b' "11", 'c' "10" (V-W1). -/
def abcTable : Memory CtEntry := [(0x61, ⟨1#8, 0#256⟩), (0x62, ⟨2#8, 3#256⟩), (0x63, ⟨2#8, 2#256⟩)]

/-- 'a' "0" and 'b' "01": not prefix-free (V-D16). -/
def greedyTable : Memory CtEntry := [(0x61, ⟨1#8, 0#256⟩), (0x62, ⟨2#8, 1#256⟩)]

/-- 'a' and 'b' both "0" (V-D11). -/
def ambiguousTable : Memory CtEntry := [(0x61, ⟨1#8, 0#256⟩), (0x62, ⟨1#8, 0#256⟩)]

/-- With symbols to encode. -/
def withSymbols (ct : Memory CtEntry) (xs : List Byte) : State :=
  { symWriteAll 0 xs State.reset with ct := ct, symLen := BitVec.ofNat 32 xs.length }

/-- With bytes to decode. -/
def withBytes (ct : Memory CtEntry) (bs : List Byte) : State :=
  { byteWriteAll 0 bs State.reset with ct := ct, byteLen := BitVec.ofNat 32 bs.length }

/-- V-E1's input, "aaabbc". -/
def aaabbc : List Byte := [0x61#8, 0x61#8, 0x61#8, 0x62#8, 0x62#8, 0x63#8]

/-! One command each. -/

/-- 40_command_control.md R137's example. -/
theorem test_nop_status : statusWord (after (step (accept 0x0#32 State.reset))) = 0x00000002#32 := by decide

/-- 40_command_control.md R138's example. -/
theorem test_clearFreq_a : freqRead (after (exec .clearFreq abc)) 0x61#8 = 0#32 := by decide

/-- 40_command_control.md R139's example. -/
theorem test_clearTable_a : ctRead (after (exec .clearTable (withBytes abcTable []))) 0x62#8 = ⟨0#8, 0#256⟩ := by decide

/-- 40_command_control.md R140's example. -/
theorem test_illegal_status : statusWord (after (step (accept 0x7#32 State.reset))) = 0x00000176#32 := by decide

/-- V-B1: NLEAF 3, NNODE 5, ROOT 4; NODE[3] is 3 over 'c' and 'b', NODE[4] is 6 over 'a' and NODE[3]. -/
theorem test_build_abc : let t := after (exec .build abc)
    t.nleaf = 3#9 ∧ t.nnode = 5#9 ∧ t.root = 4#9 ∧ nodeRead t 3 = ⟨3#32, false, 0#8, 2#9, 1#9⟩ ∧
      nodeRead t 4 = ⟨6#32, false, 0#8, 0#9, 3#9⟩ := by decide +kernel

/-- V-B10: E_FREQ_OVF with ERR_INFO = 2. -/
theorem test_build_overflow : let t := after (exec .build overflowing)
    t.errCode = some .freqOvf ∧ t.errInfo = 2#32 ∧ t.nnode = 2#9 ∧ t.root = 0x1FF#9 := by decide +kernel

/-- V-W1: 'c' gets "10". -/
theorem test_walk_abc : ctRead (after (exec .walk (after (exec .build abc)))) 0x63#8 = ⟨2#8, 2#256⟩ := by decide +kernel

/-- V-W7: WALK after reset. -/
theorem test_walk_no_tree : (after (exec .walk State.reset)).errCode = some .noTree := by decide

/-- V-E1: 07 1F 00. -/
theorem test_encode_abc : let t := after (exec .encode (withSymbols abcTable aaabbc))
    (List.range 3).map (byteRead t) = [0x07#8, 0x1F#8, 0x00#8] ∧ t.encBits = 9#32 := by decide +kernel

/-- 43_bit_packer.md R217(d): no symbols give 08 00. -/
theorem test_encode_nothing : (List.range 2).map (byteRead (after (exec .encode State.reset))) = [0x08#8, 0x00#8] := by
  decide +kernel

/-- V-D12: padding bits that are not 0 do not count. -/
theorem test_decode_abc : let t := after (exec .decode (withBytes abcTable [0x07#8, 0x1F#8, 0x7F#8]))
    (List.range 6).map (symRead t) = aaabbc ∧ t.symLen = 6#32 := by decide +kernel

/-- V-D9: a residue at bit 14. -/
theorem test_decode_residue : let t := after (exec .decode (withBytes abcTable [0x01#8, 0xFF#8, 0xFE#8]))
    t.errCode = some .decodeResidue ∧ t.errInfo = 14#32 := by decide +kernel

/-! Bus transactions. -/

/-- V-M2. -/
theorem test_bus_misaligned : (busAccess (readAt 0x00002) State.reset).2 = ⟨.err, 0#32⟩ := by decide

/-- V-M8: the lowest-numbered symbol in the least significant byte. -/
theorem test_bus_lanes : let t := (busAccess (writeAt 0x10000 0x64636261#32) State.reset).1
    (List.range 4).map (symRead t) = [0x61#8, 0x62#8, 0x63#8, 0x64#8] := by decide

/-- V-M10. -/
theorem test_bus_busy : (busAccess (readAt 0x00034) (accept 0#32 State.reset)).2 = ⟨.err, 0#32⟩ := by decide

/-- V-I4 to V-I6: an error sets both pending bits; writing ones clears them, and irq falls. -/
theorem test_irq_acknowledge : let t := after (exec .walk { State.reset with irqEn := 3#2 })
    t.irq = true ∧ (busAccess (writeAt 0x0001C 3#32) t).1.irq = false := by decide

/-- R290: reset with a command pending; it never completes. -/
theorem test_reset_abandons : let t := after (step { accept 1#32 abc with events := [.reset] })
    statusWord t = 0#32 ∧ t.irqStatus = 0#2 ∧ t.root = 0x1FF#9 := by decide

/-! Witnesses: for each statement with hypotheses, a state and operands that meet them, every clause among them, at the ends of
its ranges. -/

/-- The boundary offsets of the map (20_memory.md R71, R74). -/
theorem witness_OffsetMapAgrees :
    (∀ o ∈ [0x00078, 0x003FC, 0x00800, 0x0FFFC, 0x30000, 0x3FFFC], o % 4 = 0 ∧ targetAt (BitVec.ofNat 18 o) = none) ∧
    targetAt 0x00000#18 = some (.reg .id) ∧ targetAt 0x00074#18 = some (.reg .nodeLink) ∧
    targetAt 0x00400#18 = some (.freq 0#8) ∧ targetAt 0x007FC#18 = some (.freq 0xFF#8) ∧
    targetAt 0x10000#18 = some (.symWord 0) ∧ targetAt 0x1FFFC#18 = some (.symWord 0x3FFF) ∧
    targetAt 0x20000#18 = some (.byteWord 0) ∧ targetAt 0x2FFFC#18 = some (.byteWord 0x3FFF) := by decide +kernel

theorem witness_ResetEventGivesResetValues : { accept 2#32 abc with events := [.reset, .engine] }.events = .reset :: [.engine] := rfl

theorem witness_ResetStateMeetsInvariant : Params.WellFormed ⟨4, 65536, 0⟩ ∧ Params.WellFormed ⟨65536, 4, 0x40000000⟩ := by decide

theorem witness_NarrowOrMisalignedAccessRefused :
    (Transaction.mk .read 0x20000#18 .one).size ≠ .four ∧ (readAt 0x00001).offset.extractLsb' 0 2 ≠ 0#2 ∧
    (writeAt 0x3FFFF 0#32).offset.extractLsb' 0 2 ≠ 0#2 := by decide

theorem witness_ReservedOffsetRefused : let s := State.reset
    (∀ o ∈ [0x00078, 0x003FF], 0x00078 ≤ (readAt o).offset.toNat ∧ (readAt o).offset.toNat ≤ 0x003FF) ∧
    (∀ o ∈ [0x00800, 0x0FFFF], 0x00800 ≤ (readAt o).offset.toNat ∧ (readAt o).offset.toNat ≤ 0x0FFFF) ∧
    (∀ o ∈ [0x10010, 0x1FFFC], 0x10000 ≤ (readAt o).offset.toNat ∧ (readAt o).offset.toNat < 0x20000 ∧
      s.params.symBufSize / 4 ≤ ((readAt o).offset.toNat - 0x10000) / 4) ∧
    (∀ o ∈ [0x20010, 0x2FFFC], 0x20000 ≤ (readAt o).offset.toNat ∧ (readAt o).offset.toNat < 0x30000 ∧
      s.params.byteBufSize / 4 ≤ ((readAt o).offset.toNat - 0x20000) / 4) ∧
    ∀ o ∈ [0x30000, 0x3FFFF], 0x30000 ≤ (readAt o).offset.toNat := by decide +kernel

theorem witness_RegisterAccessByKind : abc.phase = .idle ∧ Reg.status ≠ .cmd ∧ (∃ k, Reg.ctCode 7 = .ctCode k) ∧
    Reg.nodeLink ∈ [Reg.id, .version, .symBufSize, .byteBufSize, .status, .errInfo, .encBits, .pad, .nleaf, .nnode, .root,
      .nodeFreq, .nodeInfo, .nodeLink] := ⟨rfl, by decide, ⟨7, rfl⟩, by decide⟩

theorem witness_OperandAndResultRegisters : (after (exec .build abc)).phase = .idle := by decide +kernel

theorem witness_ConstantRegistersRead : (accept 2#32 State.reset).params.WellFormed := by decide

theorem witness_StatusReadsItsFields : (after (exec .walk abc)).errCode = some .noTree ∧ abc.errCode = none ∧
    (accept 2#32 abc).phase = .busy 2#32 := by decide

theorem witness_BusyRefusesOtherAccesses : (accept 2#32 abc).phase = .busy 2#32 ∧
    (∀ t ∈ [readAt 0x00010, readAt 0x00020, writeAt 0x2000C 1#32, Transaction.mk .read 0x00400#18 .two],
      t.offset.toNat ∉ [0x00000, 0x00004, 0x00008, 0x0000C, 0x00014, 0x00018, 0x0001C]) ∧
    Reg.irqStatus ∈ [Reg.id, .version, .symBufSize, .byteBufSize, .status, .irqEn, .irqStatus] ∧
    Reg.status ∈ [Reg.id, .version, .symBufSize, .byteBufSize, .status] := by decide

theorem witness_ReadsPureWritesIdempotent : (readAt 0x00400).kind = .read ∧ (writeAt 0x00400 5#32).offset ≠ 0x00010#18 ∧
    abc.phase = .idle := by decide

theorem witness_FreqWindow : abc.phase = .idle ∧ (0xFF#8 : Byte) ≠ 0x00#8 := by decide

/-- The last word of each buffer. -/
theorem witness_BufferWindows : abc.phase = .idle ∧ abc.params.WellFormed ∧ 3 < abc.params.symBufSize / 4 ∧
    3 < abc.params.byteBufSize / 4 ∧ ((15 : Nat) < 4 * 4 ∨ 4 * 4 + 4 ≤ 15) := by decide

theorem witness_CodeTableWindow : let s := { State.reset with ctSel := 0x61#8 }
    s.phase = .idle ∧ 7 < 8 ∧ (0x62#8 : Byte) ≠ s.ctSel := by decide

theorem witness_NodeWindow : { abc with nodeSel := 0x1FF#9 }.phase = .idle ∧ { abc with nodeSel := 0x1FF#9 }.nodeSel = 0x1FF#9 ∧
    { abc with nodeSel := 0x1FE#9 }.phase = .idle ∧ { abc with nodeSel := 0x1FE#9 }.nodeSel ≠ 0x1FF#9 := by decide

theorem witness_CommandAccepted : (after (exec .walk State.reset)).phase = .idle ∧ (after (exec .walk State.reset)).err = true := by
  decide

theorem witness_StepServesNextTransaction : let s := { abc with events := [.bus (writeAt 0x00018 3#32), .engine] }
    s.events = .bus (writeAt 0x00018 3#32) :: [.engine] ∧
      ∃ u r, busAccess (writeAt 0x00018 3#32) { s with events := [.engine] } = (u, r) := ⟨rfl, _, _, rfl⟩

theorem witness_StepRunsDecodedCommand : (accept 2#32 abc).phase = .busy 2#32 ∧ decodeCommand 2#32 = .ok .build ∧
    (accept 2#32 abc).events = [] ∧ { accept 2#32 abc with events := [.engine, .reset] }.events = .engine :: [.reset] := by decide

theorem witness_IllegalWordCompletesWithError :
    ((accept 0x10#32 abc).phase = .busy 0x10#32 ∧ (accept 0x10#32 abc).events = [] ∧ (0x10#32).extractLsb' 4 28 ≠ 0#28) ∧
    (let s := { accept 0x7#32 abc with events := [.engine, .reset] }
     s.phase = .busy 0x7#32 ∧ s.events = .engine :: [.reset] ∧ 7 ≤ ((0x7#32).extractLsb' 0 4).toNat) ∧
    7 ≤ ((0xF#32).extractLsb' 0 4).toNat := by decide

theorem witness_BuildCompletes : (¬ FreqOverflows abc ∧ leafSymbols abc ≠ []) ∧
    (¬ FreqOverflows State.reset ∧ leafSymbols State.reset = []) ∧ ¬ FreqOverflows single := by decide +kernel

theorem witness_BuildLoadsLeavesInSymbolOrder : (∃ t, exec .build abc = .next t) ∧ ∃ t, exec .build overflowing = .next t :=
  ⟨⟨_, next_after (by decide +kernel)⟩, ⟨_, next_after (by decide +kernel)⟩⟩

theorem witness_BuildMergesTwoLeast : ∃ t, ¬ FreqOverflows abc ∧ exec .build abc = .next t ∧ t.nleaf.toNat ≤ 4 ∧ 4 < t.nnode.toNat :=
  ⟨_, by decide +kernel, next_after (by decide +kernel), by decide +kernel, by decide +kernel⟩

theorem witness_BuildOverflow : FreqOverflows overflowing := by decide +kernel

theorem witness_BuildTreeInvariants : ∃ t, ¬ FreqOverflows abc ∧ leafSymbols abc ≠ [] ∧ exec .build abc = .next t :=
  ⟨_, by decide +kernel, by decide +kernel, next_after (by decide +kernel)⟩

/-- The tree of V-B1, as BUILD leaves it. -/
def built : State := after (exec .build abc)

def abcTree : Tree := .node (.leaf 0x61#8 3#32) (.node (.leaf 0x63#8 1#32) (.leaf 0x62#8 2#32))

theorem built_holds_abcTree : ArenaHoldsTree built :=
  .inr ⟨abcTree, ⟨by decide +kernel, 0, 3, by decide +kernel, by decide +kernel, by decide +kernel, by decide +kernel,
    ⟨by decide +kernel, by decide +kernel⟩, ⟨by decide +kernel, 2, 1, by decide +kernel, by decide +kernel, by decide +kernel, by decide +kernel,
      ⟨by decide +kernel, by decide +kernel⟩, ⟨by decide +kernel, by decide +kernel⟩⟩⟩,
    by decide +kernel, by decide +kernel, by decide +kernel, by decide +kernel, by decide +kernel⟩

theorem witness_WalkNeedsTree : overflowing.treeValid = false := rfl

theorem witness_WalkOfSmallTrees : let e := after (exec .build State.reset)
    let o := after (exec .build single)
    e.treeValid = true ∧ e.root = 0x1FF#9 ∧ o.treeValid = true ∧ o.root ≠ 0x1FF#9 ∧ (nodeRead o o.root.toNat).leaf = true := by
  decide +kernel

theorem witness_WalkGivesPaths : built.treeValid = true ∧ ArenaHoldsTree built ∧ 2 ≤ built.nleaf.toNat ∧
    follow built built.root.toNat [true, false] = some 2 ∧ (nodeRead built 2).leaf = true :=
  ⟨by decide +kernel, built_holds_abcTree, by decide +kernel, by decide +kernel, by decide +kernel⟩

theorem witness_WalkTableProperties : ∃ t, built.treeValid = true ∧ ArenaHoldsTree built ∧ built.nleaf ≠ 0#9 ∧
    exec .walk built = .next t ∧ HasCode t 0x61#8 :=
  ⟨_, by decide +kernel, built_holds_abcTree, by decide +kernel, next_after (by decide +kernel), by decide +kernel⟩

theorem witness_WalkReadsOnlyTheTree : ∃ u t : State, exec .walk built = .next t ∧ u.node = built.node ∧ u.root = built.root ∧
    u.treeValid = built.treeValid ∧ built.treeValid = true ∧ u.freq ≠ built.freq :=
  ⟨{ built with freq := [] }, _, next_after (by decide +kernel), rfl, rfl, rfl, by decide +kernel, by decide +kernel⟩

/-- Each of the three errors: 17 symbols of 16; the first symbol without a code; 28 bits in a buffer of 4 bytes. -/
theorem witness_EncodeErrors : let s₁ := { State.reset with symLen := 17#32 }
    let s₂ := withSymbols abcTable [0x61#8, 0x7A#8, 0x7A#8]
    let s₃ := { withSymbols abcTable (List.replicate 9 0x62#8) with params := ⟨16, 4, 0⟩ }
    s₁.params.symBufSize < s₁.symLen.toNat ∧
    (s₂.symLen.toNat ≤ s₂.params.symBufSize ∧ 1 < s₂.symLen.toNat ∧ ¬ HasCode s₂ (symRead s₂ 1) ∧
      ∀ k < 1, HasCode s₂ (symRead s₂ k)) ∧
    InputCoded s₃ ∧ (inputCode s₃).length / 8 + 2 = 4 ∧
    let s₄ := { s₃ with symBuf := (withSymbols abcTable (List.replicate 12 0x62#8)).symBuf, symLen := 12#32 }
    InputCoded s₄ ∧ s₄.params.byteBufSize < (inputCode s₄).length / 8 + 2 := by decide +kernel

theorem witness_EncodeWritesPackedStream : let s := withSymbols abcTable aaabbc
    InputCoded s ∧ (inputCode s).length / 8 + 2 ≤ s.params.byteBufSize := by decide +kernel

theorem witness_EncodeResultProperties : let s := withSymbols abcTable aaabbc
    (∃ t, s.params.WellFormed ∧ s.err = false ∧ exec .encode s = .next t ∧ t.err = false) ∧
    ∃ t, State.reset.params.WellFormed ∧ State.reset.err = false ∧ exec .encode State.reset = .next t ∧ t.err = false ∧
      State.reset.symLen = 0#32 ∧
      ∀ y, ctRead (withSymbols [(0x78, ⟨1#8, 0#256⟩)] []) y = if y = 0x78#8 then ⟨1#8, 0#256⟩ else ⟨0#8, 0#256⟩ :=
  ⟨⟨_, by decide +kernel, rfl, next_after (by decide +kernel), by decide +kernel⟩,
    ⟨_, by decide +kernel, rfl, next_after (by decide +kernel), by decide +kernel, rfl, by decide +kernel⟩⟩

/-- Each of the three errors; headers 0, 9 and 255; BYTE_LEN = 1 with headers 1 and 8. -/
theorem witness_DecodeInputErrors : State.reset.params.byteBufSize < { State.reset with byteLen := 17#32 }.byteLen.toNat ∧
    (∀ h ∈ [0x00#8, 0x09#8, 0xFF#8], let s := withBytes abcTable [h, 0x00#8]
      s.byteLen.toNat ≤ s.params.byteBufSize ∧ s.byteLen ≠ 0#32 ∧ ((byteRead s 0).toNat = 0 ∨ 9 ≤ (byteRead s 0).toNat)) ∧
    ∀ h ∈ [0x01#8, 0x08#8], let s := withBytes abcTable [h]
      s.byteLen.toNat ≤ s.params.byteBufSize ∧ s.byteLen = 1#32 ∧ 1 ≤ (byteRead s 0).toNat ∧ (byteRead s 0).toNat ≤ 8 := by
  decide +kernel

theorem witness_DecodeOfEmptySequence : (withBytes abcTable []).byteLen = 0#32 := rfl

/-- A code of one bit ends the accumulation at once. -/
theorem resolves_one (s : State) (b : Bool) : ResolvesAt s [b] :=
  ⟨by simp, fun n h0 h1 => absurd h1 (by simp; omega)⟩

/-- The table of a single leaf, 'x' "0" (V-W5), and two symbols. -/
theorem witness_DecodeEmitsSymbols : let s := withBytes [(0x78, ⟨1#8, 0#256⟩)] [0x06#8, 0x00#8]
    HeaderOk s ∧ IsPayload s [false, false] ∧ Emits s [false, false] [0x78#8, 0x78#8] ∧ 2 ≤ s.params.symBufSize := by
  have hx : ∀ y, Matches (withBytes [(0x78, ⟨1#8, 0#256⟩)] [0x06#8, 0x00#8]) [false] y ↔ y = 0x78#8 := by decide +kernel
  exact ⟨by decide +kernel, by unfold IsPayload; decide +kernel,
    .cons [false] _ _ _ (resolves_one _ _) hx (.cons [false] _ _ _ (resolves_one _ _) hx .nil), by decide +kernel⟩

/-- The four errors of the walk, each at its first bit or after an emitted symbol: V-D11; V-D13's table with SYM_BUF_SIZE 4; V-D16;
and a last bit "1" of `abcTable`. -/
theorem witness_DecodeWalkErrors :
    (let s := withBytes ambiguousTable [0x07#8, 0x00#8]
     HeaderOk s ∧ IsPayload s ([] ++ [false] ++ []) ∧ Emits s [] [] ∧ ResolvesAt s [false] ∧
       Matches s [false] 0x61#8 ∧ Matches s [false] 0x62#8) ∧
    (let s := { withBytes [(0x78, ⟨1#8, 0#256⟩)] [0x03#8, 0x00#8] with params := ⟨4, 16, 0⟩ }
     HeaderOk s ∧ IsPayload s ([false, false, false, false] ++ [false] ++ []) ∧
       Emits s [false, false, false, false] [0x78#8, 0x78#8, 0x78#8, 0x78#8] ∧ ResolvesAt s [false] ∧
       (∃ x, ∀ y, Matches s [false] y ↔ y = x) ∧ s.params.symBufSize = 4) ∧
    (let s := withBytes greedyTable [0x06#8, 0x40#8]
     HeaderOk s ∧ IsPayload s ([false] ++ [true] ++ []) ∧ Emits s [false] [0x61#8] ∧ ResolvesAt s [true] ∧
       (∀ x, ¬ Matches s [true] x) ∧ ¬ Live s [true]) ∧
    (let s := withBytes abcTable [0x07#8, 0x80#8]
     HeaderOk s ∧ IsPayload s ([] ++ [true] ++ []) ∧ Emits s [] [] ∧ Unresolved s [true]) := by
  refine ⟨⟨by decide +kernel, by unfold IsPayload; decide +kernel, .nil, resolves_one _ _, by decide +kernel, by decide +kernel⟩,
    ⟨by decide +kernel, by unfold IsPayload; decide +kernel, ?_, resolves_one _ _, ⟨0x78#8, by decide +kernel⟩, rfl⟩,
    ⟨by decide +kernel, by unfold IsPayload; decide +kernel, ?_, resolves_one _ _, by decide +kernel,
      by unfold Live; decide +kernel⟩,
    ⟨by decide +kernel, by unfold IsPayload; decide +kernel, .nil, ?_⟩⟩
  · have hx : ∀ y, Matches { withBytes [(0x78, ⟨1#8, 0#256⟩)] [0x03#8, 0x00#8] with params := ⟨4, 16, 0⟩ } [false] y ↔
        y = 0x78#8 := by decide +kernel
    exact .cons [false] _ _ _ (resolves_one _ _) hx (.cons [false] _ _ _ (resolves_one _ _) hx
      (.cons [false] _ _ _ (resolves_one _ _) hx (.cons [false] _ _ _ (resolves_one _ _) hx .nil)))
  · exact .cons [false] _ _ _ (resolves_one _ _) (by decide +kernel) .nil
  · intro n h0 h1
    obtain rfl : n = 1 := by simp at h1; omega
    exact ⟨by decide +kernel, ⟨0x62#8, by decide +kernel, by decide +kernel⟩⟩

theorem witness_DecodeIgnoresPaddingBits : let s := withBytes abcTable [0x07#8, 0x1F#8, 0x00#8]
    let b := (withBytes abcTable [0x07#8, 0x1F#8, 0x7F#8]).byteBuf
    (∃ t, HeaderOk s ∧ exec .decode s = .next t) ∧
    (∀ j, j + 1 < s.byteLen.toNat → byteRead { s with byteBuf := b } j = byteRead s j) ∧
    (∀ k, (byteRead s 0).toNat ≤ k → k < 8 → (byteRead { s with byteBuf := b } (s.byteLen.toNat - 1)).getLsbD k =
      (byteRead s (s.byteLen.toNat - 1)).getLsbD k) ∧ b ≠ s.byteBuf := by
  refine ⟨⟨_, by decide +kernel, next_after (by decide +kernel)⟩, ?_, ?_, by decide +kernel⟩
  · intro j hj
    have : j < 2 := by change j + 1 < 3 at hj; omega
    interval_cases j <;> decide +kernel
  · intro k h1 h2
    have : 7 ≤ k := by change 7 ≤ k at h1; exact h1
    obtain rfl : k = 7 := by omega
    decide +kernel

theorem prefixFree_abcTable (s : State) (h : s.ct = abcTable) : PrefixFree s := by
  have hm : ∀ x, HasCode { State.reset with ct := abcTable } x → x = 0x61#8 ∨ x = 0x62#8 ∨ x = 0x63#8 := by decide +kernel
  have hc : ∀ z, ctRead s z = ctRead { State.reset with ct := abcTable } z := fun z => by simp only [ctRead, h]
  intro x y hxy hx hy
  simp only [HasCode, codeOf, hc] at *
  rcases hm x hx with rfl | rfl | rfl <;> rcases hm y hy with rfl | rfl | rfl <;> first | exact absurd rfl hxy | decide

theorem witness_DecodeInvertsEncode : let s := withSymbols abcTable aaabbc
    ∃ t u : State, s.params.WellFormed ∧ PrefixFree s ∧ s.err = false ∧ exec .encode s = .next t ∧ t.err = false ∧
      u.ct = t.ct ∧ u.byteBuf = t.byteBuf ∧ u.byteLen = t.byteLen ∧ u.params = t.params ∧ u.symLen ≠ s.symLen :=
  ⟨_, { after (exec .encode (withSymbols abcTable aaabbc)) with symLen := 0#32 }, by decide +kernel, prefixFree_abcTable _ rfl, rfl,
    next_after (by decide +kernel), by decide +kernel, rfl, rfl, rfl, rfl, by decide +kernel⟩

/-- A state that meets the invariant, with a tree, symbols to encode, and the word `w` accepted. -/
def loaded : State := { symWriteAll 0 aaabbc built with symLen := 6#32 }

theorem loaded_inv : StateInv loaded where
  params := by decide +kernel
  memories := by unfold MemoriesCanonical; decide +kernel
  record := ⟨fun w h => absurd (h.symm.trans (by decide +kernel : loaded.phase = .idle)) (by simp), by decide +kernel, by decide +kernel, by decide +kernel⟩
  tree := ⟨by decide +kernel, by decide +kernel, fun _ => built_holds_abcTree.congr rfl rfl rfl rfl⟩
  pad := by decide +kernel
  draws := by unfold DrawsFresh; decide +kernel

theorem accepted_inv (w : Word) (es : List Event) : StateInv { accept w loaded with events := es } where
  params := loaded_inv.params
  memories := loaded_inv.memories
  record := ⟨fun v h => by
    cases h
    exact ⟨rfl, rfl, rfl⟩, fun h => (Bool.false_ne_true h).elim, rfl, fun _ => rfl⟩
  tree := ⟨loaded_inv.tree.1, loaded_inv.tree.2.1, fun h => (loaded_inv.tree.2.2 h).congr rfl rfl rfl rfl⟩
  pad := loaded_inv.pad
  draws := loaded_inv.draws

theorem witness_EngineStepCompletes : State.reset.phase = .idle ∧ StateInv { accept 3#32 loaded with events := [.engine] } ∧
    { accept 3#32 loaded with events := [.engine] }.phase = .busy 3#32 ∧
    { accept 3#32 loaded with events := [.engine] }.events = .engine :: [] := ⟨rfl, accepted_inv _ _, rfl, rfl⟩

theorem witness_DecompressInvertsCompress : ∃ s₁ s₂ s₃, StateInv loaded ∧ ¬ FreqOverflows loaded ∧
    loaded.symLen.toNat ≤ loaded.params.symBufSize ∧ loaded.err = false ∧
    (∀ i < loaded.symLen.toNat, freqRead loaded (symRead loaded i) ≠ 0#32) ∧
    exec .build loaded = .next s₁ ∧ exec .walk s₁ = .next s₂ ∧ exec .encode s₂ = .next s₃ ∧ s₃.err = false :=
  ⟨_, _, _, loaded_inv, by decide +kernel, by decide +kernel, by decide +kernel, by decide +kernel, next_after (by decide +kernel),
    next_after (by decide +kernel), next_after (by decide +kernel), by decide +kernel⟩

theorem witness_EncodeIsOptimal : ∃ s₁ s₂ s₃, loaded.params.WellFormed ∧ ¬ FreqOverflows loaded ∧ loaded.err = false ∧
    2 ≤ (leafSymbols loaded).length ∧
    (∀ x, ((List.range loaded.symLen.toNat).map (symRead loaded)).count x = (freqRead loaded x).toNat) ∧
    exec .build loaded = .next s₁ ∧ exec .walk s₁ = .next s₂ ∧ exec .encode s₂ = .next s₃ ∧ s₃.err = false ∧
    ∃ code : Byte → List Bool, ∀ x y, x ≠ y → freqRead loaded x ≠ 0#32 → freqRead loaded y ≠ 0#32 → ¬ code x <+: code y :=
  ⟨_, _, _, by decide +kernel, by decide +kernel, by decide +kernel, by decide +kernel, by decide +kernel,
    next_after (by decide +kernel), next_after (by decide +kernel), next_after (by decide +kernel), by decide +kernel,
    byteBits, fun x y h _ _ hp => h (BitVec.eq_of_toNat_eq (by
      have := congrArg valOf (hp.eq_of_length (by simp))
      simpa [byteBits, valOf_bitsOf, Nat.mod_eq_of_lt x.isLt, Nat.mod_eq_of_lt y.isLt] using this))⟩

theorem witness_StepKeepsInvariant : ∃ t, StateInv { accept 3#32 loaded with events := [] } ∧
    step { accept 3#32 loaded with events := [] } = .next t :=
  ⟨_, accepted_inv _ _, next_after (by decide +kernel)⟩

theorem witness_StepNeverStops : StateInv { accept 5#32 loaded with events := [.bus (readAt 0x00014), .reset] } := accepted_inv _ _

theorem witness_CommandsIgnoreHostRegisters : ∃ t, exec .walk { built with ctSel := 0x61#8 } = .next t :=
  ⟨_, next_after (by decide +kernel)⟩

theorem witness_OnlyBuildChangesTree : ∃ t, Instr.walk ≠ .build ∧ exec .walk built = .next t :=
  ⟨_, by decide, next_after (by decide +kernel)⟩

theorem witness_CommandsLeaveTablesTheyDoNotWrite : ∃ t, Instr.build ≠ .clearFreq ∧ Instr.build ≠ .walk ∧ Instr.build ≠ .clearTable ∧
    Instr.build ≠ .decode ∧ Instr.build ≠ .encode ∧ exec .build abc = .next t :=
  ⟨_, by decide, by decide, by decide, by decide, by decide, next_after (by decide +kernel)⟩

/-- Completions by a command and by an illegal word; the four clauses over a step: both bits set by an engine step, one cleared by
reset, one by a write of 1. -/
theorem witness_PendingBitsSetOnlyByCompletion : let s := after (exec .walk State.reset)
    let x := writeAt 0x0001C 3#32
    ((accept 7#32 abc).phase = .busy 7#32 ∧ (accept 7#32 abc).err = false ∧ ∃ t, engineStep (accept 7#32 abc) = .next t) ∧
    (∃ t, State.reset.err = false ∧ exec .walk State.reset = .next t) ∧
    (∃ t, step (accept 7#32 abc) = .next t ∧ doneIp (accept 7#32 abc) = false ∧ doneIp t = true ∧
      errIp (accept 7#32 abc) = false ∧ errIp t = true) ∧
    (∃ t, step { s with events := [.reset] } = .next t ∧ doneIp s = true ∧ doneIp t = false) ∧
    (∃ t, step { s with events := [.bus x] } = .next t ∧ errIp s = true ∧ errIp t = false) ∧
    doneIp s = true ∧ doneIp (busAccess x s).1 = false ∧ errIp s = true ∧ errIp (busAccess x s).1 = false :=
  ⟨⟨by decide, by decide, _, next_after (by decide)⟩, ⟨_, rfl, next_after (by decide)⟩,
    ⟨_, next_after (by decide), by decide, by decide, by decide, by decide⟩,
    ⟨_, next_after (by decide), by decide, by decide⟩, ⟨_, next_after (by decide), by decide, by decide⟩,
    by decide, by decide, by decide, by decide⟩

theorem witness_HostCannotDisturbPendingCommand : let xs := [writeAt 0x00010 0#32, writeAt 0x0001C 3#32]
    let s := { accept 4#32 loaded with events := xs.map .bus }
    s.phase = .busy 4#32 ∧ s.events = xs.map .bus := ⟨rfl, rfl⟩

theorem witness_PendingCommandCompletes : let xs := [readAt 0x00014, readAt 0x00014]
    let s := { accept 4#32 loaded with events := xs.map .bus }
    StateInv s ∧ s.phase = .busy 4#32 ∧ s.events = xs.map .bus := ⟨accepted_inv _ _, rfl, rfl⟩

theorem witness_AcknowledgeRacesCompletion : StateInv { accept 0#32 loaded with events := [] } ∧
    { accept 0#32 loaded with events := [] }.phase = .busy 0#32 ∧ (1#32).getLsbD 0 = true := ⟨accepted_inv _ _, rfl, rfl⟩

/-- With all ten writes; and as in program P2, without CT_CODE1 to CT_CODE7, when the table is empty. -/
theorem witness_CtPseudoLoadsEntry :
    (let ts := transactionsOf (Stmt.ct 0x61#8 255#8 (BitVec.allOnes 256) []).expand []
     let s := { State.reset with events := ts.map .bus }
     s.phase = .idle ∧ s.events = ts.map .bus) ∧
    let leftOut : List (Fin 8) := [1, 2, 3, 4, 5, 6, 7]
    let ts := transactionsOf (Stmt.ct 0x63#8 2#8 2#256 leftOut).expand []
    let s := { State.reset with events := ts.map .bus }
    s.phase = .idle ∧ s.events = ts.map .bus ∧ (7 : Fin 8) ∈ leftOut ∧ (2#256).extractLsb' (32 * (7 : Fin 8).val) 32 = 0#32 ∧
      ∀ k ∈ leftOut, (2#256).extractLsb' (32 * k.val) 32 = 0#32 →
        (ctRead s 0x63#8).code.extractLsb' (32 * k.val) 32 = 0#32 :=
  ⟨⟨rfl, rfl⟩, rfl, rfl, by decide, by decide, by decide⟩

/-! Host scripts. -/

/-- A line that is a statement alone. -/
def line (st : Stmt) : Line := { label := none, stmt := some st, comment := none }

/-- The run a schedule gives, which answers a next state. -/
def played : Host.Outcome ScriptRun Fault Refusal → ScriptRun
  | .next u => u
  | _ => .start [] State.reset

theorem next_played {o : Host.Outcome ScriptRun Fault Refusal} (h : played o ≠ .start [] State.reset) : o = .next (played o) := by
  cases o <;> simp_all [played]

/-- 30_encoding.md R120's example. -/
theorem test_script_encoding :
    (transactionsOf (Stmt.cmd .build).expand []).map Transaction.written = ["W 0x00010 0x00000002".toList] := by decide

/-- Program P2's ct line for 'c': three writes. -/
theorem test_script_ct_left_out : (transactionsOf (Stmt.ct 0x63#8 2#8 2#256 [1, 2, 3, 4, 5, 6, 7]).expand []).map Transaction.written =
    ["W 0x00040 0x00000063".toList, "W 0x00044 0x00000002".toList, "W 0x00048 0x00000002".toList] := by decide

/-- `run NOP`, then `rd STATUS => 2`: one poll finds BUSY; after the engine's turn a second ends the wait (30_encoding.md R121). -/
def nopScript : ScriptRun := .start [line (.run .nop), line (.rdValue (regPlace .status) 2#32)] State.reset

theorem test_script_wait : let u := played (ScriptRun.play [.host, .host, .engine, .host, .host] nopScript)
    u.over = true ∧ u.failed = false ∧ u.reads.map (·.rdata) = [1#32, 2#32, 2#32] := by decide

/-- `=> v` asserts rdata alone: the ERR response to a misaligned read has rdata 0 (30_encoding.md R120, 20_memory.md R73). -/
theorem test_script_value_of_err : let r := ScriptRun.start [line (.rdValue (.raw 2#18) 0#32), line (.rdValue (.raw 0#18) 0#32)] State.reset
    r.issue.failed = false ∧ r.issue.issue.failed = true := by decide

theorem witness_ScriptRunsOnTheMachine :
    (∃ u, nopScript.machine.events = [] ∧ ScriptRun.play [.host, .engine, .host, .host] nopScript = .next u ∧ u.todo = [] ∧
      u.machine.phase = .idle) ∧
    (∃ u, { nopScript with failed := true }.machine.events = [] ∧ ScriptRun.play [] { nopScript with failed := true } = .next u) ∧
    (∀ st ∈ [Stmt.rdValue (regPlace .id) 0#32, .rdErr (regPlace .id), .wrErr (regPlace .id) 0#32],
      (ScriptRun.start [line st] State.reset).failed = false ∧ (ScriptRun.start [line st] State.reset).todo = st.expand ++ []) ∧
    let r : ScriptRun := { todo := [.wait], machine := { accept 3#32 loaded with events := [] }, reads := [], failed := false }
    StateInv r.machine ∧ r.machine.phase = .busy 3#32 ∧ r.todo = .wait :: [] :=
  ⟨⟨_, rfl, next_played (by decide), by decide, by decide⟩, ⟨_, rfl, rfl⟩, by decide, accepted_inv _ _, rfl, rfl⟩

end Sys2Proof.Tests
end

section
/-! The invariant of 10_state.md: each part of `StateInv` under completion, under each command, under a bus write and under
reset; then `StepKeepsInvariant` from the case lemmas of `Laws`. -/

namespace Sys2Proof.Machine

/-! The parts of the invariant. -/

/-- The parts that speak of what a command computes with: the memories, PAD, the draws. -/
structure DataInv (s : State) : Prop where
  memories : MemoriesCanonical s
  pad      : s.pad.toNat ≤ 8
  draws    : DrawsFresh s

theorem StateInv.data {s : State} (h : StateInv s) : DataInv s := ⟨h.memories, h.pad, h.draws⟩

/-! The tree registers and the arena. -/

/-- `t` has TREE_VALID, the arena and the tree registers of `s` (10_state.md R27, R37 to R39, R43). -/
def SameTree (s t : State) : Prop :=
  t.treeValid = s.treeValid ∧ t.node = s.node ∧ t.nleaf = s.nleaf ∧ t.nnode = s.nnode ∧ t.root = s.root

theorem SameTree.refl (s : State) : SameTree s s := ⟨rfl, rfl, rfl, rfl, rfl⟩

theorem TreeConsistent.of_sameTree {s t : State} (h : TreeConsistent s) (e : SameTree s t) : TreeConsistent t := by
  obtain ⟨hv, hn, hl, hc, hr⟩ := e
  obtain ⟨hle, hnone, htree⟩ := h
  refine ⟨by rwa [hl], fun ht => ?_, fun ht => ?_⟩
  · rw [hr]; exact hnone (hv ▸ ht)
  · exact (htree (hv ▸ ht)).congr hn.symm hl.symm hc.symm hr.symm

/-- A command other than BUILD reads the tree and leaves it (10_state.md R27, R43). -/
theorem exec_sameTree {i : Instr} {s t : State} (hi : i ≠ .build) (h : exec i s = .next t) : SameTree s t := by
  cases i with
  | build => exact absurd rfl hi
  | nop => cases h; exact .refl s
  | clearFreq => cases h; exact .refl s
  | clearTable => cases h; exact .refl s
  | walk =>
    obtain ⟨-, hu⟩ | ⟨-, ⟨-, hu⟩ | ⟨m, -, hu⟩⟩ := execWalk_cases s
    · cases hu.symm.trans h; exact .refl s
    · cases hu.symm.trans h
    · cases hu.symm.trans h; exact .refl s
  | encode =>
    obtain ⟨u, hu, ⟨e, info, rfl⟩ | ⟨-, -, rfl⟩⟩ := execEncode_cases s
    · cases hu.symm.trans h; exact .refl s
    · cases hu.symm.trans h; exact .refl s
  | decode =>
    obtain ⟨u, hu, ⟨e, info, rfl⟩ | ⟨-, rfl⟩ | ⟨xs, p, -, -, -, -, rfl⟩⟩ := execDecode_cases s
    · cases hu.symm.trans h; exact .refl s
    · cases hu.symm.trans h; exact .refl s
    · cases hu.symm.trans h; exact .refl s

theorem targetWrite_sameTree (g : Target) (v : Word) (s : State) : SameTree s (targetWrite g v s) := by
  obtain ⟨t, rfl, hv, -, -, hl, hc, hr, hn, -⟩ := targetWrite_frame g v s
  exact ⟨hv, hn, hl, hc, hr⟩

theorem busAccess_sameTree (x : Transaction) (s : State) : SameTree s (busAccess x s).1 := by
  obtain h | ⟨g, v, -, -, -, h⟩ := busAccess_cases x s
  · rw [h]; exact .refl s
  · rw [h]; exact targetWrite_sameTree g v s

/-- Settles O52, command by command through the case lemmas, and through the frame of a bus write. -/
theorem onlyBuildChangesTree : Obligations.OnlyBuildChangesTree :=
  ⟨fun _ _ _ => exec_sameTree, busAccess_sameTree⟩

/-! What BUILD leaves: a valid tree, or none. -/

theorem nodup_allSymbols : allSymbols.Nodup := by
  refine List.Nodup.map_on (fun x hx y hy h => ?_) List.nodup_range
  rw [List.mem_range] at hx hy
  have := congrArg BitVec.toNat h
  simp only [BitVec.toNat_ofNat] at this
  omega

theorem nodup_leafSymbols (s : State) : (leafSymbols s).Nodup := nodup_allSymbols.filter _

theorem Building.symbols_perm {s : State} {b : Builder} {k : Key} {tr : Tree} (h : Building s b [(k, tr)]) :
    tr.symbols.Perm (leafSymbols s) := by
  have hl := h.leaves.map Prod.fst
  simpa [Tree.symbols_eq, Function.comp_def] using hl

/-- When the merge loop is over and nothing overflowed, the arena holds the tree BUILD's registers tell of (41_tree_builder.md
R166, R169, R171, R172). -/
theorem Building.arenaHoldsTree {s t : State} {b : Builder} {f : List (Key × Tree)} (h : Building s b f)
    (hq : b.queue.length ≤ 1) (hnode : t.node = { s.node with cells := b.cells })
    (hnleaf : t.nleaf = BitVec.ofNat 9 (leafSymbols s).length) (hnnode : t.nnode = BitVec.ofNat 9 b.n)
    (hroot : t.root = rootOf b) : ArenaHoldsTree t := by
  have hcount := h.count
  have hlen := h.queue.length_eq
  rw [List.length_map] at hlen
  have hle := length_leafSymbols_le s
  by_cases hne : leafSymbols s = []
  · left
    rw [hne, List.length_nil] at hcount hnleaf
    have hqueue : b.queue = [] := List.length_eq_zero_iff.mp (by omega)
    exact ⟨hnleaf, by rw [hnnode, show b.n = 0 by omega], by rw [hroot, rootOf, hqueue]⟩
  · right
    obtain ⟨k, tr, rfl, hqueue, hk, hn, -⟩ := h.root hq hne
    have hl : t.nleaf.toNat = (leafSymbols s).length := by rw [hnleaf, BitVec.toNat_ofNat]; omega
    have hc : t.nnode.toNat = b.n := by rw [hnnode, BitVec.toNat_ofNat]; omega
    have hr : t.root.toNat = k.index := by
      rw [hroot, rootOf, hqueue]
      simp only [extractMin, BitVec.toNat_ofNat]
      omega
    obtain ⟨-, -, hrep⟩ := h.trees _ (List.mem_singleton_self _)
    refine ⟨tr, ?_, h.symbols_perm.nodup_iff.mpr (nodup_leafSymbols s), ?_, ?_, ?_, fun j hj => ?_⟩
    · rw [hr]; exact (represents_congr hnode.symm tr _).mp hrep
    · rw [hl, h.symbols_perm.length_eq]
    · omega
    · omega
    · rw [hnode]; exact h.written j (hc ▸ hj)

theorem execBuild_treeConsistent {s t : State} (h : execBuild s = .next t) : TreeConsistent t := by
  have hle := length_leafSymbols_le s
  have hn := loadedBuilder_n s
  have hnleaf : (BitVec.ofNat 9 (loadedBuilder s).n).toNat ≤ 256 := by rw [BitVec.toNat_ofNat]; omega
  obtain ⟨u, b, hu, ⟨hb, rfl⟩ | ⟨-, rfl⟩⟩ := execBuild_cases s
  · cases hu.symm.trans h
    refine ⟨hnleaf, fun hv => absurd hv (by simp), fun _ => ?_⟩
    obtain ⟨b', f, hb', hbuild, hq⟩ | ⟨b', -, -, -, -, hb', -⟩ := mergeLoop_loaded s
    · cases hb'.symm.trans hb
      exact hbuild.arenaHoldsTree hq rfl (by rw [← hn]; rfl) rfl rfl
    · cases hb'.symm.trans hb
  · cases hu.symm.trans h
    exact ⟨hnleaf, fun _ => rfl, fun hv => absurd hv (by simp)⟩

theorem exec_treeConsistent {i : Instr} {s t : State} (hs : TreeConsistent s) (h : exec i s = .next t) :
    TreeConsistent t := by
  by_cases hi : i = .build
  · subst hi; exact execBuild_treeConsistent h
  · exact hs.of_sameTree (exec_sameTree hi h)

/-! BUILD writes the arena in canonical form, below its bound of 511 entries (10_state.md R43). -/

/-- Room for the merges still to come: each takes two keys from the queue and makes one node. -/
structure Builder.Fits (b : Builder) : Prop where
  room  : b.n + b.queue.length ≤ 512
  cells : b.cells.wf (fun _ => false) 511 = true

theorem loadLeaves_fits (s : State) (ks : List Nat) : ∀ b : Builder, 2 * ks.length + (b.n + b.queue.length) ≤ 512 →
    b.cells.wf (fun _ => false) 511 = true → (loadLeaves s ks b).Fits := by
  induction ks with
  | nil => intro b hn hb; exact ⟨(Nat.le_add_left _ _).trans hn, hb⟩
  | cons k ks ih =>
    intro b hn hb
    simp only [List.length_cons] at hn
    rw [loadLeaves]
    split
    · exact ih b (by omega) hb
    · refine ih _ ?_ (Memory.wf_insert (by omega) rfl hb)
      simp only [Builder.add, List.length_cons]
      omega

theorem loadedBuilder_fits {s : State} (h : s.node.cells.wf (fun _ => false) 511 = true) : (loadedBuilder s).Fits :=
  loadLeaves_fits s _ _ (by simp) h

/-- The builder the merge loop ends with. -/
def Merged.builder : Merged → Builder
  | .done b => b
  | .overflow b => b

theorem mergeLoop_fits (fuel : Nat) : ∀ b : Builder, b.Fits → (mergeLoop fuel b).builder.Fits := by
  induction fuel with
  | zero => intro b h; exact h
  | succ fuel ih =>
    intro b h
    rw [mergeLoop]
    cases hx : extractTwo b.queue with
    | none => exact h
    | some e =>
      obtain ⟨a, c, rest⟩ := e
      have hlen := (extractTwo_eq_some hx).1.length_eq
      have hroom := h.room
      simp only [List.length_cons] at hlen ⊢
      split
      · exact h
      · refine ih _ ⟨?_, Memory.wf_insert (by simp only; omega) rfl h.cells⟩
        simp only [Builder.add, List.length_cons]
        omega

/-! WALK writes the code table in canonical form, whatever the arena holds (10_state.md R42). -/

theorem wf_visit {s : State} (fuel : Nat) : ∀ {i c d : Nat} {m m' : Memory CtEntry},
    m.wf (fun e => decide (e = .absent)) 256 = true → visit s fuel i c d m = some m' →
    m'.wf (fun e => decide (e = .absent)) 256 = true := by
  induction fuel with
  | zero => intro i c d m m' _ h; simp [visit] at h
  | succ fuel ih =>
    intro i c d m m' hm h
    simp only [visit] at h
    split at h
    · cases h; exact wf_ctPut hm
    · obtain ⟨m₁, hl, hr⟩ := Option.bind_eq_some_iff.mp h
      exact ih (ih hm hl) hr

theorem wf_walkTable {s : State} {m : Memory CtEntry} (h : walkTable s = some m) :
    m.wf (fun e => decide (e = .absent)) 256 = true := by
  simp only [walkTable] at h
  split at h
  · cases h; rfl
  · split at h
    · cases h; exact wf_ctPut (Memory.wf_nil _ _)
    · exact wf_visit 256 (Memory.wf_nil _ _) h

/-! The memories, PAD and the draws under a command. -/

theorem execBuild_dataInv {s t : State} (hs : DataInv s) (h : execBuild s = .next t) : DataInv t := by
  obtain ⟨⟨hfreq, hct, hnode, hbufs⟩, hpad, hdraws⟩ := hs
  have hfits := mergeLoop_fits (loadedBuilder s).n _ (loadedBuilder_fits hnode)
  obtain ⟨u, b, hu, ⟨hb, rfl⟩ | ⟨hb, rfl⟩⟩ := execBuild_cases s
  · rw [hb] at hfits
    cases hu.symm.trans h
    exact ⟨⟨hfreq, hct, hfits.cells, hbufs⟩, hpad, hdraws⟩
  · rw [hb] at hfits
    cases hu.symm.trans h
    exact ⟨⟨hfreq, hct, hfits.cells, hbufs⟩, hpad, hdraws⟩

theorem execWalk_dataInv {s t : State} (hs : DataInv s) (h : execWalk s = .next t) : DataInv t := by
  have ⟨⟨hfreq, _, hrest⟩, hpad, hdraws⟩ := hs
  obtain ⟨-, hu⟩ | ⟨-, ⟨-, hu⟩ | ⟨m, hm, hu⟩⟩ := execWalk_cases s
  · cases hu.symm.trans h; exact ⟨hs.memories, hpad, hdraws⟩
  · cases hu.symm.trans h
  · cases hu.symm.trans h; exact ⟨⟨hfreq, wf_walkTable hm, hrest⟩, hpad, hdraws⟩

theorem toNat_ofNat_pad_le {n : Nat} (h : n ≤ 8) : (BitVec.ofNat 4 n).toNat ≤ 8 := by
  rw [BitVec.toNat_ofNat]; omega

theorem drawsFresh_failEncode {s : State} : DrawsFresh s → DrawsFresh (failEncode s)
  | ⟨hnode, hsym, _⟩ => ⟨Nat.lt_succ_of_lt hnode, Nat.lt_succ_of_lt hsym, Nat.lt_succ_self _⟩

theorem drawsFresh_failDecode {s : State} : DrawsFresh s → DrawsFresh (failDecode s)
  | ⟨hnode, _, hbyte⟩ => ⟨Nat.lt_succ_of_lt hnode, Nat.lt_succ_self _, Nat.lt_succ_of_lt hbyte⟩

theorem execEncode_dataInv {s t : State} (hs : DataInv s) (h : execEncode s = .next t) : DataInv t := by
  obtain ⟨hmem, hpad, hdraws⟩ := hs
  obtain ⟨u, hu, ⟨e, info, rfl⟩ | ⟨-, hfit, rfl⟩⟩ := execEncode_cases s
  · cases hu.symm.trans h
    have hm := memoriesCanonical_failEncode hmem
    have hd := drawsFresh_failEncode hdraws
    exact ⟨hm, Nat.zero_le 8, hd⟩
  · cases hu.symm.trans h
    have hm := memoriesCanonical_byteWriteAll hmem (j := 0)
      (vs := bytesOf ((inputCode s).length / 8 + 2) (packedStream (inputCode s))) (by rw [length_bytesOf]; omega)
    exact ⟨hm, toNat_ofNat_pad_le (padOf_le _), hdraws⟩

theorem execDecode_dataInv {s t : State} (hs : DataInv s) (h : execDecode s = .next t) : DataInv t := by
  obtain ⟨hmem, hpad, hdraws⟩ := hs
  obtain ⟨u, hu, ⟨e, info, rfl⟩ | ⟨-, rfl⟩ | ⟨xs, p, ⟨-, -, -, hhead⟩, -, -, hfit, rfl⟩⟩ := execDecode_cases s
  · cases hu.symm.trans h
    have hm := memoriesCanonical_failDecode hmem
    have hd := drawsFresh_failDecode hdraws
    exact ⟨hm, Nat.zero_le 8, hd⟩
  · cases hu.symm.trans h; exact ⟨hmem, Nat.zero_le 8, hdraws⟩
  · cases hu.symm.trans h
    have hm := memoriesCanonical_symWriteAll hmem (i := 0) (vs := xs) (by omega)
    exact ⟨hm, toNat_ofNat_pad_le hhead, hdraws⟩

theorem exec_dataInv {i : Instr} {s t : State} (hs : DataInv s) (h : exec i s = .next t) : DataInv t := by
  have ⟨⟨hfreq, hct, hrest⟩, hpad, hdraws⟩ := hs
  cases i with
  | nop => cases h; exact ⟨hs.memories, hpad, hdraws⟩
  | clearFreq => cases h; exact ⟨⟨Memory.wf_nil _ _, hct, hrest⟩, hpad, hdraws⟩
  | clearTable => cases h; exact ⟨⟨hfreq, Memory.wf_nil _ _, hrest⟩, hpad, hdraws⟩
  | build => exact execBuild_dataInv hs h
  | walk => exact execWalk_dataInv hs h
  | encode => exact execEncode_dataInv hs h
  | decode => exact execDecode_dataInv hs h

/-! The command record (10_state.md R25, R26, R28, R29, R32). -/

theorem recordConsistent_accept (w : Word) (s : State) : RecordConsistent (accept w s) :=
  ⟨fun v hv => by cases hv; exact ⟨rfl, rfl, rfl⟩, fun he => absurd he (by simp), rfl, fun _ => rfl⟩

/-- A completion keeps the error record it found, or makes its own (40_command_control.md R133, R134). -/
theorem RecordConsistent.of_completes {s t : State} (h : RecordConsistent s) (hc : Completes s t) : RecordConsistent t := by
  obtain ⟨-, -, hcode, hinfo⟩ := h
  refine ⟨fun v hv => absurd (hc.phase.symm.trans hv) (by simp), fun _ => hc.done, ?_⟩
  obtain ⟨he, hec, hei, -⟩ | ⟨he, ⟨e, hec⟩, -⟩ := hc.outcome
  · rw [he, hec, hei]; exact ⟨hcode, hinfo⟩
  · rw [he, hec]; exact ⟨rfl, fun hf => absurd hf (by simp)⟩

/-- Of the writes only CMD's touches the command record, and it accepts (40_command_control.md R130). -/
theorem recordConsistent_targetWrite {g : Target} {s : State} (v : Word) (h : RecordConsistent s) :
    RecordConsistent (targetWrite g v s) := by
  cases g with
  | reg r =>
    cases r with
    | cmd => exact recordConsistent_accept v s
    | _ => exact h
  | _ => exact h

/-! The invariant under each kind of step. -/

theorem stateInv_of_completes {s t : State} (h : StateInv s) (hc : Completes s t) (hd : DataInv t) (ht : TreeConsistent t) :
    StateInv t where
  params := hc.params ▸ h.params
  memories := hd.memories
  record := h.record.of_completes hc
  tree := ht
  pad := hd.pad
  draws := hd.draws

theorem completes_completeErr (e : CmdError) (info : Word) (s : State) : Completes s (completeErr e info s) :=
  ⟨rfl, rfl, rfl, rfl, rfl, rfl, rfl, rfl, rfl, .inr ⟨rfl, ⟨e, rfl⟩, rfl⟩⟩

theorem stateInv_engineStep {s t : State} (h : StateInv s) (hst : engineStep s = .next t) : StateInv t := by
  obtain ⟨-, hu⟩ | ⟨w, -, ⟨i, -, hu⟩ | ⟨-, hu⟩⟩ := engineStep_cases s
  · cases hu.symm.trans hst; exact h
  · have hi := hu.symm.trans hst
    exact stateInv_of_completes h (exec_completes hi) (exec_dataInv h.data hi) (exec_treeConsistent h.tree hi)
  · cases hu.symm.trans hst
    exact stateInv_of_completes h (completes_completeErr _ _ _) ⟨h.memories, h.pad, h.draws⟩
      (h.tree.of_sameTree (.refl s))

theorem stateInv_targetWrite {g : Target} {s : State} (v : Word) (hg : g.isMapped s.params = true) (h : StateInv s) :
    StateInv (targetWrite g v s) := by
  have htree := h.tree.of_sameTree (targetWrite_sameTree g v s)
  have hmem := memoriesCanonical_targetWrite v hg h.memories
  have hrec := recordConsistent_targetWrite (g := g) v h.record
  obtain ⟨t, rfl, -, -, hpad, -, -, -, hnode, hparams, -, -, hdraws, hsym, hbyte⟩ := targetWrite_frame g v s
  exact {
    params := hparams ▸ h.params
    memories := hmem
    record := hrec
    tree := htree
    pad := hpad ▸ h.pad
    draws := by rw [DrawsFresh, hnode, hsym, hbyte, hdraws]; exact h.draws }

theorem stateInv_busAccess {s : State} (x : Transaction) (h : StateInv s) : StateInv (busAccess x s).1 := by
  obtain hs | ⟨g, v, hg, -, -, hs⟩ := busAccess_cases x s
  · rwa [hs]
  · obtain ⟨-, -, hmapped, -⟩ := reachedTarget_eq_some.mp hg
    rw [hs]; exact stateInv_targetWrite v hmapped h

/-- The invariant does not speak of the host's side of a run (log 1, log 5). -/
theorem StateInv.withHost {s : State} (h : StateInv s) (es : List Event) (rs : List Response) :
    StateInv { s with events := es, responses := rs } where
  params := h.params
  memories := h.memories
  record := h.record
  tree := h.tree.of_sameTree (.refl s)
  pad := h.pad
  draws := h.draws

theorem stateInv_busStep {s : State} (x : Transaction) (h : StateInv s) : StateInv (busStep x s) :=
  (stateInv_busAccess x h).withHost _ _

theorem recordConsistent_of_cleared {s : State} (hp : s.phase = .idle) (he : s.err = false) (hc : s.errCode = none)
    (hi : s.errInfo = 0#32) : RecordConsistent s :=
  ⟨fun w hw => absurd (hp.symm.trans hw) (by simp), fun h => absurd (he.symm.trans h) (by simp), by rw [he, hc]; rfl,
    fun _ => hi⟩

theorem treeConsistent_of_noTree {s : State} (hv : s.treeValid = false) (hl : s.nleaf = 0#9) (hr : s.root = noneIndex) :
    TreeConsistent s :=
  ⟨by rw [hl]; exact Nat.zero_le _, fun _ => hr, fun h => absurd (hv.symm.trans h) (by simp)⟩

theorem stateInv_resetWith {p : Params} (hp : p.WellFormed) : StateInv (State.resetWith p) where
  params := hp
  memories := memoriesCanonical_resetWith p
  record := recordConsistent_of_cleared rfl rfl rfl rfl
  tree := treeConsistent_of_noTree rfl rfl rfl
  pad := Nat.zero_le 8
  draws := ⟨Nat.one_pos, Nat.one_pos, Nat.one_pos⟩

theorem stateInv_resetEvent {s : State} (hp : s.params.WellFormed) : StateInv (resetEvent s) where
  params := hp
  memories := memoriesCanonical_resetEvent s
  record := recordConsistent_of_cleared rfl rfl rfl rfl
  tree := treeConsistent_of_noTree rfl rfl rfl
  pad := Nat.zero_le 8
  draws := ⟨Nat.lt_succ_self _, Nat.lt_succ_self _, Nat.lt_succ_self _⟩

/-- Settles O49, by the kind of the next event. -/
theorem stepKeepsInvariant : Obligations.StepKeepsInvariant := by
  intro s t h hst
  obtain ⟨-, hu⟩ | ⟨rest, ⟨-, hu⟩ | ⟨x, -, hu⟩ | ⟨-, hu⟩⟩ := step_cases s
  · exact stateInv_engineStep h (hu.symm.trans hst)
  · exact stateInv_engineStep (h.withHost rest s.responses) (hu.symm.trans hst)
  · cases hu.symm.trans hst; exact stateInv_busStep x (h.withHost rest s.responses)
  · cases hu.symm.trans hst; exact stateInv_resetEvent h.params

/-- Settles O5; `State.reset` is the case of the reference parameters. -/
theorem resetStateMeetsInvariant : Obligations.ResetStateMeetsInvariant :=
  ⟨fun _ => stateInv_resetWith, stateInv_resetWith (by decide)⟩

end Sys2Proof.Machine
end

section
/-! The register block as the bus sees it: one lemma for a read, one for a write and one for a refused write of a register, by its
offset; then the statements about single registers (10_state.md R21 to R44, 60_exceptions.md R261, R267). -/

namespace Sys2Proof.Machine

/-! A register by its offset (20_memory.md R71, R75, R80). -/

theorem isBusy_iff {p : Phase} : p.isBusy = true ↔ ∃ w, p = .busy w := by
  cases p <;> simp [Phase.isBusy]

/-- The row of register `r` can be reached: HTB is not BUSY, or the row says it can be reached then (20_memory.md R80). -/
def Reachable (r : Reg) (s : State) : Prop := s.phase.isBusy = true → r.whileBusy = true

theorem reachable_of_idle {s : State} (h : s.phase = .idle) (r : Reg) : Reachable r s :=
  fun hb => absurd hb (by simp [h, Phase.isBusy])

theorem reachable_of_whileBusy {r : Reg} (h : r.whileBusy = true) (s : State) : Reachable r s := fun _ => h

theorem reachedTarget_readAt {r : Reg} {s : State} (h : Reachable r s) : reachedTarget (readAt r.offset) s = some (.reg r) :=
  reachedTarget_eq_some.mpr ⟨⟨rfl, offset_aligned r⟩, targetAt_reg r, rfl, h⟩

theorem reachedTarget_writeAt {r : Reg} {s : State} (h : Reachable r s) (v : Word) :
    reachedTarget (writeAt r.offset v) s = some (.reg r) :=
  reachedTarget_eq_some.mpr ⟨⟨rfl, offset_aligned r⟩, targetAt_reg r, rfl, h⟩

theorem busAccess_readAt {r : Reg} {s : State} (h : Reachable r s) :
    busAccess (readAt r.offset) s = (s, { resp := .ok, rdata := regRead s r }) :=
  busAccess_of_read (reachedTarget_readAt h) rfl

theorem busAccess_writeAt {r : Reg} {s : State} (h : Reachable r s) (hr : r.readOnly = false) (v : Word) :
    busAccess (writeAt r.offset v) s = (regWrite r v s, writeResponse s) :=
  busAccess_of_write (reachedTarget_writeAt h v) rfl hr

theorem busAccess_writeAt_readOnly {r : Reg} {s : State} (h : Reachable r s) (hr : r.readOnly = true) (v : Word) :
    busAccess (writeAt r.offset v) s = (s, { resp := .err, rdata := 0#32 }) :=
  busAccess_of_readOnly (reachedTarget_writeAt h v) rfl hr

/-! Reset (10_state.md R51, 70_reset_and_hazards.md R290). -/

theorem step_of_reset {s : State} {rest : List Event} (h : s.events = .reset :: rest) :
    step s = .next (resetEvent { s with events := rest }) := by
  simp only [step, h]

/-- With nothing pending the interrupt line is low (60_exceptions.md R267). -/
theorem irq_of_nothing_pending {s : State} (h : s.irqStatus = 0#2) : s.irq = false := by
  simp [State.irq, doneIp, errIp, h]

/-- STATUS reads 0 after reset (10_state.md R51). -/
theorem statusWord_resetEvent (s : State) : statusWord (resetEvent s) = 0x00000000#32 := by
  simp [statusWord, errCodeByte, Phase.isBusy, field]

/-- Settles O4: each field of the state the reset event leaves. -/
theorem resetEventGivesResetValues : Obligations.ResetEventGivesResetValues := by
  intro s rest h
  exact ⟨_, step_of_reset h, rfl, statusWord_resetEvent _, rfl, rfl, rfl, rfl, rfl, rfl, rfl, rfl, rfl, rfl, rfl, rfl,
    fun _ => rfl, fun _ => rfl, fun _ => rfl, fun _ => rfl, fun _ => rfl, irq_of_nothing_pending rfl, rfl, rfl, rfl⟩

/-! Single registers. -/

/-- Settles O9, register by register, each reachable while IDLE. -/
theorem operandAndResultRegisters : Obligations.OperandAndResultRegisters := by
  intro s v h
  have read (r : Reg) := busAccess_readAt (reachable_of_idle h r)
  exact ⟨read .errInfo, read .symLen, read .byteLen, read .encBits, read .pad, read .nleaf, read .nnode, read .root,
    busAccess_writeAt (reachable_of_idle h .symLen) rfl v, busAccess_writeAt (reachable_of_idle h .byteLen) rfl v⟩

/-- A legal buffer size fits its 32-bit register (00_scope.md R7). -/
theorem toNat_ofNat_of_legalBufferSize {n : Nat} (h : legalBufferSize n) : (BitVec.ofNat 32 n).toNat = n := by
  obtain ⟨-, -, hle⟩ := h
  rw [BitVec.toNat_ofNat]
  omega

/-- Settles O10: the four rows can be reached while BUSY too, and are read-only. -/
theorem constantRegistersRead : Obligations.ConstantRegistersRead := by
  intro s hp
  have read {r : Reg} (hr : r.whileBusy = true) := busAccess_readAt (reachable_of_whileBusy hr s)
  have refused {r : Reg} (hr : r.whileBusy = true) := busAccess_writeAt_readOnly (reachable_of_whileBusy hr s)
  refine ⟨read (r := .id) rfl, read (r := .version) rfl,
    ⟨_, read (r := .symBufSize) rfl, toNat_ofNat_of_legalBufferSize hp.1⟩,
    ⟨_, read (r := .byteBufSize) rfl, toNat_ofNat_of_legalBufferSize hp.2⟩, fun o v ho => ?_⟩
  simp only [List.mem_cons, List.not_mem_nil, or_false] at ho
  obtain rfl | rfl | rfl | rfl := ho
  · exact refused (r := .id) rfl rfl v
  · exact refused (r := .version) rfl rfl v
  · exact refused (r := .symBufSize) rfl rfl v
  · exact refused (r := .byteBufSize) rfl rfl v

/-- The codes number the errors from 1 in the order of the table (60_exceptions.md R261). -/
theorem CmdError.toNat_code (e : CmdError) : e.code.toNat = e.ctorIdx + 1 := by cases e <;> rfl

theorem CmdError.code_injective {a b : CmdError} (h : a.code = b.code) : a = b := by
  have hidx : a.ctorIdx = b.ctorIdx := by
    have := congrArg BitVec.toNat h
    rwa [toNat_code, toNat_code, Nat.add_right_cancel_iff] at this
  rw [← CmdError.ofNat_ctorIdx a, hidx, CmdError.ofNat_ctorIdx]

theorem CmdError.code_ne_zero (e : CmdError) : e.code ≠ 0x00#8 := by
  intro h
  have := e.toNat_code
  simp [h] at this

/-- Settles O11, from the fields of STATUS and the numbering of the errors. -/
theorem statusReadsItsFields : Obligations.StatusReadsItsFields := by
  refine ⟨fun s => ?_, rfl, rfl, rfl, rfl, rfl, rfl, rfl, rfl, rfl, rfl, rfl, fun _ _ => CmdError.code_injective,
    CmdError.code_ne_zero⟩
  have hs : Reachable .status s := reachable_of_whileBusy rfl s
  obtain ⟨hbusy, hdone, herr, htree, hop, hcode, hzero⟩ := statusWord_fields s
  exact ⟨busAccess_writeAt_readOnly hs rfl, _, busAccess_readAt hs, by rw [regRead, hbusy]; exact isBusy_iff, hdone, herr,
    htree, hop, fun he => by rw [regRead, hcode, he]; rfl, fun e he => by rw [regRead, hcode, he]; rfl, hzero⟩

/-- What the three read-back registers show when NODE_SEL = NONE (10_state.md R44). -/
theorem regRead_node_of_none {s : State} (h : s.nodeSel = noneIndex) :
    regRead s .nodeFreq = 0#32 ∧ regRead s .nodeInfo = 0#32 ∧ regRead s .nodeLink = 0#32 := by
  simp [regRead, selectedNode, h]

/-- What they show of the selected entry (10_state.md R44). -/
theorem regRead_node_of_selected {s : State} (h : s.nodeSel ≠ noneIndex) :
    regRead s .nodeFreq = (nodeRead s s.nodeSel.toNat).freq ∧
      regRead s .nodeInfo = nodeInfoWord (nodeRead s s.nodeSel.toNat) ∧
      regRead s .nodeLink = nodeLinkWord (nodeRead s s.nodeSel.toNat) := by
  simp only [regRead, selectedNode, if_neg h, and_self]

/-- Settles O17, by whether NODE_SEL is NONE and by the fields of the read-back words. -/
theorem nodeWindow : Obligations.NodeWindow := by
  refine ⟨rfl, fun s v h => ?_⟩
  have read (r : Reg) := busAccess_readAt (reachable_of_idle h r)
  refine ⟨read .nodeSel, busAccess_writeAt (reachable_of_idle h .nodeSel) rfl v, _, _, _, read .nodeFreq, read .nodeInfo,
    read .nodeLink, regRead_node_of_none, fun hsel => ?_⟩
  obtain ⟨hf, hi, hl⟩ := regRead_node_of_selected hsel
  obtain ⟨hleaf, hgap, hsym⟩ := nodeInfoWord_fields (nodeRead s s.nodeSel.toNat)
  rw [hi, hl]
  exact ⟨hf, hleaf, hgap, hsym, nodeLinkWord_fields _⟩

/-- The interrupt line: an enabled bit is pending (60_exceptions.md R267). -/
theorem irq_eq_true_iff (s : State) : s.irq = true ↔ (s.irqStatus.getLsbD 0 = true ∧ s.irqEn.getLsbD 0 = true) ∨
    (s.irqStatus.getLsbD 1 = true ∧ s.irqEn.getLsbD 1 = true) := by
  simp only [State.irq, doneIp, doneIe, errIp, errIe, Bool.or_eq_true, Bool.and_eq_true]

/-- Settles O18: the row of IRQ_EN can be reached while BUSY too. -/
theorem interruptEnableAndLine : Obligations.InterruptEnableAndLine := by
  refine ⟨rfl, rfl, fun s v => ?_⟩
  have hs : Reachable .irqEn s := reachable_of_whileBusy rfl s
  exact ⟨busAccess_writeAt hs rfl v, busAccess_readAt hs, irq_eq_true_iff s⟩

/-! The code-table window (10_state.md R41). -/

theorem ctRead_ctWrite_same (x : Byte) (e : CtEntry) (s : State) : ctRead (ctWrite x e s) x = e := by
  rw [ctRead_ctWrite, if_pos rfl]

theorem ctRead_ctWrite_other {x y : Byte} (h : y ≠ x) (e : CtEntry) (s : State) :
    ctRead (ctWrite x e s) y = ctRead s y := by
  rw [ctRead_ctWrite, if_neg h]

/-- Settles O16, by read after write of the selected entry and of the others, and word by word of CODE. -/
theorem codeTableWindow : Obligations.CodeTableWindow := by
  refine ⟨rfl, fun s v h => ?_⟩
  have read (r : Reg) := busAccess_readAt (reachable_of_idle h r)
  have write {r : Reg} (hr : r.readOnly = false) := busAccess_writeAt (reachable_of_idle h r) hr v
  refine ⟨read .ctSel, write (r := .ctSel) rfl, read .ctLen, ⟨_, write (r := .ctLen) rfl, rfl, ?_, ?_⟩,
    fun k hk => ⟨read (.ctCode ⟨k, hk⟩), _, write (r := .ctCode ⟨k, hk⟩) rfl, rfl, ?_, ?_, ?_⟩⟩
  · exact ctRead_ctWrite_same _ _ s
  · exact fun y hy => ctRead_ctWrite_other hy _ s
  · rw [regWrite, ctRead_ctWrite_same]
  · intro j hj
    rw [regWrite, ctRead_ctWrite_same]
    simpa using extract_setCodeWord ⟨k, hk⟩ ⟨j, hj⟩ v (ctRead s s.ctSel).code
  · exact fun y hy => ctRead_ctWrite_other hy _ s

end Sys2Proof.Machine
end

section
/-! The slave port (20_memory.md R70 to R89): which offset selects what, the accesses that are refused, what a read and a write of
each register and window word does, that no transaction but an accepted CMD write does more when done twice, and what the host can
still change while a command is pending. -/

namespace Sys2Proof.Machine

/-! The offset map (20_memory.md R71, R74). -/

theorem offset_of_regAt {n : Nat} {r : Reg} (h : regAt n = some r) : r.offset = 4 * n := by
  unfold regAt at h
  split at h <;> cases h <;> rfl

theorem Reg.offset_lt (r : Reg) : r.offset < 0x00078 := by
  cases r with
  | ctCode k => have := k.isLt; simp only [Reg.offset]; omega
  | _ => decide

/-- The register block has 30 words (20_memory.md R71). -/
theorem regAt_eq_none {n : Nat} : regAt n = none ↔ 30 ≤ n := by
  constructor
  · intro h
    by_contra hn
    have hsome : ∀ k < 30, regAt k ≠ none := by decide
    exact hsome n (by omega) h
  · intro hn
    cases hr : regAt n with
    | none => rfl
    | some r => have := offset_of_regAt hr; have := r.offset_lt; omega

/-- The window words that have an offset of the map: each buffer window has room for 0x4000 words (20_memory.md R71). -/
def Target.InMap : Target → Prop
  | .reg _ | .freq _ => True
  | .symWord w | .byteWord w => w < 0x4000

theorem targetAt_offset {g : Target} (h : g.InMap) : targetAt (BitVec.ofNat 18 g.offset) = some g := by
  cases g with
  | reg r => exact targetAt_reg r
  | freq x => exact targetAt_freq x
  | symWord w => exact targetAt_symWord h
  | byteWord w => exact targetAt_byteWord h

/-- What an aligned offset selects has that offset. -/
theorem offset_of_targetAt {o : Offset} {g : Target} (ho : o.toNat % 4 = 0) (h : targetAt o = some g) :
    g.InMap ∧ o.toNat = g.offset := by
  simp only [targetAt] at h
  split_ifs at h with hreg hfreq hgap hsym hbyte
  · obtain ⟨r, hr, rfl⟩ := Option.map_eq_some_iff.mp h
    have := offset_of_regAt hr
    exact ⟨trivial, by simp only [Target.offset]; omega⟩
  · cases h
    exact ⟨trivial, by simp only [Target.offset, BitVec.toNat_ofNat]; omega⟩
  · cases h
    exact ⟨by simp only [Target.InMap]; omega, by simp only [Target.offset]; omega⟩
  · cases h
    exact ⟨by simp only [Target.InMap]; omega, by simp only [Target.offset]; omega⟩

theorem targetAt_eq_some {o : Offset} {g : Target} (ho : o.toNat % 4 = 0) :
    targetAt o = some g ↔ g.InMap ∧ o.toNat = g.offset := by
  refine ⟨offset_of_targetAt ho, fun ⟨hg, hoff⟩ => ?_⟩
  rw [← targetAt_offset hg, ← hoff, BitVec.ofNat_toNat, BitVec.setWidth_eq]

theorem targetAt_eq_none {o : Offset} (ho : o.toNat % 4 = 0) : targetAt o = none ↔
    (0x00078 ≤ o.toNat ∧ o.toNat ≤ 0x003FC) ∨ (0x00800 ≤ o.toNat ∧ o.toNat ≤ 0x0FFFC) ∨ 0x30000 ≤ o.toNat := by
  simp only [targetAt]
  split_ifs <;> simp only [Option.map_eq_none_iff, regAt_eq_none, true_iff, false_iff] <;> omega

/-- Settles O3, from what an aligned offset selects. -/
theorem offsetMapAgrees : Obligations.OffsetMapAgrees := by
  refine ⟨fun o r ho => ?_, fun o x ho => ?_, fun o w ho => ?_, fun o w ho => ?_, fun o ho => targetAt_eq_none ho⟩
  · exact (targetAt_eq_some ho).trans (iff_of_eq (true_and _))
  · exact (targetAt_eq_some ho).trans (iff_of_eq (true_and _))
  · exact targetAt_eq_some ho
  · exact targetAt_eq_some ho

/-! The refused accesses (20_memory.md R73, R74, R78). -/

/-- What a transaction reaches is legal-width, stands at the transaction's offset, and is mapped. -/
theorem offset_of_reachedTarget {t : Transaction} {s : State} {g : Target} (h : reachedTarget t s = some g) :
    t.WellFormed ∧ g.InMap ∧ t.offset.toNat = g.offset ∧ g.isMapped s.params = true := by
  obtain ⟨hw, hg, hm, -⟩ := reachedTarget_eq_some.mp h
  obtain ⟨hin, ho⟩ := offset_of_targetAt hw.2 hg
  exact ⟨hw, hin, ho, hm⟩

theorem busAccess_of_not_reached {t : Transaction} {s : State} (h : ∀ g, reachedTarget t s ≠ some g) :
    busAccess t s = (s, { resp := .err, rdata := 0#32 }) :=
  busAccess_of_none (Option.eq_none_iff_forall_ne_some.mpr h)

/-- Settles O6: such an access is not legal-width. -/
theorem narrowOrMisalignedAccessRefused : Obligations.NarrowOrMisalignedAccessRefused := by
  intro t s h
  refine busAccess_of_not_reached fun g hg => ?_
  obtain ⟨⟨hsize, halign⟩, -⟩ := offset_of_reachedTarget hg
  obtain hs | hlow := h
  · exact hs hsize
  · exact hlow (BitVec.eq_of_toNat_eq (by simpa using halign))

/-- Settles O7: the offset of a mapped target is none of these, by the kind of target. -/
theorem reservedOffsetRefused : Obligations.ReservedOffsetRefused := by
  intro t s h
  refine busAccess_of_not_reached fun g hg => ?_
  obtain ⟨-, hin, ho, hm⟩ := offset_of_reachedTarget hg
  cases g with
  | reg r => have := r.offset_lt; simp only [Target.offset] at ho; omega
  | freq x => have := x.isLt; simp only [Target.offset] at ho; omega
  | symWord w => simp only [Target.InMap, Target.offset, Target.isMapped, decide_eq_true_eq] at hin ho hm; omega
  | byteWord w => simp only [Target.InMap, Target.offset, Target.isMapped, decide_eq_true_eq] at hin ho hm; omega

/-! The registers by access kind (20_memory.md R75). -/

/-- Settles O8, through the register's row: read-only or not, and reachable while IDLE. -/
theorem registerAccessByKind : Obligations.RegisterAccessByKind := by
  intro s h
  refine ⟨fun r v hr => ?_, busAccess_readAt (reachable_of_idle h .cmd), fun r _ => busAccess_readAt (reachable_of_idle h r),
    fun r v hr => busAccess_writeAt (reachable_of_idle h r) ?_ v⟩
  · have hro : ∀ q ∈ [Reg.id, .version, .symBufSize, .byteBufSize, .status, .errInfo, .encBits, .pad, .nleaf, .nnode, .root,
        .nodeFreq, .nodeInfo, .nodeLink], q.readOnly = true := by decide
    exact busAccess_writeAt_readOnly (reachable_of_idle h r) (hro r hr) v
  · obtain rfl | rfl | rfl | rfl | rfl | rfl | rfl | ⟨k, rfl⟩ | rfl := hr <;> rfl

/-! The windows (20_memory.md R76, R77, R79). -/

section
variable {s : State} {o : Nat} {g : Target} (hidle : s.phase = .idle) (ho : o % 4 = 0)
  (hg : targetAt (BitVec.ofNat 18 o) = some g) (hm : g.isMapped s.params = true)
include hidle ho hg hm

/-- While IDLE a legal-width transaction at the offset of a mapped target reaches it. -/
theorem reachedTarget_of_idle {t : Transaction} (hs : t.size = .four) (hto : t.offset = BitVec.ofNat 18 o) :
    reachedTarget t s = some g := by
  have halign : t.offset.toNat % 4 = 0 := by rw [hto, BitVec.toNat_ofNat]; omega
  exact reachedTarget_eq_some.mpr ⟨⟨hs, halign⟩, hto ▸ hg, hm, fun hb => absurd hb (by simp [hidle, Phase.isBusy])⟩

theorem busAccess_readAt_target : busAccess (readAt o) s = (s, { resp := .ok, rdata := targetRead s g }) :=
  busAccess_of_read (reachedTarget_of_idle hidle ho hg hm rfl rfl) rfl

theorem busAccess_writeAt_target (hr : g.readOnly = false) (v : Word) :
    busAccess (writeAt o v) s = (targetWrite g v s, writeResponse s) :=
  busAccess_of_write (reachedTarget_of_idle hidle ho hg hm rfl rfl) rfl hr

end

/-- Settles O14, by read after write of FREQ. -/
theorem freqWindow : Obligations.FreqWindow := by
  intro s x v h
  have ho : (0x00400 + 4 * x.toNat) % 4 = 0 := by omega
  refine ⟨busAccess_readAt_target h ho (targetAt_freq x) rfl, _,
    busAccess_writeAt_target h ho (targetAt_freq x) rfl rfl v, ?_, fun y hy => ?_, rfl⟩
  · exact (freqRead_freqWrite x x v s).trans (if_pos rfl)
  · exact (freqRead_freqWrite x y v s).trans (if_neg hy)

/-- Lane k of a word is its bits 8k+7:8k (20_memory.md R76). -/
theorem getElem?_lanes (v : Word) {k : Nat} (hk : k < 4) : (lanes v)[k]? = some (v.extractLsb' (8 * k) 8) := by
  interval_cases k <;> rfl

/-- Bits 8k+7:8k of a word of four consecutive entries are entry k (20_memory.md R76). -/
theorem extract_laneWord (f : Nat → Byte) (i : Nat) {k : Nat} (hk : k < 4) :
    (laneWord (f i) (f (i + 1)) (f (i + 2)) (f (i + 3))).extractLsb' (8 * k) 8 = f (i + k) := by
  refine Option.some.inj ((getElem?_lanes _ hk).symm.trans ?_)
  rw [lanes_laneWord]
  interval_cases k <;> rfl

/-- A memory that reads `f` before and `g` after a word's lanes were listed from index `i` on: the four entries and the others. -/
theorem read_of_lanes_listed {f g : Nat → Byte} {i : Nat} {v : Word}
    (h : ∀ j, g j = if i ≤ j ∧ j < i + (lanes v).length then (lanes v).getD (j - i) 0#8 else f j) :
    (∀ k < 4, g (i + k) = v.extractLsb' (8 * k) 8) ∧ ∀ j, j < i ∨ i + 4 ≤ j → g j = f j := by
  refine ⟨fun k hk => ?_, fun j hj => ?_⟩
  · rw [h, if_pos ⟨Nat.le_add_right i k, Nat.add_lt_add_left hk i⟩, Nat.add_sub_cancel_left, List.getD_eq_getElem?_getD,
      getElem?_lanes v hk, Option.getD_some]
  · rw [h]
    exact if_neg (by simp only [lanes, List.length_cons, List.length_nil]; omega)

/-- A word within a legal size has an offset of the map (00_scope.md R7). -/
theorem lt_of_lt_bufferWords {n w : Nat} (hn : legalBufferSize n) (hw : w < n / 4) : w < 0x4000 := by
  obtain ⟨-, -, hle⟩ := hn
  omega

/-- Settles O15, lane by lane through the word's target, once for each buffer. -/
theorem bufferWindows : Obligations.BufferWindows := by
  intro s w v h hp
  obtain ⟨hsym, hbyte⟩ := hp
  have hosym : (0x10000 + 4 * w) % 4 = 0 := by omega
  have hobyte : (0x20000 + 4 * w) % 4 = 0 := by omega
  refine ⟨fun hw => ?_, fun hw => ?_⟩
  · have hg := targetAt_symWord (lt_of_lt_bufferWords hsym hw)
    have hm : (Target.symWord w).isMapped s.params = true := decide_eq_true hw
    obtain ⟨hlanes, hothers⟩ := read_of_lanes_listed fun j => symRead_symWriteAll (4 * w) j (lanes v) s
    exact ⟨⟨_, busAccess_readAt_target h hosym hg hm, fun k => extract_laneWord (symRead s) (4 * w)⟩,
      _, busAccess_writeAt_target h hosym hg hm rfl v, hlanes, hothers, rfl⟩
  · have hg := targetAt_byteWord (lt_of_lt_bufferWords hbyte hw)
    have hm : (Target.byteWord w).isMapped s.params = true := decide_eq_true hw
    obtain ⟨hlanes, hothers⟩ := read_of_lanes_listed fun j => byteRead_byteWriteAll (4 * w) j (lanes v) s
    exact ⟨⟨_, busAccess_readAt_target h hobyte hg hm, fun k => extract_laneWord (byteRead s) (4 * w)⟩,
      _, busAccess_writeAt_target h hobyte hg hm rfl v, hlanes, hothers, rfl⟩

/-! Writing a memory twice, as data: no order of the entries is assumed. -/

theorem Memory.insert_insert_same {α : Type} (i : Nat) (v : α) (m : Memory α) :
    Memory.insert i v (m.insert i v) = m.insert i v := by
  induction m with
  | nil => simp [Memory.insert]
  | cons c m ih =>
    obtain ⟨j, w⟩ := c
    by_cases hlt : i < j
    · simp [Memory.insert, hlt]
    · by_cases heq : i = j
      · simp [Memory.insert, heq]
      · simp [Memory.insert, hlt, heq, ih]

/-- Listing entries at two indices commutes. -/
theorem Memory.insert_insert_comm {α : Type} {i k : Nat} (h : i < k) (v u : α) (m : Memory α) :
    Memory.insert i v (m.insert k u) = (Memory.insert i v m).insert k u := by
  have hki : ¬ k < i := by omega
  have hne : k ≠ i := by omega
  induction m with
  | nil => simp [Memory.insert, h, hki, hne]
  | cons c m ih =>
    obtain ⟨j, w⟩ := c
    rcases Nat.lt_trichotomy i j with hij | rfl | hij
    · rcases Nat.lt_trichotomy k j with hkj | rfl | hkj
      · simp [Memory.insert, h, hij, hki, hne, hkj]
      · simp [Memory.insert, h, hki, hne]
      · simp [Memory.insert, hij, hki, hne, Nat.lt_asymm hkj, Nat.ne_of_gt hkj]
    · simp [Memory.insert, hki, hne]
    · have hkj : j < k := by omega
      simp [Memory.insert, Nat.lt_asymm hij, Nat.ne_of_gt hij, Nat.lt_asymm hkj, Nat.ne_of_gt hkj, ih]

theorem Memory.insert_insertAll_comm {α : Type} (k : Nat) (u : α) (vs : List α) :
    ∀ {i : Nat} (m : Memory α), k < i → Memory.insert k u (m.insertAll i vs) = (Memory.insert k u m).insertAll i vs := by
  induction vs with
  | nil => intro i m _; rfl
  | cons v vs ih =>
    intro i m h
    simp only [Memory.insertAll]
    rw [ih _ (by omega), Memory.insert_insert_comm h]

theorem Memory.insertAll_insertAll_same {α : Type} (vs : List α) :
    ∀ (i : Nat) (m : Memory α), (m.insertAll i vs).insertAll i vs = m.insertAll i vs := by
  induction vs with
  | nil => intro i m; rfl
  | cons v vs ih =>
    intro i m
    simp only [Memory.insertAll]
    rw [Memory.insert_insertAll_comm i v vs _ (Nat.lt_succ_self i), Memory.insert_insert_same, ih]

theorem Memory.write_write_same {α : Type} [DecidableEq α] (d : α) (i : Nat) (v : α) (m : Memory α) :
    Memory.write d i v (m.write d i v) = m.write d i v := by
  unfold Memory.write
  split
  · simp [Memory.erase]
  · exact Memory.insert_insert_same i v m

/-! Writing a target twice (20_memory.md R82). -/

theorem setCodeWord_setCodeWord_same (k : Fin 8) (v : Word) (c : CodeWord) :
    setCodeWord k v (setCodeWord k v c) = setCodeWord k v c := by
  have absorb (a b d : CodeWord) : ((a &&& b) ||| d) &&& b ||| d = (a &&& b) ||| d := by
    apply BitVec.eq_of_getLsbD_eq
    intro i _
    simp only [BitVec.getLsbD_or, BitVec.getLsbD_and]
    cases a.getLsbD i <;> cases b.getLsbD i <;> cases d.getLsbD i <;> rfl
  exact absorb _ _ _

theorem clearPending_clearPending_same (v : Word) (p : BitVec 2) :
    clearPending v (clearPending v p) = clearPending v p := by
  simp only [clearPending, BitVec.and_assoc, BitVec.and_self]

theorem ctWrite_ctWrite_same (x : Byte) (e : CtEntry) (s : State) : ctWrite x e (ctWrite x e s) = ctWrite x e s := by
  simp only [ctWrite, ctPut, Memory.write_write_same]

theorem regWrite_regWrite_same {r : Reg} (h : r ≠ .cmd) (v : Word) (s : State) :
    regWrite r v (regWrite r v s) = regWrite r v s := by
  cases r with
  | cmd => exact absurd rfl h
  | irqStatus => simp only [regWrite, clearPending_clearPending_same]
  | ctLen => simp only [regWrite, ctWrite_ctSel, ctRead_ctWrite_same, ctWrite_ctWrite_same]
  | ctCode k =>
    simp only [regWrite, ctWrite_ctSel, ctRead_ctWrite_same, setCodeWord_setCodeWord_same, ctWrite_ctWrite_same]
  | _ => rfl

theorem targetWrite_targetWrite_same {g : Target} (h : g ≠ .reg .cmd) (v : Word) (s : State) :
    targetWrite g v (targetWrite g v s) = targetWrite g v s := by
  cases g with
  | reg r => exact regWrite_regWrite_same (fun hr => h (congrArg Target.reg hr)) v s
  | freq x => simp only [targetWrite, freqWrite, Memory.write_write_same]
  | symWord w => simp only [targetWrite, symWriteAll, Memory.insertAll_insertAll_same]
  | byteWord w => simp only [targetWrite, byteWriteAll, Memory.insertAll_insertAll_same]

/-- A transaction at any offset but CMD's is idempotent (20_memory.md R82). -/
theorem busAccess_busAccess_same {t : Transaction} (h : t.offset ≠ 0x00010#18) (s : State) :
    (busAccess t (busAccess t s).1).1 = (busAccess t s).1 := by
  obtain h₁ | ⟨g, v, hg, hk, -, h₁⟩ := busAccess_cases t s
  · rw [h₁, h₁]
  obtain h₂ | ⟨g', v', hg', hk', -, h₂⟩ := busAccess_cases t (busAccess t s).1
  · exact h₂
  obtain ⟨-, hat, -⟩ := reachedTarget_eq_some.mp hg
  obtain ⟨-, hat', -⟩ := reachedTarget_eq_some.mp hg'
  cases hat.symm.trans hat'
  cases hk.symm.trans hk'
  have hcmd : g ≠ .reg .cmd := by
    rintro rfl
    obtain ⟨-, -, ho, -⟩ := offset_of_reachedTarget hg
    exact h (BitVec.eq_of_toNat_eq ho)
  rw [h₂, h₁, targetWrite_targetWrite_same hcmd]

/-- Settles O13, by what a transaction can do, and by writing each target twice. -/
theorem readsPureWritesIdempotent : Obligations.ReadsPureWritesIdempotent := by
  refine ⟨fun t s hk => ?_, fun t s h => busAccess_busAccess_same h s, fun w s h => ?_⟩
  · obtain hs | ⟨g, v, -, hw, -⟩ := busAccess_cases t s
    · exact hs
    · cases hk.symm.trans hw
  · exact congrArg (·.1.phase) (busAccess_writeAt (reachable_of_idle h .cmd) rfl w)

/-! While a command is pending (20_memory.md R80, R86, R89). -/

/-- The rows that can be reached while BUSY, by their offsets (20_memory.md R71, R80). -/
theorem offset_of_whileBusy {r : Reg} (h : r.whileBusy = true) :
    r.offset ∈ [0x00000, 0x00004, 0x00008, 0x0000C, 0x00014, 0x00018, 0x0001C] := by
  cases r with
  | id | version | symBufSize | byteBufSize | status | irqEn | irqStatus => decide
  | _ => cases h

theorem busAccess_of_busy_of_offset {s : State} {w : Word} (h : s.phase = .busy w) {t : Transaction}
    (ho : t.offset.toNat ∉ [0x00000, 0x00004, 0x00008, 0x0000C, 0x00014, 0x00018, 0x0001C]) :
    busAccess t s = (s, { resp := .err, rdata := 0#32 }) := by
  refine busAccess_of_not_reached fun g hg => ho ?_
  obtain ⟨-, -, hoff, -⟩ := offset_of_reachedTarget hg
  obtain ⟨-, -, -, hbusy⟩ := reachedTarget_eq_some.mp hg
  have hb := hbusy (isBusy_iff.mpr ⟨w, h⟩)
  cases g with
  | reg r => exact hoff ▸ offset_of_whileBusy hb
  | _ => cases hb

/-- Settles O12, through the rows that can be reached while BUSY. -/
theorem busyRefusesOtherAccesses : Obligations.BusyRefusesOtherAccesses := by
  intro s w h
  have hcmd : (BitVec.ofNat 18 0x00010).toNat ∉ [0x00000, 0x00004, 0x00008, 0x0000C, 0x00014, 0x00018, 0x0001C] := by decide
  have hread : ∀ r ∈ [Reg.id, .version, .symBufSize, .byteBufSize, .status, .irqEn, .irqStatus], r.whileBusy = true := by decide
  have hro : ∀ r ∈ [Reg.id, .version, .symBufSize, .byteBufSize, .status], r.whileBusy = true ∧ r.readOnly = true := by decide
  refine ⟨fun v => busAccess_of_busy_of_offset h hcmd, fun t => busAccess_of_busy_of_offset h,
    fun r hr => busAccess_readAt (reachable_of_whileBusy (hread r hr) s),
    fun r v hr => busAccess_writeAt_readOnly (reachable_of_whileBusy (hro r hr).1 s) (hro r hr).2 v,
    busAccess_writeAt (reachable_of_whileBusy (r := .irqEn) rfl s) rfl,
    busAccess_writeAt (reachable_of_whileBusy (r := .irqStatus) rfl s) rfl⟩

/-- Of the registers that can be reached while BUSY, only the two interrupt registers can be written. -/
theorem targetWrite_of_whileBusy {g : Target} (hb : g.whileBusy = true) (hr : g.readOnly = false) (v : Word) (s : State) :
    ∃ en st, targetWrite g v s = { s with irqEn := en, irqStatus := st } := by
  cases g with
  | reg r =>
    cases r with
    | irqEn => exact ⟨_, _, rfl⟩
    | irqStatus => exact ⟨_, _, rfl⟩
    | id | version | symBufSize | byteBufSize | status => cases hr
    | _ => cases hb
  | _ => cases hb

/-- All that a transaction can change while a command is pending (20_memory.md R80). -/
theorem busAccess_of_busy {s : State} {w : Word} (h : s.phase = .busy w) (t : Transaction) :
    ∃ en st, (busAccess t s).1 = { s with irqEn := en, irqStatus := st } := by
  obtain hs | ⟨g, v, hg, -, hr, hs⟩ := busAccess_cases t s
  · exact ⟨s.irqEn, s.irqStatus, hs⟩
  · obtain ⟨-, -, -, hbusy⟩ := reachedTarget_eq_some.mp hg
    rw [hs]
    exact targetWrite_of_whileBusy (hbusy (isBusy_iff.mpr ⟨w, h⟩)) hr v s

/-! Transactions as steps of a run (20_memory.md R81, R86). -/

theorem step_of_bus {s : State} {t : Transaction} {rest : List Event} (h : s.events = .bus t :: rest) :
    step s = .next (busStep t { s with events := rest }) := by
  simp only [step, h]

theorem busAccess_events (t : Transaction) (s : State) : (busAccess t s).1.events = s.events := by
  obtain hs | ⟨g, v, -, -, -, hs⟩ := busAccess_cases t s
  · rw [hs]
  · obtain ⟨u, hu, -, -, -, -, -, -, -, -, hev, -⟩ := targetWrite_frame g v s
    rw [hs, hu, hev]

/-- Settles O21: the step is `busStep`, and a transaction leaves the queue alone. -/
theorem stepServesNextTransaction : Obligations.StepServesNextTransaction := by
  intro s t rest h u r hu
  refine ⟨?_, ?_⟩
  · rw [step_of_bus h, busStep, hu]
  · have hev := busAccess_events t { s with events := rest }
    rwa [hu] at hev

/-- One host transaction while a command is pending: the step changes IRQ_EN, IRQ_STATUS, the responses and the queue alone. -/
theorem step_of_bus_of_busy {s : State} {w : Word} {x : Transaction} {rest : List Event} (h : s.phase = .busy w)
    (hev : s.events = .bus x :: rest) : ∃ en st r,
    step s = .next { s with irqEn := en, irqStatus := st, responses := s.responses ++ [r], events := rest } := by
  obtain ⟨en, st, hx⟩ := busAccess_of_busy (s := { s with events := rest }) h x
  exact ⟨en, st, _, by rw [step_of_bus hev, busStep, hx]⟩

theorem core_run_succ {s t : State} (h : step s = .next t) (n : Nat) : core.run (n + 1) s = core.run n t := by
  simp only [Host.Core.run, show core.step s = .next t from h]

/-- Settles O56, by induction on the list of transactions, one step of the host for each. -/
theorem hostCannotDisturbPendingCommand : Obligations.HostCannotDisturbPendingCommand := by
  intro xs
  induction xs with
  | nil =>
    intro (s : State) w _ hev
    exact ⟨s, rfl, congrArg (fun es => { s with events := es }) hev, rfl⟩
  | cons x xs ih =>
    intro s w h hev
    obtain ⟨en, st, r, hstep⟩ := step_of_bus_of_busy h hev
    obtain ⟨t, hrun, hframe, hlen⟩ := ih
      { s with irqEn := en, irqStatus := st, responses := s.responses ++ [r], events := xs.map .bus } w h rfl
    refine ⟨t, (core_run_succ hstep xs.length).trans hrun, hframe, ?_⟩
    rw [hlen, List.length_append, List.length_singleton, List.length_cons, Nat.add_assoc, Nat.add_comm 1]

end Sys2Proof.Machine
end

section
/-! Command words (30_encoding.md R100 to R103): the three things the decoder can answer, and that it undoes the encoder. -/

namespace Sys2Proof

theorem toNat_opField (w : Word) : (opField w).toNat = w.toNat % 16 := by
  simp [opField, BitVec.extractLsb'_toNat]

theorem mbzField_eq_zero {w : Word} : mbzField w = 0#28 ↔ w.toNat / 16 = 0 := by
  have hlt := w.isLt
  rw [← BitVec.toNat_inj]
  simp only [mbzField, BitVec.extractLsb'_toNat, Nat.shiftRight_eq_div_pow, BitVec.toNat_ofNat]
  omega

/-- The word of a command is legal (30_encoding.md R101, R102). -/
theorem wellFormed_encodeCommand (i : Instr) : CommandWord.WellFormed (encodeCommand i) := by
  cases i <;> decide

theorem decodeCommand_encodeCommand (i : Instr) : decodeCommand (encodeCommand i) = .ok i := by
  cases i <;> rfl

/-- Every legal word is a command's (30_encoding.md R101). -/
theorem exists_eq_encodeCommand {w : Word} (h : CommandWord.WellFormed w) : ∃ i, w = encodeCommand i := by
  have hrows : ∀ n ≤ 6, ∃ i, BitVec.ofNat 32 n = encodeCommand i := by
    intro n hn
    interval_cases n
    exacts [⟨.nop, rfl⟩, ⟨.clearFreq, rfl⟩, ⟨.build, rfl⟩, ⟨.walk, rfl⟩, ⟨.encode, rfl⟩, ⟨.decode, rfl⟩, ⟨.clearTable, rfl⟩]
  obtain ⟨hmbz, hop⟩ := h
  obtain ⟨i, hi⟩ := hrows w.toNat (by omega)
  exact ⟨i, by rw [← hi, BitVec.ofNat_toNat, BitVec.setWidth_eq]⟩

/-- Everything the decoder can answer (30_encoding.md R101, R102). -/
theorem decodeCommand_cases (w : Word) :
    (w.toNat / 16 ≠ 0 ∧ decodeCommand w = .error .mustBeZero) ∨
      (w.toNat / 16 = 0 ∧ 7 ≤ w.toNat % 16 ∧ decodeCommand w = .error .reservedOpcode) ∨
      ∃ i, w = encodeCommand i ∧ decodeCommand w = .ok i := by
  by_cases hmbz : w.toNat / 16 = 0
  · by_cases hop : 7 ≤ w.toNat % 16
    · refine .inr (.inl ⟨hmbz, hop, ?_⟩)
      rw [decodeCommand, if_neg (not_not_intro (mbzField_eq_zero.mpr hmbz)), toNat_opField]
      split
      case h_8 => rfl
      all_goals omega
    · obtain ⟨i, rfl⟩ := exists_eq_encodeCommand (w := w) ⟨hmbz, by omega⟩
      exact .inr (.inr ⟨i, rfl, decodeCommand_encodeCommand i⟩)
  · exact .inl ⟨hmbz, if_pos (mt mbzField_eq_zero.mp hmbz)⟩

theorem decodeCommand_eq_ok {w : Word} {i : Instr} : decodeCommand w = .ok i ↔ w = encodeCommand i := by
  constructor
  · intro h
    obtain ⟨-, hd⟩ | ⟨-, -, hd⟩ | ⟨j, hw, hd⟩ := decodeCommand_cases w
    · cases hd.symm.trans h
    · cases hd.symm.trans h
    · cases hd.symm.trans h; exact hw
  · rintro rfl
    exact decodeCommand_encodeCommand i

theorem decodeCommand_eq_mustBeZero {w : Word} : decodeCommand w = .error .mustBeZero ↔ w.toNat / 16 ≠ 0 := by
  obtain ⟨hmbz, hd⟩ | ⟨hmbz, -, hd⟩ | ⟨i, rfl, hd⟩ := decodeCommand_cases w
  · simp [hd, hmbz]
  · simp [hd, hmbz]
  · simp [hd, (wellFormed_encodeCommand i).1]

theorem decodeCommand_eq_reservedOpcode {w : Word} :
    decodeCommand w = .error .reservedOpcode ↔ w.toNat / 16 = 0 ∧ 7 ≤ w.toNat % 16 := by
  obtain ⟨hmbz, hd⟩ | ⟨hmbz, hop, hd⟩ | ⟨i, rfl, hd⟩ := decodeCommand_cases w
  · simp [hd, hmbz]
  · simp [hd, hmbz, hop]
  · have := (wellFormed_encodeCommand i).2
    simp only [hd, reduceCtorEq, false_iff]
    omega

/-- Settles O1: the rows of the opcode table are the encoder's words, and the rejects are the two other cases of the decoder. -/
theorem commandWordsDecode : Obligations.CommandWordsDecode :=
  ⟨fun _ => decodeCommand_eq_ok, fun _ => decodeCommand_eq_ok, fun _ => decodeCommand_eq_ok, fun _ => decodeCommand_eq_ok,
    fun _ => decodeCommand_eq_ok, fun _ => decodeCommand_eq_ok, fun _ => decodeCommand_eq_ok,
    fun _ => decodeCommand_eq_mustBeZero, fun _ => decodeCommand_eq_reservedOpcode, fun _ _ => decodeCommand_eq_ok⟩

/-- A 32-bit table word of a command decodes to it (30_encoding.md R103). -/
theorem decodeTableWord_encodeCommand (i : Instr) : decodeTableWord 32 (encodeCommand i).toNat = some i := by
  rw [decodeTableWord, ← BitVec.toNat_ofNat, BitVec.ofNat_toNat, BitVec.setWidth_eq, BitVec.ofNat_toNat, BitVec.setWidth_eq,
    decodeCommand_encodeCommand]

/-- Settles O2: seven words are the encoder's; of the other two one has a bit of MBZ set, and the other a reserved OP. -/
theorem tableWordsDecode : Obligations.TableWordsDecode :=
  ⟨decodeTableWord_encodeCommand .nop, decodeTableWord_encodeCommand .clearFreq, decodeTableWord_encodeCommand .build,
    decodeTableWord_encodeCommand .walk, decodeTableWord_encodeCommand .encode, decodeTableWord_encodeCommand .decode,
    decodeTableWord_encodeCommand .clearTable, rfl, rfl⟩

end Sys2Proof
end

section
/-! What the commands leave and do not read (30_encoding.md R104): the tables and buffers that each leaves, and that none reads or
writes the host's registers IRQ_EN, CT_SEL and NODE_SEL. -/

namespace Sys2Proof.Machine

/-! The tables and buffers that a command leaves. -/

/-- `t` has FREQ, CT, SYM_BUF with SYM_LEN, and BYTE_BUF with BYTE_LEN of `s`, each unless the command `i` writes it (10_state.md R40,
R42, R45, R46). -/
structure LeavesTables (i : Instr) (s t : State) : Prop where
  freq  : i ≠ .clearFreq → t.freq = s.freq
  ct    : i ≠ .walk → i ≠ .clearTable → t.ct = s.ct
  syms  : i ≠ .decode → t.symBuf = s.symBuf ∧ t.symLen = s.symLen
  bytes : i ≠ .encode → t.byteBuf = s.byteBuf ∧ t.byteLen = s.byteLen

/-- A command that leaves all four leaves those it does not write. -/
theorem leavesTables_of_all {i : Instr} {s t : State} (hf : t.freq = s.freq) (hc : t.ct = s.ct) (hs : t.symBuf = s.symBuf)
    (hsl : t.symLen = s.symLen) (hb : t.byteBuf = s.byteBuf) (hbl : t.byteLen = s.byteLen) : LeavesTables i s t :=
  ⟨fun _ => hf, fun _ _ => hc, fun _ => ⟨hs, hsl⟩, fun _ => ⟨hb, hbl⟩⟩

theorem exec_leavesTables {i : Instr} {s t : State} (h : exec i s = .next t) : LeavesTables i s t := by
  cases i with
  | nop => cases h; exact leavesTables_of_all rfl rfl rfl rfl rfl rfl
  | clearFreq => cases h; exact ⟨absurd rfl, fun _ _ => rfl, fun _ => ⟨rfl, rfl⟩, fun _ => ⟨rfl, rfl⟩⟩
  | clearTable => cases h; exact ⟨fun _ => rfl, fun _ => absurd rfl, fun _ => ⟨rfl, rfl⟩, fun _ => ⟨rfl, rfl⟩⟩
  | build =>
    obtain ⟨u, b, hu, ⟨-, rfl⟩ | ⟨-, rfl⟩⟩ := execBuild_cases s
    · cases hu.symm.trans h; exact leavesTables_of_all rfl rfl rfl rfl rfl rfl
    · cases hu.symm.trans h; exact leavesTables_of_all rfl rfl rfl rfl rfl rfl
  | walk =>
    obtain ⟨-, hu⟩ | ⟨-, ⟨-, hu⟩ | ⟨m, -, hu⟩⟩ := execWalk_cases s
    · cases hu.symm.trans h; exact leavesTables_of_all rfl rfl rfl rfl rfl rfl
    · cases hu.symm.trans h
    · cases hu.symm.trans h; exact ⟨fun _ => rfl, absurd rfl, fun _ => ⟨rfl, rfl⟩, fun _ => ⟨rfl, rfl⟩⟩
  | encode =>
    obtain ⟨u, hu, ⟨e, info, rfl⟩ | ⟨-, -, rfl⟩⟩ := execEncode_cases s
    · cases hu.symm.trans h; exact ⟨fun _ => rfl, fun _ _ => rfl, fun _ => ⟨rfl, rfl⟩, absurd rfl⟩
    · cases hu.symm.trans h; exact ⟨fun _ => rfl, fun _ _ => rfl, fun _ => ⟨rfl, rfl⟩, absurd rfl⟩
  | decode =>
    obtain ⟨u, hu, ⟨e, info, rfl⟩ | ⟨-, rfl⟩ | ⟨xs, p, -, -, -, -, rfl⟩⟩ := execDecode_cases s
    · cases hu.symm.trans h; exact ⟨fun _ => rfl, fun _ _ => rfl, absurd rfl, fun _ => ⟨rfl, rfl⟩⟩
    · cases hu.symm.trans h; exact ⟨fun _ => rfl, fun _ _ => rfl, absurd rfl, fun _ => ⟨rfl, rfl⟩⟩
    · cases hu.symm.trans h; exact ⟨fun _ => rfl, fun _ _ => rfl, absurd rfl, fun _ => ⟨rfl, rfl⟩⟩

/-- Settles O53, command by command through the case lemmas. -/
theorem commandsLeaveTablesTheyDoNotWrite : Obligations.CommandsLeaveTablesTheyDoNotWrite :=
  ⟨fun _ _ _ hi h => (exec_leavesTables h).freq hi, fun _ _ _ hw hc h => (exec_leavesTables h).ct hw hc,
    fun _ _ _ hi h => (exec_leavesTables h).syms hi, fun _ _ _ hi h => (exec_leavesTables h).bytes hi⟩

/-! The host's registers. -/

/-- IRQ_EN, CT_SEL and NODE_SEL with other values, and the rest as it was. -/
abbrev State.withHostRegisters (en : BitVec 2) (ctSel : Byte) (nodeSel : NodeIndex) (s : State) : State :=
  { s with irqEn := en, ctSel := ctSel, nodeSel := nodeSel }

/-- WALK's table depends on the arena and ROOT alone (42_code_table.md R199). -/
theorem walkTable_congr {s t : State} (hn : s.node = t.node) (hr : s.root = t.root) : walkTable s = walkTable t := by
  simp only [walkTable, visit_congr hn, nodeRead_congr hn, hr]

section
variable (en : BitVec 2) (ctSel : Byte) (nodeSel : NodeIndex) {s t : State}

theorem execBuild_withHostRegisters (h : execBuild s = .next t) :
    execBuild (s.withHostRegisters en ctSel nodeSel) = .next (t.withHostRegisters en ctSel nodeSel) := by
  have hl : loadedBuilder (s.withHostRegisters en ctSel nodeSel) = loadedBuilder s := loadLeaves_congr (by rfl) _ _
  revert h
  simp only [execBuild, hl]
  split <;> (intro h; cases h; rfl)

theorem execWalk_withHostRegisters (h : execWalk s = .next t) :
    execWalk (s.withHostRegisters en ctSel nodeSel) = .next (t.withHostRegisters en ctSel nodeSel) := by
  have hw : walkTable (s.withHostRegisters en ctSel nodeSel) = walkTable s := walkTable_congr (by rfl) (by rfl)
  obtain ⟨ht, hu⟩ | ⟨ht, ⟨hm, hu⟩ | ⟨m, hm, hu⟩⟩ := execWalk_cases s
  · cases hu.symm.trans h
    simp only [execWalk, ht]; rfl
  · cases hu.symm.trans h
  · cases hu.symm.trans h
    simp only [execWalk, ht, hw, hm]; rfl

theorem execEncode_withHostRegisters (h : execEncode s = .next t) :
    execEncode (s.withHostRegisters en ctSel nodeSel) = .next (t.withHostRegisters en ctSel nodeSel) := by
  have hx : inputSymbols (s.withHostRegisters en ctSel nodeSel) = inputSymbols s := rfl
  have hu (xs) : firstUncoded (s.withHostRegisters en ctSel nodeSel) 0 xs = firstUncoded s 0 xs :=
    firstUncoded_congr (by rfl) xs 0
  have he : encodedBits (s.withHostRegisters en ctSel nodeSel) = encodedBits s := rfl
  revert h
  simp only [execEncode, hx, hu, he]
  split
  · intro h; cases h; rfl
  split
  · intro h; cases h; rfl
  split <;> (intro h; cases h; rfl)

theorem execDecode_withHostRegisters (h : execDecode s = .next t) :
    execDecode (s.withHostRegisters en ctSel nodeSel) = .next (t.withHostRegisters en ctSel nodeSel) := by
  have hb : byteRead (s.withHostRegisters en ctSel nodeSel) = byteRead s := rfl
  have hc : codedSymbols (s.withHostRegisters en ctSel nodeSel) = codedSymbols s := rfl
  have hp : payloadBits (s.withHostRegisters en ctSel nodeSel) = payloadBits s := rfl
  revert h
  simp only [execDecode, hb, hc, hp]
  split
  · intro h; cases h; rfl
  split
  · intro h; cases h; rfl
  split
  · intro h; cases h; rfl
  split
  · intro h; cases h; rfl
  split <;> (intro h; cases h; rfl)

/-- No command reads the host's registers (30_encoding.md R104). -/
theorem exec_withHostRegisters {i : Instr} (h : exec i s = .next t) :
    exec i (s.withHostRegisters en ctSel nodeSel) = .next (t.withHostRegisters en ctSel nodeSel) := by
  cases i with
  | nop => cases h; rfl
  | clearFreq => cases h; rfl
  | clearTable => cases h; rfl
  | build => exact execBuild_withHostRegisters en ctSel nodeSel h
  | walk => exact execWalk_withHostRegisters en ctSel nodeSel h
  | encode => exact execEncode_withHostRegisters en ctSel nodeSel h
  | decode => exact execDecode_withHostRegisters en ctSel nodeSel h

end

/-- Settles O51: every completion keeps the three registers, and no command reads them. -/
theorem commandsIgnoreHostRegisters : Obligations.CommandsIgnoreHostRegisters := by
  intro i s t h
  have hc := exec_completes h
  exact ⟨⟨hc.irqEn, hc.ctSel, hc.nodeSel⟩, fun en ctSel nodeSel => exec_withHostRegisters en ctSel nodeSel h⟩

end Sys2Proof.Machine
end

section
/-! The `ct` pseudo-instruction (30_encoding.md R121): what a list of transactions does as a run, what each CT write of the expansion
leaves, and the entry that all of them load. -/

namespace Sys2Proof.Machine

/-! A list of transactions as a run (20_memory.md R86). -/

/-- The transactions of a list served one after another. -/
def serveAll (ts : List Transaction) (s : State) : State := ts.foldl (fun s t => busStep t s) s

@[simp] theorem serveAll_nil (s : State) : serveAll [] s = s := rfl

@[simp] theorem serveAll_cons (t : Transaction) (ts : List Transaction) (s : State) :
    serveAll (t :: ts) s = serveAll ts (busStep t s) := rfl

theorem core_run_map_bus (ts : List Transaction) : ∀ s : State,
    core.run ts.length { s with events := ts.map .bus } = .next { serveAll ts s with events := [] } := by
  induction ts with
  | nil => intro s; rfl
  | cons t ts ih =>
    intro s
    have hstep : step { s with events := .bus t :: ts.map .bus } = .next { busStep t s with events := ts.map .bus } := by
      rw [step_of_bus rfl, ← busStep_withEvents]
    exact (core_run_succ hstep ts.length).trans (ih (busStep t s))

theorem core_run_bus {ts : List Transaction} {s : State} (h : s.events = ts.map .bus) :
    core.run ts.length s = .next { serveAll ts s with events := [] } := by
  have hs : { s with events := ts.map .bus } = s := by rw [← h]
  exact hs ▸ core_run_map_bus ts s

/-- The transactions of actions that are accesses without assertions are these accesses (30_encoding.md R120). -/
theorem transactionsOf_map_access {α : Type} (f : α → Transaction) (xs : List α) (polls : List Nat) :
    transactionsOf (xs.map fun x => .access (f x) .any) polls = xs.map f := by
  induction xs with
  | nil => rfl
  | cons x xs ih => simp only [List.map_cons, transactionsOf, ih]

/-! The transactions of `ct`. -/

/-- The words of a code that a `ct` writes (30_encoding.md R121). -/
def keptWords (v : CodeWord) (leftOut : List (Fin 8)) : List (Fin 8) :=
  (List.finRange 8).filter fun k => !(leftOut.contains k && decide (v.extractLsb' (32 * k.val) 32 = 0#32))

theorem mem_keptWords {v : CodeWord} {leftOut : List (Fin 8)} {k : Fin 8} :
    k ∈ keptWords v leftOut ↔ ¬ (k ∈ leftOut ∧ v.extractLsb' (32 * k.val) 32 = 0#32) := by
  simp [keptWords, imp_iff_not_or]

/-- The write of word `k` of the code `v`. -/
def codeWrite (v : CodeWord) (k : Fin 8) : Transaction := writeTo (regPlace (.ctCode k)) (v.extractLsb' (32 * k.val) 32)

theorem transactionsOf_ct (x n : Byte) (v : CodeWord) (leftOut : List (Fin 8)) (polls : List Nat) :
    transactionsOf (Stmt.ct x n v leftOut).expand polls =
      writeTo (regPlace .ctSel) (x.setWidth 32) :: writeTo (regPlace .ctLen) (n.setWidth 32) ::
        (keptWords v leftOut).map (codeWrite v) := by
  simp only [Stmt.expand, transactionsOf]
  rw [← transactionsOf_map_access (codeWrite v) (keptWords v leftOut) polls]
  rfl

/-- A `ct` that leaves nothing out is ten writes (30_encoding.md R121). -/
theorem length_transactionsOf_ct (x n : Byte) (v : CodeWord) (polls : List Nat) :
    (transactionsOf (Stmt.ct x n v []).expand polls).length = 10 := by
  simp [transactionsOf_ct, keptWords]

theorem toNat_offset_regPlace (r : Reg) : (regPlace r).offset.toNat = r.offset := by
  have := r.offset_lt
  simp only [regPlace, Place.offset, Target.offset, BitVec.toNat_ofNat]
  omega

/-- The word of the code that a `ct` leaves out is not written (30_encoding.md R121). -/
theorem offset_ne_of_leftOut {x n : Byte} {v : CodeWord} {leftOut : List (Fin 8)} {polls : List Nat} {k : Fin 8} (hk : k ∈ leftOut)
    (hv : v.extractLsb' (32 * k.val) 32 = 0#32) {t : Transaction}
    (ht : t ∈ transactionsOf (Stmt.ct x n v leftOut).expand polls) : t.offset.toNat ≠ 0x00048 + 4 * k.val := by
  simp only [transactionsOf_ct, List.mem_cons, List.mem_map, mem_keptWords] at ht
  obtain rfl | rfl | ⟨j, hj, rfl⟩ := ht
  · simp only [writeTo, toNat_offset_regPlace, Reg.offset]; omega
  · simp only [writeTo, toNat_offset_regPlace, Reg.offset]; omega
  · have hne : j ≠ k := fun h => hj (h ▸ ⟨hk, hv⟩)
    simp only [codeWrite, writeTo, toNat_offset_regPlace, Reg.offset]
    omega

/-! What the writes do (10_state.md R41). -/

/-- A write to a register while IDLE, as a step of a run (20_memory.md R75). -/
theorem busStep_writeTo {r : Reg} {s : State} (h : s.phase = .idle) (hr : r.readOnly = false) (v : Word) :
    busStep (writeTo (regPlace r) v) s =
      { regWrite r v s with responses := (regWrite r v s).responses ++ [writeResponse s] } := by
  simp only [busStep, show busAccess (writeTo (regPlace r) v) s = _ from busAccess_writeAt (reachable_of_idle h r) hr v]

/-- `t` is `s` with the entry of CT that CT_SEL selects replaced by `e`, apart from the responses. -/
structure LoadsEntry (s t : State) (e : CtEntry) : Prop where
  frame  : ∃ ct rs, t = { s with ct := ct, responses := rs }
  entry  : ctRead t s.ctSel = e
  others : ∀ y, y ≠ s.ctSel → ctRead t y = ctRead s y

theorem LoadsEntry.refl (s : State) : LoadsEntry s s (ctRead s s.ctSel) := ⟨⟨_, _, rfl⟩, rfl, fun _ _ => rfl⟩

theorem LoadsEntry.trans {s t u : State} {d e : CtEntry} (h : LoadsEntry s t d) (h' : LoadsEntry t u e) : LoadsEntry s u e := by
  obtain ⟨⟨ct, rs, rfl⟩, -, hst⟩ := h
  obtain ⟨⟨ct', rs', rfl⟩, hu, htu⟩ := h'
  exact ⟨⟨_, _, rfl⟩, hu, fun y hy => (htu y hy).trans (hst y hy)⟩

theorem LoadsEntry.phase {s t : State} {e : CtEntry} (h : LoadsEntry s t e) : t.phase = s.phase := by
  obtain ⟨_, _, rfl⟩ := h.frame
  rfl

theorem LoadsEntry.ctSel {s t : State} {e : CtEntry} (h : LoadsEntry s t e) : t.ctSel = s.ctSel := by
  obtain ⟨_, _, rfl⟩ := h.frame
  rfl

theorem loadsEntry_ctWrite (e : CtEntry) (s : State) (rs : List Response) :
    LoadsEntry s { ctWrite s.ctSel e s with responses := rs } e :=
  ⟨⟨_, _, rfl⟩, ctRead_ctWrite_same _ e s, fun _ hy => ctRead_ctWrite_other hy e s⟩

theorem extractLsb'_setWidth_byte (n : Byte) : (n.setWidth 32).extractLsb' 0 8 = n := by
  refine BitVec.eq_of_toNat_eq ?_
  have := n.isLt
  simp only [BitVec.extractLsb'_toNat, BitVec.toNat_setWidth, Nat.shiftRight_zero]
  omega

theorem loadsEntry_ctLen {s : State} (h : s.phase = .idle) (n : Byte) :
    LoadsEntry s (busStep (writeTo (regPlace .ctLen) (n.setWidth 32)) s) { ctRead s s.ctSel with len := n } := by
  rw [busStep_writeTo h rfl, regWrite, extractLsb'_setWidth_byte]
  exact loadsEntry_ctWrite _ s _

theorem loadsEntry_codeWrite {s : State} (h : s.phase = .idle) (v : CodeWord) (k : Fin 8) :
    LoadsEntry s (busStep (codeWrite v k) s)
      { ctRead s s.ctSel with code := setCodeWord k (v.extractLsb' (32 * k.val) 32) (ctRead s s.ctSel).code } := by
  rw [codeWrite, busStep_writeTo h rfl]
  exact loadsEntry_ctWrite _ s _

/-- A code with the words `ks` of `v` set in it, one after another. -/
def setCodeWords (v : CodeWord) (ks : List (Fin 8)) (c : CodeWord) : CodeWord :=
  ks.foldl (fun c k => setCodeWord k (v.extractLsb' (32 * k.val) 32) c) c

theorem loadsEntry_codeWrites (v : CodeWord) (ks : List (Fin 8)) : ∀ {s : State} {e : CtEntry}, s.phase = .idle →
    ctRead s s.ctSel = e → LoadsEntry s (serveAll (ks.map (codeWrite v)) s) { e with code := setCodeWords v ks e.code } := by
  induction ks with
  | nil => rintro s e - rfl; exact .refl s
  | cons k ks ih =>
    rintro s e h rfl
    have hfirst := loadsEntry_codeWrite h v k
    have hrest := ih (hfirst.phase.trans h) (by rw [hfirst.ctSel, hfirst.entry])
    exact hfirst.trans hrest

/-- Words that are set are those of `v`, and the others stay. -/
theorem extract_setCodeWords (v : CodeWord) (j : Fin 8) (ks : List (Fin 8)) : ∀ c : CodeWord,
    (setCodeWords v ks c).extractLsb' (32 * j.val) 32 =
      if j ∈ ks then v.extractLsb' (32 * j.val) 32 else c.extractLsb' (32 * j.val) 32 := by
  induction ks with
  | nil => intro c; simp [setCodeWords]
  | cons k ks ih =>
    intro c
    rw [setCodeWords, List.foldl_cons, ← setCodeWords, ih, extract_setCodeWord]
    by_cases hj : j ∈ ks
    · simp [hj]
    · by_cases hk : j = k
      · simp [hk]
      · simp [hj, hk]

/-- A code is its eight words. -/
theorem codeWord_ext {c d : CodeWord} (h : ∀ k : Fin 8, c.extractLsb' (32 * k.val) 32 = d.extractLsb' (32 * k.val) 32) : c = d := by
  apply BitVec.eq_of_getLsbD_eq
  intro i hi
  have hw := congrArg (·.getLsbD (i % 32)) (h ⟨i / 32, by omega⟩)
  simpa [Nat.mod_lt, Nat.div_add_mod] using hw

/-- The writes of a `ct` after that of CT_SEL load the entry, if the words that they leave out are already 0 (30_encoding.md R121). -/
theorem loadsEntry_ct {s : State} (h : s.phase = .idle) (n : Byte) {v : CodeWord} {leftOut : List (Fin 8)}
    (hzero : ∀ k ∈ leftOut, v.extractLsb' (32 * k.val) 32 = 0#32 →
      (ctRead s s.ctSel).code.extractLsb' (32 * k.val) 32 = 0#32) :
    LoadsEntry s (serveAll (writeTo (regPlace .ctLen) (n.setWidth 32) :: (keptWords v leftOut).map (codeWrite v)) s)
      { len := n, code := v } := by
  have hcode : setCodeWords v (keptWords v leftOut) (ctRead s s.ctSel).code = v := codeWord_ext fun k => by
    rw [extract_setCodeWords, ite_eq_left_iff, mem_keptWords, not_not]
    exact fun ⟨hk, hv⟩ => (hzero k hk hv).trans hv.symm
  have hlen := loadsEntry_ctLen h n
  have hwords := loadsEntry_codeWrites v (keptWords v leftOut) (hlen.phase.trans h) (by rw [hlen.ctSel, hlen.entry])
  rw [hcode] at hwords
  exact hlen.trans hwords

/-- The write of CT_SEL (10_state.md R41). -/
theorem busStep_ctSel {s : State} (h : s.phase = .idle) (x : Byte) :
    ∃ rs, busStep (writeTo (regPlace .ctSel) (x.setWidth 32)) s = { s with ctSel := x, responses := rs } :=
  ⟨_, by rw [busStep_writeTo h rfl, regWrite, extractLsb'_setWidth_byte]⟩

/-- What the expansion of `ct` leaves (30_encoding.md R121). -/
theorem serveAll_ct {s : State} (h : s.phase = .idle) {x : Byte} (n : Byte) {v : CodeWord} {leftOut : List (Fin 8)}
    (hzero : ∀ k ∈ leftOut, v.extractLsb' (32 * k.val) 32 = 0#32 → (ctRead s x).code.extractLsb' (32 * k.val) 32 = 0#32) :
    ∃ t ct rs, serveAll (transactionsOf (Stmt.ct x n v leftOut).expand []) s = t ∧
      t = { s with ct := ct, ctSel := x, responses := rs } ∧ ctRead t x = { len := n, code := v } ∧
      ∀ y, y ≠ x → ctRead t y = ctRead s y := by
  obtain ⟨rs, hsel⟩ := busStep_ctSel h x
  obtain ⟨⟨ct, rs', hframe⟩, hentry, hothers⟩ := loadsEntry_ct (s := { s with ctSel := x, responses := rs }) h n hzero
  rw [transactionsOf_ct, serveAll_cons, hsel]
  exact ⟨_, ct, rs', rfl, hframe, hentry, hothers⟩

/-- Settles O59: CT_SEL is written, then each write of the list loads a part of the entry it selects. -/
theorem ctPseudoLoadsEntry : Obligations.CtPseudoLoadsEntry := by
  intro s x n v leftOut h hzero
  refine ⟨?_, fun k hk hv t ht => offset_ne_of_leftOut hk hv ht, fun hev => ?_⟩
  · rintro rfl
    exact length_transactionsOf_ct x n v []
  · obtain ⟨t, ct, rs, hserve, rfl, hentry, hothers⟩ := serveAll_ct h n hzero
    have hrun := core_run_bus hev
    rw [hserve] at hrun
    exact ⟨_, hrun, hentry, hothers, rfl⟩

end Sys2Proof.Machine
end

section
/-! The run of a host script as a run of the machine (30_encoding.md R120 to R122, 70_reset_and_hazards.md R299): the relation between a
script's run before and after some turns, which every turn gives and which composes; what an assertion says; and that a `wait` ends
once the engine has moved. -/

namespace Sys2Proof.Machine

/-! The responses of a run (20_memory.md R72). -/

theorem busAccess_responses (t : Transaction) (s : State) : (busAccess t s).1.responses = s.responses := by
  obtain hs | ⟨g, v, -, -, -, hs⟩ := busAccess_cases t s
  · rw [hs]
  · obtain ⟨u, hu, -, -, -, -, -, -, -, -, -, hresp, -⟩ := targetWrite_frame g v s
    rw [hs, hu, hresp]

theorem busStep_responses (t : Transaction) (s : State) :
    (busStep t s).responses = s.responses ++ [(busAccess t s).2] := by
  rw [← busAccess_responses t s]
  rfl

theorem busStep_events (t : Transaction) (s : State) : (busStep t s).events = s.events := busAccess_events t s

/-- The engine leaves the host's side of a run alone (40_command_control.md R132). -/
theorem engineStep_host {s t : State} (h : engineStep s = .next t) : t.events = s.events ∧ t.responses = s.responses := by
  obtain ⟨-, hu⟩ | ⟨w, -, ⟨i, -, hu⟩ | ⟨-, hu⟩⟩ := engineStep_cases s
  · cases hu.symm.trans h; exact ⟨rfl, rfl⟩
  · have hc := exec_completes (hu.symm.trans h)
    exact ⟨hc.events, hc.responses⟩
  · cases hu.symm.trans h; exact ⟨rfl, rfl⟩

/-- The responses to the reads among transactions `ts` that were answered `rs` (70_reset_and_hazards.md R299). -/
def readResponses (ts : List Transaction) (rs : List Response) : List Response :=
  (ts.zip rs).filterMap fun p => if p.1.kind = .read then some p.2 else none

theorem readResponses_append {ts : List Transaction} {rs : List Response} (h : rs.length = ts.length)
    (ts' : List Transaction) (rs' : List Response) :
    readResponses (ts ++ ts') (rs ++ rs') = readResponses ts rs ++ readResponses ts' rs' := by
  rw [readResponses, List.zip_append h.symm, List.filterMap_append]
  rfl

theorem receive_eq (t : Transaction) (resp : Response) (reads : List Response) :
    receive t resp reads = reads ++ readResponses [t] [resp] := by
  cases hk : t.kind <;> simp [receive, readResponses, hk]

theorem busTransactions_append (es es' : List Event) :
    busTransactions (es ++ es') = busTransactions es ++ busTransactions es' := List.filterMap_append

/-! Runs of the core in parts. -/

theorem core_run_add {s t : State} {m : Nat} (h : core.run m s = .next t) (n : Nat) : core.run (m + n) s = core.run n t := by
  induction m generalizing s with
  | zero => cases h; rw [Nat.zero_add]
  | succ m ih =>
    rw [Nat.add_right_comm]
    cases hs : step s with
    | next u => rw [core_run_succ hs] at h ⊢; exact ih h
    | fault f => simp [Host.Core.run, show core.step s = _ from hs] at h
    | refused f => simp [Host.Core.run, show core.step s = _ from hs] at h

/-! The relation between a script's run before and after some turns. -/

/-- The script's run goes from `r` to `u` while the events `es` happen and the transactions among them are answered `rs`. -/
structure RunsTo (r u : ScriptRun) (es : List Event) (rs : List Response) : Prop where
  run       : ∀ rest, core.run es.length { r.machine with events := es ++ rest } = .next { u.machine with events := rest }
  events    : u.machine.events = r.machine.events
  responses : u.machine.responses = r.machine.responses ++ rs
  answered  : rs.length = (busTransactions es).length
  reads     : u.reads = r.reads ++ readResponses (busTransactions es) rs
  issued    : ∀ polls, ∃ polls', transactionsOf r.todo polls' = busTransactions es ++ transactionsOf u.todo polls
  failed    : r.failed = true → u.failed = true

theorem RunsTo.refl (r : ScriptRun) : RunsTo r r [] [] where
  run _ := rfl
  events := rfl
  responses := (List.append_nil _).symm
  answered := rfl
  reads := (List.append_nil _).symm
  issued polls := ⟨polls, rfl⟩
  failed := id

theorem RunsTo.trans {r u v : ScriptRun} {es es' : List Event} {rs rs' : List Response} (h : RunsTo r u es rs)
    (h' : RunsTo u v es' rs') : RunsTo r v (es ++ es') (rs ++ rs') where
  run rest := by
    rw [List.length_append, List.append_assoc, core_run_add (h.run (es' ++ rest)), h'.run rest]
  events := h'.events.trans h.events
  responses := by rw [h'.responses, h.responses, List.append_assoc]
  answered := by rw [busTransactions_append, List.length_append, List.length_append, h.answered, h'.answered]
  reads := by rw [h'.reads, h.reads, List.append_assoc, busTransactions_append, readResponses_append h.answered]
  issued polls := by
    obtain ⟨polls', h₂⟩ := h'.issued polls
    obtain ⟨polls'', h₁⟩ := h.issued polls'
    exact ⟨polls'', by rw [h₁, h₂, busTransactions_append, List.append_assoc]⟩
  failed hr := h'.failed (h.failed hr)

/-- An event that is a step of the machine whatever is queued behind it is a run of one step. -/
theorem core_run_one {s t : State} {e : Event} (h : ∀ rest, step { s with events := e :: rest } = .next { t with events := rest })
    (rest : List Event) : core.run [e].length { s with events := [e] ++ rest } = .next { t with events := rest } :=
  core_run_succ (h rest) 0

/-- One more poll in front (30_encoding.md R121). -/
theorem transactionsOf_wait_succ (as : List Action) (polls : List Nat) :
    ∃ polls', transactionsOf (.wait :: as) polls' = statusRead :: transactionsOf (.wait :: as) polls := by
  cases polls with
  | nil => exact ⟨[2], rfl⟩
  | cons k polls =>
    refine ⟨(max 1 k + 1) :: polls, ?_⟩
    have hk : max 1 (max 1 k + 1) = max 1 k + 1 := by omega
    simp only [transactionsOf, hk, List.replicate_succ, List.cons_append]

/-- What the script issues next is the first of its transactions, for some number of polls of each `wait`. -/
theorem transactionsOf_issue {r : ScriptRun} {t : Transaction} (ht : r.nextTransaction = some t) (polls : List Nat) :
    ∃ polls', transactionsOf r.todo polls' = t :: transactionsOf r.issue.todo polls := by
  obtain ⟨h, -⟩ | ⟨t', ht', -, -, ⟨e, as, h, hu, -⟩ | ⟨as, h, rfl, -, hu⟩⟩ := r.issue_cases
  · simp [ScriptRun.nextTransaction, h] at ht
  all_goals obtain rfl := Option.some.inj (ht.symm.trans ht')
  · rw [h, hu]
    exact ⟨polls, rfl⟩
  · rw [h, hu]
    split
    · exact transactionsOf_wait_succ as polls
    · exact ⟨1 :: polls, rfl⟩

/-- A failed assertion stays failed (30_encoding.md R122). -/
theorem failed_issue {r : ScriptRun} (h : r.failed = true) : r.issue.failed = true := by
  obtain ⟨-, hu⟩ | ⟨t, -, -, -, ⟨e, as, -, -, hu⟩ | ⟨as, -, -, hu, -⟩⟩ := r.issue_cases
  · rw [hu, h]
  · rw [hu, h, Bool.true_or]
  · rw [hu, h]

/-- The issue of a transaction is its step of the machine (20_memory.md R86). -/
theorem runsTo_issue {r : ScriptRun} {t : Transaction} (ht : r.nextTransaction = some t)
    (hm : r.issue.machine = busStep t r.machine) (hr : r.issue.reads = receive t (busAccess t r.machine).2 r.reads) :
    RunsTo r r.issue [.bus t] [(busAccess t r.machine).2] where
  run := core_run_one fun rest => by rw [step_of_bus rfl, hm, ← busStep_withEvents]
  events := by rw [hm, busStep_events]
  responses := by rw [hm, busStep_responses]
  answered := rfl
  reads := hr.trans (receive_eq t _ r.reads)
  issued := transactionsOf_issue ht
  failed := failed_issue

/-- A turn that is not the host's moves the machine alone. -/
theorem runsTo_machine {r : ScriptRun} {s : State} {e : Event} (he : busTransactions [e] = [])
    (hstep : ∀ rest, step { r.machine with events := e :: rest } = .next { s with events := rest })
    (hev : s.events = r.machine.events) (hresp : s.responses = r.machine.responses) :
    RunsTo r { r with machine := s } [e] [] where
  run := core_run_one hstep
  events := hev
  responses := hresp.trans (List.append_nil _).symm
  answered := by rw [he]; rfl
  reads := by rw [he]; exact (List.append_nil _).symm
  issued polls := ⟨polls, by rw [he]; rfl⟩
  failed := id

theorem turn_runsTo {r u : ScriptRun} {m : Turn} (h : r.turn m = .next u) : ∃ es rs, RunsTo r u es rs := by
  obtain ⟨-, rfl⟩ | ⟨-, s, hs, rfl⟩ | ⟨-, rfl⟩ := ScriptRun.turn_cases h
  · obtain ⟨-, hu⟩ | ⟨t, ht, hm, hr, -⟩ := r.issue_cases
    · rw [hu]; exact ⟨_, _, .refl r⟩
    · exact ⟨_, _, runsTo_issue ht hm hr⟩
  · obtain ⟨hev, hresp⟩ := engineStep_host hs
    exact ⟨_, _, runsTo_machine (e := .engine) rfl (fun rest => engineStep_withEvents hs rest) hev hresp⟩
  · exact ⟨_, _, runsTo_machine (e := .reset) rfl (fun _ => rfl) rfl rfl⟩

/-- Every list of turns that answers gives a run of the machine (30_encoding.md R122). -/
theorem play_runsTo (ms : List Turn) : ∀ {r u : ScriptRun}, ScriptRun.play ms r = .next u → ∃ es rs, RunsTo r u es rs := by
  induction ms with
  | nil => intro r u h; cases h; exact ⟨_, _, .refl r⟩
  | cons m ms ih =>
    intro r u h
    rw [ScriptRun.play] at h
    split at h
    · next v hv =>
      obtain ⟨es, rs, hrv⟩ := turn_runsTo hv
      obtain ⟨es', rs', hvu⟩ := ih h
      exact ⟨_, _, hrv.trans hvu⟩
    · cases h
    · cases h

/-- There is a result exactly when the run is over (70_reset_and_hazards.md R299). -/
theorem result_isSome_iff (u : ScriptRun) : u.result.isSome = true ↔ u.todo = [] ∧ u.machine.phase = .idle := by
  have hphase : u.machine.phase.isBusy = false ↔ u.machine.phase = .idle := by
    cases u.machine.phase <;> simp [Phase.isBusy]
  simp [ScriptRun.result, ScriptRun.over, hphase]

/-! Assertions (30_encoding.md R120). -/

/-- A script that has not failed fails at an access exactly when what it asserts does not hold of the response. -/
theorem issue_failed_eq_false {r : ScriptRun} {t : Transaction} {e : Expect} {as : List Action} (hr : r.failed = false)
    (h : r.todo = .access t e :: as) : r.issue.failed = false ↔ e.holds (busAccess t r.machine).2 = true := by
  simp [ScriptRun.issue, h, hr]

/-! A `wait` (30_encoding.md R121, 70_reset_and_hazards.md R298). -/

/-- A poll of a `wait`: the machine gives its STATUS and stays, and the `wait` stays exactly while HTB is BUSY. -/
theorem issue_wait {r : ScriptRun} {as : List Action} (h : r.todo = .wait :: as) : ∃ rs reads,
    r.issue = { r with todo := if r.machine.phase.isBusy then r.todo else as,
                       machine := { r.machine with responses := rs }, reads := reads } := by
  obtain ⟨hacc, hshows⟩ := busAccess_statusRead r.machine
  refine ⟨r.machine.responses ++ [readResponse (statusWord r.machine)], r.reads ++ [readResponse (statusWord r.machine)], ?_⟩
  simp only [ScriptRun.issue, h, busStep, hacc, hshows]
  rfl

/-- The table of a consistent tree has an end: the tree has at most 256 leaves, so its paths are shorter than 256 links
(00_scope.md R6, log 6). -/
theorem TreeConsistent.walkTable_ne_none {s : State} (h : TreeConsistent s) (hv : s.treeValid = true) : walkTable s ≠ none := by
  obtain ⟨hle, -, htree⟩ := h
  rw [walkTable]
  obtain ⟨-, -, hroot⟩ | ⟨tr, hrep, -, hlen, -⟩ := htree hv
  · simp [hroot]
  · have hdepth := tr.depth_lt_symbols
    split_ifs
    · simp
    · simp only
      rw [visit_represents s.root.isLt hrep (by omega)]
      split <;> simp

/-- The engine's turn completes a pending command, in every state that meets the invariant (40_command_control.md R132). -/
theorem engineStep_completes {s : State} {w : Word} (h : StateInv s) (hp : s.phase = .busy w) :
    ∃ t, engineStep s = .next t ∧ Completes s t := by
  obtain ⟨hidle, -⟩ | ⟨w', -, ⟨i, -, hu⟩ | ⟨-, hu⟩⟩ := engineStep_cases s
  · cases hidle.symm.trans hp
  · obtain ⟨t, ht⟩ | ⟨-, hv, hm⟩ := exec_next_or_walk i s
    · exact ⟨t, hu.trans ht, exec_completes ht⟩
    · exact absurd hm (h.tree.walkTable_ne_none hv)
  · exact ⟨_, hu, completes_completeErr _ _ _⟩

/-- While the engine does not move, a `wait` for a pending command polls on. -/
theorem play_host_wait {w : Word} {as : List Action} (n : Nat) : ∀ {r : ScriptRun}, r.machine.phase = .busy w → r.todo = .wait :: as →
    ∃ rs reads, ScriptRun.play (List.replicate n .host) r =
      .next { r with machine := { r.machine with responses := rs }, reads := reads } := by
  induction n with
  | zero => intro r _ _; exact ⟨_, _, rfl⟩
  | succ n ih =>
    intro r hp ht
    obtain ⟨rs, reads, hissue⟩ := issue_wait ht
    rw [if_pos (isBusy_iff.mpr ⟨w, hp⟩)] at hissue
    obtain ⟨rs', reads', hplay⟩ := ih (r := r.issue) (by rw [hissue]; exact hp) (by rw [hissue]; exact ht)
    rw [hissue] at hplay
    refine ⟨rs', reads', ?_⟩
    rw [List.replicate_succ, ScriptRun.play, ScriptRun.turn, hissue]
    exact hplay

/-- The engine's turn, then a poll: the `wait` ends, with the command completed. -/
theorem play_engine_host_wait {w : Word} {as : List Action} {r : ScriptRun} (h : StateInv r.machine) (hp : r.machine.phase = .busy w)
    (ht : r.todo = .wait :: as) : ∃ u, ScriptRun.play [.engine, .host] r = .next u ∧ u.todo = as ∧ u.machine.phase = .idle ∧
      u.machine.done = true ∧ u.failed = r.failed := by
  obtain ⟨t, hstep, hc⟩ := engineStep_completes h hp
  obtain ⟨rs, reads, hissue⟩ := issue_wait (r := { r with machine := t }) ht
  have hplay : ScriptRun.play [.engine, .host] r = .next ({ r with machine := t } : ScriptRun).issue := by
    simp only [ScriptRun.play, ScriptRun.turn, hstep]
  refine ⟨_, hplay, ?_⟩
  rw [hissue]
  exact ⟨if_neg (by simp [hc.phase, Phase.isBusy]), hc.phase, hc.done, rfl⟩

/-- Settles O60: a list of turns composes the runs of its turns; an access fails the script by its own assertion alone; a `wait` polls
through the host's turns, and its first poll after the engine's turn finds the command completed. -/
theorem scriptRunsOnTheMachine : Obligations.ScriptRunsOnTheMachine := by
  refine ⟨fun turns r u hev hplay => ?_, fun r p v as hr => ⟨fun h => ?_, fun h => ?_, fun h => ?_⟩,
    fun r as w n hinv hp ht => ?_⟩
  · obtain ⟨es, rs, h⟩ := play_runsTo turns hplay
    have hidle : u.machine.events = [] := h.events.trans hev
    refine ⟨es, rs, ?_, h.responses, h.answered, h.reads, fun htodo => ?_, result_isSome_iff u, h.failed⟩
    · have hrun := h.run []
      rw [List.append_nil, ← hidle] at hrun
      exact hrun
    · obtain ⟨polls, hpolls⟩ := h.issued []
      rw [htodo, transactionsOf, List.append_nil] at hpolls
      exact ⟨polls, hpolls.symm⟩
  · exact (issue_failed_eq_false hr h).trans decide_eq_true_iff
  · exact (issue_failed_eq_false hr h).trans decide_eq_true_iff
  · exact (issue_failed_eq_false hr h).trans decide_eq_true_iff
  · obtain ⟨rs, reads, hpolls⟩ := play_host_wait n hp ht
    refine ⟨⟨_, hpolls, ht, hp⟩, ?_⟩
    rw [ScriptRun.play_append, hpolls]
    exact play_engine_host_wait (hinv.withHost _ rs) hp ht

end Sys2Proof.Machine
end

section
/-! Command control (40_command_control.md): the engine's move, which the next event or an empty queue gives; what the engine does
with the pending word; what a completion records after acceptance; and the commands with no unit of their own. -/

namespace Sys2Proof.Machine

/-! The engine's move (40_command_control.md R132, 20_memory.md R86; log 1, log 8). -/

/-- With the engine's turn first in the queue, or with no event left, the step is the engine's, its turn taken from the queue. -/
theorem step_of_engine_next {s : State} {rest : List Event} (h : (s.events = [] ∧ rest = []) ∨ s.events = .engine :: rest) :
    step s = engineStep { s with events := rest } := by
  obtain ⟨hev, rfl⟩ | hev := h
  · have hs : { s with events := [] } = s := congrArg (fun es => { s with events := es }) hev.symm
    rw [step, hev, hs]
  · rw [step, hev]

theorem step_of_no_event {s : State} (h : s.events = []) : step s = engineStep s := by
  rw [step, h]

theorem engineStep_of_idle {s : State} (h : s.phase = .idle) : engineStep s = .next s := by
  rw [engineStep, h]

theorem engineStep_of_decode {s : State} {w : Word} {i : Instr} (h : s.phase = .busy w) (hd : decodeCommand w = .ok i) :
    engineStep s = exec i s := by
  simp only [engineStep, h, hd]

theorem engineStep_of_reject {s : State} {w : Word} {r : DecodeReject} (h : s.phase = .busy w) (hd : decodeCommand w = .error r) :
    engineStep s = .next (completeErr .illegalCmd w s) := by
  simp only [engineStep, h, hd, execIllegal]

/-- The decoder rejects every word with a bit of MBZ set or a reserved OP (30_encoding.md R102). -/
theorem exists_decodeCommand_eq_error {w : Word} (h : mbzField w ≠ 0#28 ∨ 7 ≤ (opField w).toNat) :
    ∃ r, decodeCommand w = .error r := by
  rw [ne_eq, mbzField_eq_zero, toNat_opField] at h
  obtain ⟨-, hd⟩ | ⟨-, -, hd⟩ | ⟨i, rfl, -⟩ := decodeCommand_cases w
  · exact ⟨_, hd⟩
  · exact ⟨_, hd⟩
  · obtain ⟨hmbz, hop⟩ := wellFormed_encodeCommand i
    omega

/-! What a completion records (40_command_control.md R132 to R134). -/

theorem Completes.doneIp {s t : State} (h : Completes s t) : doneIp t = true := by
  obtain ⟨-, -, -, hirq⟩ | ⟨-, -, hirq⟩ := h.outcome <;> simp [Machine.doneIp, hirq]

/-- While a command is pending LAST_OP names it and no error is recorded, as acceptance left them (40_command_control.md R130). -/
theorem RecordConsistent.of_busy {s : State} {w : Word} (h : RecordConsistent s) (hp : s.phase = .busy w) :
    s.lastOp = opField w ∧ s.err = false ∧ s.errCode = none ∧ s.errInfo = 0#32 := by
  obtain ⟨hbusy, -, hcode, hinfo⟩ := h
  obtain ⟨-, herr, hop⟩ := hbusy w hp
  exact ⟨hop, herr, by simpa [herr] using hcode, hinfo herr⟩

/-- From a clear error record a completion leaves it clear and ERR_IP as it was, or records an error and sets ERR_IP. -/
theorem Completes.errorRecord {s t : State} (h : Completes s t) (herr : s.err = false) (hcode : s.errCode = none)
    (hinfo : s.errInfo = 0#32) :
    (t.err = false ∧ t.errCode = none ∧ t.errInfo = 0#32 ∧ errIp t = errIp s) ∨
      (t.err = true ∧ (∃ e, t.errCode = some e) ∧ errIp t = true) := by
  obtain ⟨he, hc, hi, hirq⟩ | ⟨he, hc, hirq⟩ := h.outcome
  · exact .inl ⟨he.trans herr, hc.trans hcode, hi.trans hinfo, by simp [errIp, hirq]⟩
  · exact .inr ⟨he, hc, by simp [errIp, hirq]⟩

/-- Settles O23: the engine completes every pending word, and the invariant says what acceptance left in the record. -/
theorem engineStepCompletes : Obligations.EngineStepCompletes := by
  refine ⟨fun s hidle => ⟨fun hev => ?_, fun rest hev => ?_⟩, fun s w rest hinv hp hev => ?_⟩
  · rw [step_of_no_event hev, engineStep_of_idle hidle]
  · exact (step_of_engine_next (.inr hev)).trans (engineStep_of_idle hidle)
  · obtain ⟨t, ht, hc⟩ := engineStep_completes (hinv.withHost rest s.responses) hp
    obtain ⟨hop, herr, hcode, hinfo⟩ := hinv.record.of_busy hp
    exact ⟨t, (step_of_engine_next (.inr hev)).trans ht, hc.phase, hc.done, hc.doneIp, hc.lastOp.trans hop,
      hc.errorRecord herr hcode hinfo⟩

/-- Settles O20: the row of CMD is reached while IDLE, and its write is `accept`. -/
theorem commandAccepted : Obligations.CommandAccepted :=
  fun _ w h => busAccess_writeAt (reachable_of_idle h .cmd) rfl w

/-- The first step after `withFetchWord` is the engine's, at the state that acceptance leaves (log 7). -/
theorem step_withFetchWord (w : Word) (u : State) :
    step (u.withFetchWord 32 w.toNat) = engineStep (accept w u) := by
  have hw : BitVec.ofNat 32 (w.toNat % 2 ^ 32) = w := by rw [Nat.mod_eq_of_lt w.isLt, BitVec.ofNat_toNat, BitVec.setWidth_eq]
  rw [step_of_engine_next (.inr rfl), State.withFetchWord, hw]
  rfl

/-- Settles O22: in each of the three states the engine moves, with w pending. -/
theorem stepRunsDecodedCommand : Obligations.StepRunsDecodedCommand := by
  refine fun s w i hp hd => ⟨fun hev => ?_, fun rest hev => ?_, fun u _ => ?_⟩
  · rw [step_of_no_event hev, engineStep_of_decode hp hd]
  · exact (step_of_engine_next (.inr hev)).trans (engineStep_of_decode hp hd)
  · exact (step_withFetchWord w u).trans (engineStep_of_decode rfl hd)

/-- Settles O24: the decoder rejects the word, and the engine then completes with E_ILLEGAL_CMD. -/
theorem illegalWordCompletesWithError : Obligations.IllegalWordCompletesWithError := by
  intro s w rest hp hw hev
  obtain ⟨r, hd⟩ := exists_decodeCommand_eq_error hw
  exact (step_of_engine_next hev).trans (engineStep_of_reject hp hd)

/-! The commands with no unit of their own (40_command_control.md R137 to R139). -/

theorem exec_nop (s : State) : exec .nop s = .next (complete s) := rfl

theorem exec_clearFreq (s : State) : exec .clearFreq s = .next (complete { s with freq := [] }) := rfl

theorem exec_clearTable (s : State) : exec .clearTable s = .next (complete { s with ct := [] }) := rfl

theorem freqRead_of_nil {s : State} (h : s.freq = []) (x : Byte) : freqRead s x = 0#32 := by
  rw [freqRead, h, Memory.read_nil]

theorem ctRead_of_nil {s : State} (h : s.ct = []) (x : Byte) : ctRead s x = .absent := by
  rw [ctRead, h, Memory.read_nil]

/-- Settles O25: NOP is completion. -/
theorem nopCompletes : Obligations.NopCompletes := exec_nop

/-- Settles O26: an entry of FREQ that is not listed is 0. -/
theorem clearFreqZeroesFreq : Obligations.ClearFreqZeroesFreq :=
  fun s => ⟨_, exec_clearFreq s, freqRead_of_nil rfl, rfl⟩

/-- Settles O27: an entry of CT that is not listed has LEN 0 and CODE 0. -/
theorem clearTableZeroesTable : Obligations.ClearTableZeroesTable :=
  fun s => ⟨_, exec_clearTable s, ctRead_of_nil rfl, rfl⟩

end Sys2Proof.Machine
end

section
/-! The tree builder (41_tree_builder.md): the state BUILD leaves, read through the builder its merge loop ended with; then the links
of the nodes it made: every node but the root has one parent, so one path from ROOT leads to it. -/

namespace Sys2Proof.Machine

/-! What BUILD leaves, success or not (41_tree_builder.md R165 to R168, R170). -/

/-- The arena, NLEAF and NNODE of `t` are those of a BUILD from `s` whose merge loop ended with the builder `b`. -/
structure BuiltBy (s t : State) (b : Builder) (f : List (Key × Tree)) : Prop where
  building : Building s b f
  node     : t.node = (arenaOf s b).node
  nleaf    : t.nleaf = (arenaOf s b).nleaf
  nnode    : t.nnode = BitVec.ofNat 9 b.n

section
variable {s t : State} {b : Builder} {f : List (Key × Tree)} (h : BuiltBy s t b f)
include h

theorem BuiltBy.read_eq (i : Nat) : nodeRead (arenaOf s b) i = nodeRead t i := nodeRead_congr h.node.symm i

theorem BuiltBy.toNat_nleaf : t.nleaf.toNat = (leafSymbols s).length := by rw [h.nleaf, arenaOf_nleaf]

theorem BuiltBy.n_lt : b.n < 512 := by
  have hcount := h.building.count
  have hle := length_leafSymbols_le s
  by_cases hne : leafSymbols s = []
  · rw [hne, List.length_nil] at hcount
    omega
  · have hpos := List.length_pos_iff.mpr (h.building.nonempty hne)
    omega

theorem BuiltBy.toNat_nnode : t.nnode.toNat = b.n := by
  rw [h.nnode, BitVec.toNat_ofNat, Nat.mod_eq_of_lt h.n_lt]

theorem BuiltBy.leavesLoaded : LeavesLoaded s t := fun k x hx => (h.read_eq k).symm.trans (h.building.loaded k x hx)

theorem BuiltBy.mergedAt {n : Nat} (hn : t.nleaf.toNat ≤ n) (hn' : n < b.n) : MergedAt t n :=
  (h.building.merged n (h.toNat_nleaf ▸ hn) hn').congr h.nleaf.symm fun j _ => h.read_eq j

theorem BuiltBy.inQueueAt_iff (i : Nat) : InQueueAt t b.n i ↔ ∃ k ∈ b.queue, k.index = i :=
  (inQueueAt_congr h.nleaf.symm (fun j _ => h.read_eq j) i).symm.trans (h.building.inQueue i)

theorem BuiltBy.unchanged {i : Nat} (hi : b.n ≤ i) : nodeRead t i = nodeRead s i := by
  rw [← h.read_eq, nodeRead_arenaOf, h.building.above i hi]
  rfl

end

theorem exec_build_of_overflows {s : State} (h : FreqOverflows s) : ∃ t b f a c rest, exec .build s = .next t ∧ BuiltBy s t b f ∧
    extractTwo b.queue = some (a, c, rest) ∧ 0xFFFFFFFF < a.freq + c.freq ∧
    t = { s with
      node := t.node, nleaf := t.nleaf, nnode := BitVec.ofNat 9 b.n, root := noneIndex, treeValid := false, phase := .idle,
      done := true, err := true, errCode := some .freqOvf, errInfo := BitVec.ofNat 32 b.n, irqStatus := s.irqStatus ||| 3#2 } := by
  obtain ⟨b, f, a, c, rest, hb, hbuild, hx, ho⟩ := mergeLoop_of_overflows h
  obtain ⟨t, b', ht, ⟨hb', -⟩ | ⟨hb', rfl⟩⟩ := execBuild_cases s
  · cases hb'.symm.trans hb
  · cases hb'.symm.trans hb
    exact ⟨_, b, f, a, c, rest, ht, ⟨hbuild, rfl, by rw [loadedBuilder_n]; rfl, rfl⟩, hx, ho, rfl⟩

theorem exec_build_of_not_overflows {s : State} (h : ¬ FreqOverflows s) : ∃ t b f, exec .build s = .next t ∧ BuiltBy s t b f ∧
    b.queue.length ≤ 1 ∧
    t = { s with
      node := t.node, nleaf := t.nleaf, nnode := t.nnode, root := rootOf b, treeValid := true, phase := .idle, done := true,
      irqStatus := s.irqStatus ||| 1#2 } := by
  obtain ⟨b, f, hb, hbuild, hq⟩ := mergeLoop_of_not_overflows h
  obtain ⟨t, b', ht, ⟨hb', rfl⟩ | ⟨hb', -⟩⟩ := execBuild_cases s
  · cases hb'.symm.trans hb
    exact ⟨_, b, f, ht, ⟨hbuild, rfl, by rw [loadedBuilder_n]; rfl, rfl⟩, hq, rfl⟩
  · cases hb'.symm.trans hb

/-- Settles O29: leaf loading is over before the merge loop can overflow. -/
theorem buildLoadsLeavesInSymbolOrder : Obligations.BuildLoadsLeavesInSymbolOrder := by
  intro s t ht
  by_cases ho : FreqOverflows s
  · obtain ⟨t', b, f, -, -, -, ht', hb, -⟩ := exec_build_of_overflows ho
    cases ht'.symm.trans ht
    exact ⟨hb.leavesLoaded, hb.toNat_nleaf⟩
  · obtain ⟨t', b, f, ht', hb, -⟩ := exec_build_of_not_overflows ho
    cases ht'.symm.trans ht
    exact ⟨hb.leavesLoaded, hb.toNat_nleaf⟩

/-- Settles O30: every pass of the merge loop keeps what the passes before it made. -/
theorem buildMergesTwoLeast : Obligations.BuildMergesTwoLeast := by
  intro s t ho ht n hn hn'
  obtain ⟨t', b, f, ht', hb, -⟩ := exec_build_of_not_overflows ho
  cases ht'.symm.trans ht
  exact hb.mergedAt hn (hb.toNat_nnode ▸ hn')

/-- Settles O31: the loop stops at the builder whose two least keys overflow, with everything before it done. -/
theorem buildOverflow : Obligations.BuildOverflow := by
  intro s ho
  obtain ⟨t, b, f, a, c, rest, ht, hb, hx, hsum, hframe⟩ := exec_build_of_overflows ho
  obtain ⟨hperm, -⟩ := extractTwo_eq_some hx
  have htwo : 2 ≤ b.queue.length := by rw [← hperm.length_eq]; simp
  have hcount := hb.building.count
  have hlen := hb.building.queue.length_eq
  rw [List.length_map] at hlen
  obtain ⟨-, ha⟩ := hb.building.key (hperm.subset (by simp) : a ∈ b.queue)
  obtain ⟨-, hc⟩ := hb.building.key (hperm.subset (by simp) : c ∈ b.queue)
  rw [ha, hc, hb.read_eq, hb.read_eq] at hsum
  exact ⟨t, b.n, ht, hframe, hb.toNat_nleaf, hb.building.loadedLe, by omega, hb.leavesLoaded, fun k => hb.mergedAt,
    fun k => hb.unchanged, a.index, c.index,
    (hb.building.twoLeast hx).congr hb.nleaf.symm fun j _ => hb.read_eq j, hsum⟩

/-! The root (41_tree_builder.md R166, R169). -/

theorem loadLeaves_of_present_eq_nil {s : State} {ks : List Nat} (h : present s ks = []) (b : Builder) : loadLeaves s ks b = b := by
  induction ks with
  | nil => rfl
  | cons k ks ih =>
    rw [present_cons] at h
    split at h
    · next hk => rw [loadLeaves, if_pos hk, ih h]
    · cases h

/-- BUILD with no symbol writes no NODE entry (41_tree_builder.md R166). -/
theorem exec_build_of_no_symbols {s : State} (h : leafSymbols s = []) :
    exec .build s = .next (complete { s with nleaf := 0#9, nnode := 0#9, root := noneIndex, treeValid := true }) := by
  have hload : loadedBuilder s = { cells := s.node.cells, queue := [], n := 0 } := loadLeaves_of_present_eq_nil h _
  simp only [exec, execBuild, hload, mergeLoop, rootOf]

/-- ROOT is the last node made (41_tree_builder.md R169). -/
theorem toNat_rootOf {b : Builder} {k : Key} (hq : b.queue = [k]) (hk : k.index < 512) : (rootOf b).toNat = k.index := by
  rw [rootOf, hq]
  simp only [extractMin, BitVec.toNat_ofNat]
  omega

/-- Settles O28, by whether a symbol is present. -/
theorem buildCompletes : Obligations.BuildCompletes := by
  intro s ho
  by_cases hne : leafSymbols s = []
  · exact ⟨_, exec_build_of_no_symbols hne, rfl, by rw [hne]; rfl, fun _ => ⟨rfl, rfl, rfl⟩, fun h => absurd hne h, fun _ _ => rfl⟩
  · obtain ⟨t, b, f, ht, hb, hq, hframe⟩ := exec_build_of_not_overflows ho
    have hroot : t.root = rootOf b := by rw [hframe]
    obtain ⟨k, -, -, hqueue, hk, hn, -⟩ := hb.building.root hq hne
    have hlt := hb.n_lt
    refine ⟨t, ht, hroot ▸ hframe, hb.toNat_nleaf, fun h => absurd h hne, fun _ => ⟨?_, ?_⟩, fun i hi => ?_⟩
    · rw [hb.toNat_nnode, hn]
    · rw [hb.toNat_nnode, hroot, toNat_rootOf hqueue (by omega), hk]
    · exact hb.unchanged (hb.toNat_nnode ▸ hi)

/-! Paths of links (41_tree_builder.md R172(a)). -/

/-- LEFT (false) or RIGHT (true) of a node. -/
def Node.link (nd : Node) (right : Bool) : NodeIndex := if right then nd.right else nd.left

theorem follow_append (s : State) (p q : List Bool) : ∀ i, follow s i (p ++ q) = (follow s i p).bind fun j => follow s j q := by
  induction p with
  | nil => intro i; rfl
  | cons d p ih =>
    intro i
    simp only [List.cons_append, follow, ih]
    split <;> rfl

/-- A path's last link leaves an internal node. -/
theorem follow_concat_eq_some {s : State} {i k : Nat} {p : List Bool} {d : Bool} : follow s i (p ++ [d]) = some k ↔
    ∃ m, follow s i p = some m ∧ (nodeRead s m).leaf = false ∧ ((nodeRead s m).link d).toNat = k := by
  rw [follow_append, Option.bind_eq_some_iff]
  refine exists_congr fun m => and_congr_right fun _ => ?_
  cases hl : (nodeRead s m).leaf <;> simp [follow, hl, Node.link]

/-! The links of the nodes BUILD makes (41_tree_builder.md R172(b), (d), (e)). -/

/-- A merged node is internal, over two different nodes of the queue, with their exact sum (41_tree_builder.md R167). -/
theorem MergedAt.internal {t : State} {n : Nat} (h : MergedAt t n) (hn : n < 512) : (nodeRead t n).leaf = false ∧
    (nodeRead t n).left ≠ (nodeRead t n).right ∧ (∀ d, InQueueAt t n ((nodeRead t n).link d).toNat) ∧
    (nodeRead t n).freq.toNat =
      (nodeRead t (nodeRead t n).left.toNat).freq.toNat + (nodeRead t (nodeRead t n).right.toNat).freq.toNat := by
  obtain ⟨a, c, ⟨ha, hc, hac, -⟩, hsum, hnode⟩ := h
  have hne : a ≠ c := by
    rintro rfl
    rcases hac with hlt | ⟨-, hlt⟩ <;> exact absurd hlt (Nat.lt_irrefl _)
  obtain ⟨hleft, hright⟩ := internalNode_links (f := (nodeRead t a).freq.toNat + (nodeRead t c).freq.toNat)
    (show a < 512 from ha.1.trans hn) (show c < 512 from hc.1.trans hn)
  rw [hnode, hleft, hright]
  refine ⟨rfl, fun he => hne ?_, fun d => ?_, ?_⟩
  · rw [← hleft, he, hright]
  · cases d
    · exact hleft.symm ▸ ha
    · exact hright.symm ▸ hc
  · simp only [internalNode, BitVec.toNat_ofNat]
    omega

section
variable {s t : State} {b : Builder} {f : List (Key × Tree)} (h : BuiltBy s t b f)
include h

/-- The node below NLEAF is the leaf of a symbol present (41_tree_builder.md R165). -/
theorem BuiltBy.exists_leaf {k : Nat} (hk : k < t.nleaf.toNat) :
    ∃ x, (leafSymbols s)[k]? = some x ∧ nodeRead t k = leafNode x (freqRead s x) := by
  have hx := List.getElem?_eq_getElem (h.toNat_nleaf ▸ hk : k < (leafSymbols s).length)
  exact ⟨_, hx, h.leavesLoaded k _ hx⟩

theorem BuiltBy.leaf_iff {k : Nat} (hk : k < b.n) : (nodeRead t k).leaf = true ↔ k < t.nleaf.toNat := by
  refine ⟨fun hleaf => ?_, fun hlt => ?_⟩
  · by_contra hge
    obtain ⟨hint, -⟩ := (h.mergedAt (Nat.le_of_not_lt hge) hk).internal (hk.trans h.n_lt)
    rw [hint] at hleaf
    cases hleaf
  · obtain ⟨x, -, hx⟩ := h.exists_leaf hlt
    rw [hx]
    rfl

theorem BuiltBy.mergedAt_of_internal {m : Nat} (hm : m < b.n) (hint : (nodeRead t m).leaf = false) : MergedAt t m := by
  refine h.mergedAt (Nat.le_of_not_lt fun hlt => ?_) hm
  rw [(h.leaf_iff hm).mpr hlt] at hint
  cases hint

/-- A child's index is below its parent's, and no node made before its parent has taken it (41_tree_builder.md R172(e), R163). -/
theorem BuiltBy.inQueueAt_link {m : Nat} (hm : m < b.n) (hint : (nodeRead t m).leaf = false) (d : Bool) :
    InQueueAt t m ((nodeRead t m).link d).toNat := by
  obtain ⟨-, -, hq, -⟩ := (h.mergedAt_of_internal hm hint).internal (hm.trans h.n_lt)
  exact hq d

theorem BuiltBy.link_ne_of_lt {m m' : Nat} (hlt : m < m') (hm' : m' < b.n) (hint : (nodeRead t m).leaf = false)
    (hint' : (nodeRead t m').leaf = false) (d d' : Bool) :
    (nodeRead t m).link d ≠ (nodeRead t m').link d' := by
  intro he
  have hge := Nat.le_of_not_lt fun hl => absurd ((h.leaf_iff (hlt.trans hm')).mpr hl) (by simp [hint])
  obtain ⟨-, hfree⟩ := h.inQueueAt_link hm' hint' d'
  obtain ⟨hleft, hright⟩ := hfree m hge hlt
  cases d
  · exact hleft (congrArg BitVec.toNat he)
  · exact hright (congrArg BitVec.toNat he)

/-- No node has two parents, nor is it both children of one. -/
theorem BuiltBy.parent_unique {m m' : Nat} {d d' : Bool} (hm : m < b.n) (hm' : m' < b.n)
    (hint : (nodeRead t m).leaf = false) (hint' : (nodeRead t m').leaf = false)
    (he : (nodeRead t m).link d = (nodeRead t m').link d') : m = m' ∧ d = d' := by
  rcases Nat.lt_trichotomy m m' with hlt | rfl | hlt
  · exact absurd he (h.link_ne_of_lt hlt hm' hint hint' d d')
  · obtain ⟨-, hne, -⟩ := (h.mergedAt_of_internal hm hint).internal (hm.trans h.n_lt)
    cases d <;> cases d'
    · exact ⟨rfl, rfl⟩
    · exact absurd he hne
    · exact absurd he.symm hne
    · exact ⟨rfl, rfl⟩
  · exact absurd he.symm (h.link_ne_of_lt hlt hm hint' hint d' d)

/-- A node that has left the queue has a parent (41_tree_builder.md R160, R167). -/
theorem BuiltBy.exists_parent {k : Nat} (hk : k < b.n) (hq : ∀ e ∈ b.queue, e.index ≠ k) :
    ∃ m d, m < b.n ∧ (nodeRead t m).leaf = false ∧ ((nodeRead t m).link d).toNat = k := by
  have htaken : ¬ InQueueAt t b.n k := fun hin => by
    obtain ⟨e, he, hi⟩ := (h.inQueueAt_iff k).mp hin
    exact hq e he hi
  simp only [InQueueAt, not_and, not_forall, not_not] at htaken
  obtain ⟨m, hge, hm, hlink⟩ := htaken hk
  obtain ⟨hint, -⟩ := (h.mergedAt hge hm).internal (hm.trans h.n_lt)
  by_cases hleft : (nodeRead t m).left.toNat = k
  · exact ⟨m, false, hm, hint, hleft⟩
  · exact ⟨m, true, hm, hint, hlink hleft⟩

/-- Every link of a path goes to a lower index (41_tree_builder.md R172(e)). -/
theorem BuiltBy.follow_add_length_le {i : Nat} (hi : i < b.n) (p : List Bool) : ∀ {k}, follow t i p = some k → k + p.length ≤ i := by
  induction p using List.reverseRecOn with
  | nil => intro k hk; cases hk; exact Nat.le_refl _
  | append_singleton p d ih =>
    intro k hk
    obtain ⟨m, hm, hint, rfl⟩ := follow_concat_eq_some.mp hk
    have hle := ih hm
    obtain ⟨hlt, -⟩ := h.inQueueAt_link (by omega) hint d
    rw [List.length_append, List.length_singleton]
    omega

/-- From the last key of the queue one path leads to each node, by the one path to its parent. -/
theorem BuiltBy.existsUnique_path {e : Key} (hq : b.queue = [e]) (he : e.index + 1 = b.n) {k : Nat} (hk : k < b.n) :
    ∃! p, follow t e.index p = some k := by
  have hroot : e.index < b.n := by omega
  induction hd : e.index - k using Nat.strongRecOn generalizing k with
  | ind n ih =>
    by_cases hke : k = e.index
    · subst hke
      refine ⟨[], rfl, fun p hp => List.length_eq_zero_iff.mp ?_⟩
      have := h.follow_add_length_le hroot p hp
      omega
    · obtain ⟨m, d, hm, hint, hlink⟩ := h.exists_parent hk (by rw [hq]; simpa using Ne.symm hke)
      obtain ⟨hlt, -⟩ := h.inQueueAt_link hm hint d
      obtain ⟨p, hp, hunique⟩ := ih _ (by omega) hm rfl
      refine ⟨p ++ [d], follow_concat_eq_some.mpr ⟨m, hp, hint, hlink⟩, fun q hq' => ?_⟩
      rcases List.eq_nil_or_concat' q with rfl | ⟨q, d', rfl⟩
      · exact absurd (Option.some.inj hq').symm hke
      · obtain ⟨m', hq', hint', hlink'⟩ := follow_concat_eq_some.mp hq'
        have hle := h.follow_add_length_le hroot q hq'
        obtain ⟨rfl, rfl⟩ := h.parent_unique (by omega) hm hint' hint (BitVec.eq_of_toNat_eq (hlink'.trans hlink.symm))
        rw [hunique q hq']

end

/-! The symbols of the leaves (41_tree_builder.md R172(c)). -/

theorem mem_leafSymbols {s : State} {x : Byte} : x ∈ leafSymbols s ↔ freqRead s x ≠ 0#32 := by
  have hx : x ∈ allSymbols := List.mem_map.mpr ⟨x.toNat, List.mem_range.mpr x.isLt, by simp⟩
  simp [leafSymbols, hx]

/-- Each symbol present has one leaf: the symbols of the leaves are all different. -/
theorem BuiltBy.existsUnique_leaf {s t : State} {b : Builder} {f : List (Key × Tree)} (h : BuiltBy s t b f) {x : Byte}
    (hx : freqRead s x ≠ 0#32) : ∃! k, k < b.n ∧ (nodeRead t k).leaf = true ∧ (nodeRead t k).sym = x := by
  obtain ⟨k, hk⟩ := List.mem_iff_getElem?.mp (mem_leafSymbols.mpr hx)
  have hlt := (List.getElem?_eq_some_iff.mp hk).1
  have hnode := h.leavesLoaded k x hk
  refine ⟨k, ⟨hlt.trans_le h.building.loadedLe, by rw [hnode]; rfl, by rw [hnode]; rfl⟩, fun j ⟨hj, hleaf, hsym⟩ => ?_⟩
  obtain ⟨y, hy, hnode'⟩ := h.exists_leaf ((h.leaf_iff hj).mp hleaf)
  have hyx : y = x := by rw [← hsym, hnode']; rfl
  exact ((List.getElem?_inj hlt (nodup_leafSymbols s)).mp (hk.trans (hyx ▸ hy).symm)).symm

/-- Settles O32: ROOT is the last node, each other node has one parent of higher index, and the leaves are those loaded. -/
theorem buildTreeInvariants : Obligations.BuildTreeInvariants := by
  intro s t ho hne ht
  obtain ⟨t', b, f, ht', hb, hq, hframe⟩ := exec_build_of_not_overflows ho
  cases ht'.symm.trans ht
  obtain ⟨e, tr, rfl, hqueue, he, -, htotal⟩ := hb.building.root hq hne
  obtain ⟨hlt, -, hrep⟩ := hb.building.trees _ (List.mem_singleton_self _)
  have hroot : t.root.toNat = e.index := by
    rw [hframe]
    exact toNat_rootOf hqueue (hlt.trans hb.n_lt)
  rw [hroot, hb.toNat_nnode]
  refine ⟨fun k => hb.existsUnique_path hqueue he, fun p k hp => ?_, fun k hk hint => ?_, fun x => hb.existsUnique_leaf,
    fun k hk hleaf => ?_, ?_⟩
  · have := hb.follow_add_length_le hlt p hp
    exact (Nat.le_of_add_right_le this).trans_lt hlt
  · obtain ⟨-, hdiff, hchild, hsum⟩ := (hb.mergedAt_of_internal hk hint).internal (hk.trans hb.n_lt)
    exact ⟨hdiff, (hchild false).1, (hchild true).1, hsum⟩
  · obtain ⟨x, hx, hnode⟩ := hb.exists_leaf ((hb.leaf_iff hk).mp hleaf)
    rw [hnode]
    exact mem_leafSymbols.mp (List.mem_of_getElem? hx)
  · rw [← hb.read_eq, hrep.freq, htotal]

end Sys2Proof.Machine
end

section
/-! The code-table generator (42_code_table.md): the table WALK writes as a list of symbols with their codes; the codes of a tree, its
paths, or "0" for a single leaf; and what such codes make of the code table. -/

namespace Sys2Proof.Machine

/-! WALK by its table (42_code_table.md R190 to R194). -/

theorem exec_walk_of_noTree {s : State} (h : s.treeValid = false) : exec .walk s = .next (completeErr .noTree 0#32 s) := by
  obtain ⟨-, hu⟩ | ⟨hv, -⟩ := execWalk_cases s
  · exact hu
  · rw [h] at hv; cases hv

theorem exec_walk_of_walkTable {s : State} {m : Memory CtEntry} (hv : s.treeValid = true) (hm : walkTable s = some m) :
    exec .walk s = .next (complete { s with ct := m }) := by
  obtain ⟨hv', -⟩ | ⟨-, ⟨hnone, -⟩ | ⟨m', hm', hu⟩⟩ := execWalk_cases s
  · rw [hv] at hv'; cases hv'
  · cases hnone.symm.trans hm
  · cases hm'.symm.trans hm; exact hu

theorem walkTable_of_none {s : State} (h : s.root = noneIndex) : walkTable s = some [] := if_pos h

theorem walkTable_of_leaf {s : State} (h : s.root ≠ noneIndex) (hl : (nodeRead s s.root.toNat).leaf = true) :
    walkTable s = some (ctPut (nodeRead s s.root.toNat).sym { len := 1#8, code := 0#256 } []) :=
  (if_neg h).trans (if_pos hl)

theorem walkTable_of_internal {s : State} (h : s.root ≠ noneIndex) (hl : (nodeRead s s.root.toNat).leaf = false) :
    walkTable s = visit s 256 s.root.toNat 0 0 [] :=
  (if_neg h).trans (if_neg (by simp [hl]))

/-! The table of a list of codes. -/

/-- The cleared table with the codes of `ps` written to it, one symbol after another (42_code_table.md R192, R195). -/
def tableOf (ps : List (Byte × List Bool)) : Memory CtEntry := ps.foldl (fun m e => ctPut e.1 (pathEntry 0 0 e.2) m) []

/-- CT holds the codes of `ps` and no other (42_code_table.md R196). -/
structure HoldsCodes (t : State) (ps : List (Byte × List Bool)) : Prop where
  entry  : ∀ {x p}, (x, p) ∈ ps → ctRead t x = { len := BitVec.ofNat 8 p.length, code := BitVec.ofNat 256 (valOf p) }
  absent : ∀ {x}, (∀ p, (x, p) ∉ ps) → ctRead t x = .absent

theorem pathEntry_root (p : List Bool) :
    pathEntry 0 0 p = { len := BitVec.ofNat 8 p.length, code := BitVec.ofNat 256 (valOf p) } := by
  simp [pathEntry]

theorem lookup_eq_some_of_mem {ps : List (Byte × List Bool)} {x : Byte} {p : List Bool} (hps : (ps.map Prod.fst).Nodup)
    (h : (x, p) ∈ ps) : ps.lookup x = some p := by
  obtain ⟨l₁, l₂, rfl⟩ := List.append_of_mem h
  refine List.lookup_eq_some_iff.mpr ⟨l₁, l₂, rfl, fun q hq => bne_iff_ne.mpr ?_⟩
  rintro rfl
  rw [List.map_append, List.nodup_append] at hps
  obtain ⟨-, -, hdisjoint⟩ := hps
  exact hdisjoint _ (List.mem_map_of_mem hq) _ (by simp) rfl

theorem holdsCodes_of_ct_eq_tableOf {t : State} {ps : List (Byte × List Bool)} (hps : (ps.map Prod.fst).Nodup)
    (ht : t.ct = tableOf ps) : HoldsCodes t ps := by
  have hread (x : Byte) := read_foldl_ctPut (g := pathEntry 0 0) ps [] x hps
  refine ⟨fun {x p} hx => ?_, fun {x} hx => ?_⟩
  · rw [ctRead, ht, tableOf, hread, lookup_eq_some_of_mem hps hx, ← pathEntry_root]
  · have hnone : ps.lookup x = none := List.lookup_eq_none_iff.mpr fun q hq => by
      simpa using fun he : x = q.1 => hx q.2 (he ▸ hq)
    rw [ctRead, ht, tableOf, hread, hnone, Memory.read_nil]

/-- WALK from a state whose walk writes the codes `ps`: CT holds them, and nothing else but the completion fields changes. -/
theorem exec_walk_holdsCodes {s : State} {ps : List (Byte × List Bool)} (hv : s.treeValid = true) (hps : (ps.map Prod.fst).Nodup)
    (h : walkTable s = some (tableOf ps)) : ∃ t, exec .walk s = .next t ∧ HoldsCodes t ps ∧
      t = { s with ct := t.ct, phase := .idle, done := true, irqStatus := s.irqStatus ||| 1#2 } :=
  ⟨_, exec_walk_of_walkTable hv h, holdsCodes_of_ct_eq_tableOf hps rfl, rfl⟩

/-! What a table of codes is, when no symbol has two and no code begins with another (42_code_table.md R197). -/

theorem mem_allSymbols (x : Byte) : x ∈ allSymbols :=
  List.mem_map.mpr ⟨x.toNat, List.mem_range.mpr x.isLt, by simp⟩

/-- Codes that fit LEN, one a symbol, no code beginning with another. -/
structure IsPrefixCode (ps : List (Byte × List Bool)) : Prop where
  nodup      : (ps.map Prod.fst).Nodup
  length     : ∀ e ∈ ps, 1 ≤ e.2.length ∧ e.2.length ≤ 255
  prefixFree : ps.Pairwise fun a b => ¬ a.2 <+: b.2 ∧ ¬ b.2 <+: a.2

section
variable {t : State} {ps : List (Byte × List Bool)} (h : HoldsCodes t ps) (hps : IsPrefixCode ps)
include h hps

theorem HoldsCodes.codeOf_eq {x : Byte} {p : List Bool} (hx : (x, p) ∈ ps) : codeOf t x = p := by
  rw [codeOf, h.entry hx, codeBits_of_path (hps.length _ hx).2]

theorem HoldsCodes.toNat_len {x : Byte} {p : List Bool} (hx : (x, p) ∈ ps) : (ctRead t x).len.toNat = p.length := by
  rw [← length_codeOf, h.codeOf_eq hps hx]

theorem HoldsCodes.hasCode_iff {x : Byte} : HasCode t x ↔ ∃ p, (x, p) ∈ ps := by
  refine ⟨fun hx => ?_, fun ⟨p, hp⟩ hx => ?_⟩
  · by_contra hnone
    rw [HasCode, h.absent (not_exists.mp hnone)] at hx
    exact hx rfl
  · have hlen := h.toNat_len hps hp
    have hpos := (hps.length _ hp).1
    rw [hx] at hlen
    exact absurd hlen.symm (Nat.ne_of_gt hpos)

theorem HoldsCodes.prefixFree : PrefixFree t := by
  intro x y hxy hx hy
  obtain ⟨p, hp⟩ := (h.hasCode_iff hps).mp hx
  obtain ⟨q, hq⟩ := (h.hasCode_iff hps).mp hy
  rw [h.codeOf_eq hps hp, h.codeOf_eq hps hq]
  have : Std.Symm fun a b : Byte × List Bool => ¬ a.2 <+: b.2 ∧ ¬ b.2 <+: a.2 := ⟨fun _ _ => And.symm⟩
  exact (hps.prefixFree.forall hp hq fun he => hxy (congrArg Prod.fst he)).1

/-- The symbols with a code are those of `ps`. -/
theorem HoldsCodes.codedSymbols_perm : (allSymbols.filter fun x => decide (HasCode t x)).Perm (ps.map Prod.fst) := by
  refine (List.perm_ext_iff_of_nodup (nodup_allSymbols.filter _) hps.nodup).mpr fun x => ?_
  rw [List.mem_filter, decide_eq_true_iff, h.hasCode_iff hps]
  simp [mem_allSymbols x]

/-- The Kraft sum over CT is the one over the codes, every term times 2^255. -/
theorem HoldsCodes.kraft_eq :
    ((allSymbols.filter fun x => decide (HasCode t x)).map fun x => 2 ^ (255 - (ctRead t x).len.toNat)).sum =
      (ps.map fun e => 2 ^ (255 - e.2.length)).sum := by
  rw [((h.codedSymbols_perm hps).map _).sum_eq, List.map_map]
  exact congrArg List.sum (List.map_congr_left fun e he => by rw [Function.comp_apply, h.toNat_len hps he])

end

theorem PrefixFree.codeOf_injective {t : State} (h : PrefixFree t) {x y : Byte} (hx : HasCode t x) (hy : HasCode t y)
    (he : codeOf t x = codeOf t y) : x = y := by
  by_contra hxy
  exact h x y hxy hx hy (he ▸ List.prefix_refl _)

/-! The codes of a tree (42_code_table.md R194 to R196). -/

/-- The codes WALK gives the leaves of a tree: their paths, and "0" where the root is the only leaf. -/
def Tree.codes : Tree → List (Byte × List Bool)
  | .leaf x _ => [(x, [false])]
  | .node l r => (Tree.node l r).paths

theorem Tree.codes_symbols (tr : Tree) : tr.codes.map Prod.fst = tr.symbols := by
  cases tr with
  | leaf x f => rfl
  | node l r => exact Tree.paths_symbols _

theorem Tree.length_path_pos {l r : Tree} {e : Byte × List Bool} (h : e ∈ (Tree.node l r).paths) : 1 ≤ e.2.length := by
  obtain hl | hr := List.mem_append.mp h
  · obtain ⟨a, -, rfl⟩ := List.mem_map.mp hl; simp
  · obtain ⟨a, -, rfl⟩ := List.mem_map.mp hr; simp

theorem Tree.isPrefixCode_codes {tr : Tree} (hn : tr.symbols.Nodup) (hd : tr.depth ≤ 255) : IsPrefixCode tr.codes := by
  refine ⟨tr.codes_symbols ▸ hn, ?_, ?_⟩
  · cases tr with
    | leaf x f => simp [Tree.codes]
    | node l r => exact fun e he => ⟨Tree.length_path_pos he, (Tree.length_path_le he).trans hd⟩
  · cases tr with
    | leaf x f => simp [Tree.codes]
    | node l r => exact Tree.paths_prefixFree _

theorem Tree.kraft_codes {tr : Tree} (hd : tr.depth ≤ 255) :
    (tr.codes.map fun e => 2 ^ (255 - e.2.length)).sum = if tr.symbols.length = 1 then 2 ^ 254 else 2 ^ 255 := by
  cases tr with
  | leaf x f => simp [Tree.codes, Tree.symbols]
  | node l r =>
    have hl := l.symbols_length_pos
    have hr := r.symbols_length_pos
    rw [if_neg (by rw [Tree.symbols, List.length_append]; omega)]
    exact Tree.kraft _ 255 hd

/-- The code "0" of a single leaf (42_code_table.md R194). -/
theorem ctPut_zero_eq_tableOf (x : Byte) : ctPut x { len := 1#8, code := 0#256 } [] = tableOf [(x, [false])] := rfl

/-- WALK writes the codes of the tree that stands at ROOT (42_code_table.md R194, R195). -/
theorem walkTable_of_represents {s : State} {tr : Tree} (hroot : s.root ≠ noneIndex) (h : Represents s s.root.toNat tr)
    (hd : tr.depth ≤ 255) : walkTable s = some (tableOf tr.codes) := by
  cases tr with
  | leaf x f =>
    obtain ⟨-, hn⟩ := h
    rw [walkTable_of_leaf hroot (by rw [hn]; rfl), hn]
    exact congrArg some (ctPut_zero_eq_tableOf x)
  | node l r =>
    have ⟨_, _, _, _, _, _, hn, _⟩ := h
    rw [walkTable_of_internal hroot (by rw [hn]; rfl)]
    exact visit_represents s.root.isLt h (Nat.lt_succ_of_le hd)

/-- A valid tree with a leaf: what stands at ROOT, its codes, and what WALK makes of it (42_code_table.md R196). -/
theorem exec_walk_of_arenaHoldsTree {s : State} (hv : s.treeValid = true) (ha : ArenaHoldsTree s) (hne : s.nleaf ≠ 0#9) :
    ∃ tr t, Represents s s.root.toNat tr ∧ tr.symbols.length = s.nleaf.toNat ∧ tr.depth ≤ 255 ∧ IsPrefixCode tr.codes ∧
      exec .walk s = .next t ∧ HoldsCodes t tr.codes ∧
      t = { s with ct := t.ct, phase := .idle, done := true, irqStatus := s.irqStatus ||| 1#2 } := by
  obtain ⟨hnone, -, -⟩ | ⟨tr, hrep, hnodup, hlen, hcount, hlast, -⟩ := ha
  · exact absurd hnone hne
  · have hlt := s.nnode.isLt
    have hdepth := tr.depth_lt_symbols
    have hd : tr.depth ≤ 255 := by omega
    have hroot : s.root ≠ noneIndex := fun he => by
      rw [he] at hlast
      simp only [BitVec.toNat_ofNat] at hlast
      omega
    have hcode := Tree.isPrefixCode_codes hnodup hd
    obtain ⟨t, ht, hholds, hframe⟩ := exec_walk_holdsCodes hv hcode.nodup (walkTable_of_represents hroot hrep hd)
    exact ⟨tr, t, hrep, hlen, hd, hcode, ht, hholds, hframe⟩

/-! The statements. -/

/-- Settles O33: without a valid tree WALK is the completion with E_NO_TREE. -/
theorem walkNeedsTree : Obligations.WalkNeedsTree := fun _ => exec_walk_of_noTree

/-- Settles O34: the codes WALK writes are none, or "0" for the one leaf. -/
theorem walkOfSmallTrees : Obligations.WalkOfSmallTrees := by
  intro s hv
  refine ⟨fun hroot => ?_, fun hroot hl => ?_⟩
  · obtain ⟨t, ht, hholds, hframe⟩ := exec_walk_holdsCodes (ps := []) hv List.nodup_nil (walkTable_of_none hroot)
    exact ⟨t, ht, fun x => hholds.absent (by simp), hframe⟩
  · obtain ⟨t, ht, hholds, hframe⟩ := exec_walk_holdsCodes (ps := [(_, [false])]) hv (List.nodup_singleton _)
      ((walkTable_of_leaf hroot hl).trans (congrArg some (ctPut_zero_eq_tableOf _)))
    exact ⟨t, ht, hholds.entry (List.mem_singleton_self _), fun x hx => hholds.absent (by simp [hx]), hframe⟩

/-- Settles O35: a tree with two leaves or more has an internal root, and its codes are its paths. -/
theorem walkGivesPaths : Obligations.WalkGivesPaths := by
  intro s hv ha htwo
  obtain ⟨tr, t, hrep, hlen, -, hcode, ht, hholds, hframe⟩ :=
    exec_walk_of_arenaHoldsTree hv ha fun he => by rw [he] at htwo; exact absurd htwo (by decide)
  cases tr with
  | leaf x f =>
    have hone : 1 = s.nleaf.toNat := hlen
    omega
  | node l r =>
    refine ⟨t, ht, fun p k hk hl => ?_, fun x hx => hholds.absent fun p hp => ?_, hframe⟩
    · have hp : ((nodeRead s k).sym, p) ∈ (Tree.node l r).codes := (mem_paths_iff s.root.isLt hrep).mpr ⟨k, hk, hl, rfl⟩
      have hle : p.length ≤ (Tree.node l r).depth := Tree.length_path_le hp
      have hdepth := (Tree.node l r).depth_lt_symbols
      exact ⟨(hcode.length _ hp).1, by omega, hholds.codeOf_eq hcode hp, hholds.entry hp⟩
    · obtain ⟨k, hk, hl, hsym⟩ := (mem_paths_iff s.root.isLt hrep).mp hp
      exact hx p k hk hl hsym

/-- Settles O36: no code of a tree begins with another, and their Kraft sum is the tree's. -/
theorem walkTableProperties : Obligations.WalkTableProperties := by
  intro s t hv ha hne ht
  obtain ⟨tr, t', -, hlen, hd, hcode, ht', hholds, -⟩ := exec_walk_of_arenaHoldsTree hv ha hne
  cases ht'.symm.trans ht
  have hfree := hholds.prefixFree hcode
  refine ⟨hfree, fun x y => hfree.codeOf_injective, ?_⟩
  rw [hholds.kraft_eq hcode, Tree.kraft_codes hd, hlen]
  exact if_congr (BitVec.toNat_inj (y := 1#9)) rfl rfl

/-- Settles O37: WALK's table depends on the arena and ROOT, and TREE_VALID says whether it is written. -/
theorem walkReadsOnlyTheTree : Obligations.WalkReadsOnlyTheTree := by
  intro s u t ht hn hr hvalid
  obtain ⟨hv, -⟩ | ⟨hv, ⟨-, hfault⟩ | ⟨m, hm, hs⟩⟩ := execWalk_cases s
  · exact ⟨_, exec_walk_of_noTree (hvalid.trans hv), fun h => absurd (hv.symm.trans h) (by decide), fun _ => rfl⟩
  · cases hfault.symm.trans ht
  · cases hs.symm.trans ht
    exact ⟨_, exec_walk_of_walkTable (hvalid.trans hv) ((walkTable_congr hn hr).trans hm), fun _ => rfl,
      fun h => absurd (hv.symm.trans h) (by decide)⟩

end Sys2Proof.Machine
end

section
/-! The bit packer (43_bit_packer.md). -/

namespace Sys2Proof.Machine

/-! The errors, in the order they are checked (43_bit_packer.md R211 to R213, 60_exceptions.md R265). -/

theorem exec_encode_of_tooLong {s : State} (h : s.params.symBufSize < s.symLen.toNat) :
    exec .encode s = .next (completeErr .lenRange s.symLen (failEncode s)) := if_pos h

theorem exec_encode_of_uncoded {s : State} {i : Nat} (hlen : s.symLen.toNat ≤ s.params.symBufSize) (hi : i < s.symLen.toNat)
    (hn : ¬ HasCode s (symRead s i)) (hb : ∀ k < i, HasCode s (symRead s k)) :
    exec .encode s = .next (completeErr .noCode (BitVec.ofNat 32 i) (failEncode s)) := by
  have hread {k : Nat} (hk : k < s.symLen.toNat) : (inputSymbols s s.symLen.toNat)[k]? = some (symRead s k) := by
    simp [inputSymbols, hk]
  have hfirst : firstUncoded s 0 (inputSymbols s s.symLen.toNat) = some i := by
    rw [firstUncoded_eq_some (hread hi) hn, Nat.zero_add]
    intro k hk x hx
    cases (hread (hk.trans hi)).symm.trans hx
    exact hb k hk
  simp only [exec, execEncode, hfirst]
  rw [if_neg (Nat.not_lt.mpr hlen)]

theorem exec_encode_of_noRoom {s : State} (hc : InputCoded s) (hb : s.params.byteBufSize < (inputCode s).length / 8 + 2) :
    exec .encode s = .next (completeErr .outOvf (BitVec.ofNat 32 ((inputCode s).length / 8 + 2)) (failEncode s)) := by
  have hcode : encodedBits s (inputSymbols s s.symLen.toNat) = inputCode s := encodedBits_inputSymbols s _
  simp only [exec, execEncode, firstUncoded_of_inputCoded hc, hcode]
  rw [if_neg (Nat.not_lt.mpr hc.1), if_pos hb]

/-- Settles O38: each error is the completion with it from the state that a failed ENCODE leaves. -/
theorem encodeErrors : Obligations.EncodeErrors := by
  intro s e info h
  have herr : exec .encode s = .next (completeErr e (BitVec.ofNat 32 info) (failEncode s)) := by
    obtain ⟨hlen, rfl, rfl⟩ | ⟨hlen, hi, hn, hb, rfl⟩ | ⟨hc, hb, rfl, rfl⟩ := h
    · rw [exec_encode_of_tooLong hlen, BitVec.ofNat_toNat, BitVec.setWidth_eq]
    · exact exec_encode_of_uncoded hlen hi hn hb
    · exact exec_encode_of_noRoom hc hb
  exact ⟨_, herr, byteRead_failEncode s, rfl⟩

/-! The packed stream (30_encoding.md R108 to R110). -/

/-- The first byte of the stream is the padding count (30_encoding.md R108). -/
theorem getD_bytesOf_packedStream_zero (n : Nat) (e : List Bool) :
    (bytesOf (n + 1) (packedStream e)).getD 0 0#8 = BitVec.ofNat 8 (padOf e.length) := by
  have hle := padOf_le e.length
  have htake : (packedStream e).take 8 = bitsOf 8 (padOf e.length) := by
    rw [packedStream, List.append_assoc, List.take_left' (length_bitsOf _ _)]
  rw [bytesOf, List.getD_cons_zero, htake, valOf_bitsOf, Nat.mod_eq_of_lt (by omega)]

/-- After the code bits the stream is zeros (30_encoding.md R108). -/
theorem getD_packedStream_padding {e : List Bool} {i : Nat} (h : 8 + e.length ≤ i) : (packedStream e).getD i false = false := by
  rw [packedStream, List.getD_append_right _ _ _ _ (by simpa using h), List.getD_eq_getElem?_getD,
    List.getElem?_getD_replicate_default_eq]

/-- Settles O39: the bytes written are the stream's, eight bits each. -/
theorem encodeWritesPackedStream : Obligations.EncodeWritesPackedStream := by
  intro s hc hb l pad
  have hread := fun j => byteRead_byteWriteAll 0 j (bytesOf (l / 8 + 2) (packedStream (inputCode s))) s
  simp only [Nat.zero_le, true_and, Nat.zero_add, Nat.sub_zero, length_bytesOf] at hread
  refine ⟨_, execEncode_of_fits hc hb, ?_, fun j k hk hj => ?_, fun j hj => ?_, rfl⟩
  · exact ((hread 0).trans (if_pos (Nat.succ_pos _))).trans (getD_bytesOf_packedStream_zero _ _)
  · refine (congrArg (·.getLsbD (7 - k)) ((hread j).trans (if_pos hj))).trans ?_
    exact getLsbD_bytesOf (length_packedStream _).ge hj hk
  · exact (hread j).trans (if_neg (Nat.not_lt.mpr hj))

/-! What a success leaves (43_bit_packer.md R215, R217). -/

theorem inputCoded_of_exec_encode {s t : State} (h : exec .encode s = .next t) (ht : t.err = false) :
    InputCoded s ∧ (inputCode s).length / 8 + 2 ≤ s.params.byteBufSize := by
  obtain ⟨u, hu, ⟨e, info, rfl⟩ | ⟨hc, hb, -⟩⟩ := execEncode_cases s
  · cases hu.symm.trans h
    cases ht
  · exact ⟨hc, hb⟩

/-- The result registers hold their numbers untruncated (log 15). -/
theorem toNat_results_of_exec_encode {s t : State} (hp : s.params.WellFormed) (h : exec .encode s = .next t)
    (ht : t.err = false) : t.encBits.toNat = (inputCode s).length ∧ t.byteLen.toNat = (inputCode s).length / 8 + 2 ∧
      t.pad.toNat = padOf (inputCode s).length := by
  obtain ⟨hc, hb⟩ := inputCoded_of_exec_encode h ht
  obtain ⟨-, -, -, hsize⟩ := hp
  have hle := padOf_le (inputCode s).length
  cases (execEncode_of_fits hc hb).symm.trans h
  simp only [complete_encBits, complete_byteLen, complete_pad, BitVec.toNat_ofNat]
  omega

/-- The last PAD bits of the last byte are 0 (43_bit_packer.md R217(c)). -/
theorem getLsbD_lastByte_of_exec_encode {s t : State} (h : exec .encode s = .next t) (ht : t.err = false) {k : Nat}
    (hk : k < padOf (inputCode s).length) : (byteRead t ((inputCode s).length / 8 + 1)).getLsbD k = false := by
  obtain ⟨hc, hb⟩ := inputCoded_of_exec_encode h ht
  obtain ⟨u, hu, -, hbits, -⟩ := encodeWritesPackedStream s hc hb
  cases hu.symm.trans h
  have hle := padOf_le (inputCode s).length
  have hbit := hbits ((inputCode s).length / 8 + 1) (7 - k) (by omega) (by omega)
  rw [show 7 - (7 - k) = k by omega] at hbit
  exact hbit.trans (getD_packedStream_padding (by rw [padOf] at hk; omega))

/-- With the table of a single leaf every symbol is the bit 0 (43_bit_packer.md R217(f)). -/
theorem inputCode_of_singleLeaf {s : State} {x : Byte} (hc : InputCoded s) (hx : ctRead s x = { len := 1#8, code := 0#256 })
    (hother : ∀ y, y ≠ x → ctRead s y = { len := 0#8, code := 0#256 }) :
    inputCode s = List.replicate s.symLen.toNat false := by
  have hcode {i : Nat} (hi : i < s.symLen.toNat) : codeOf s (symRead s i) = [false] := by
    have hsym : symRead s i = x := by
      by_contra hne
      exact hc.2 i hi (congrArg CtEntry.len (hother _ hne))
    rw [hsym, codeOf, hx]
    rfl
  calc inputCode s = (List.range s.symLen.toNat).flatMap fun _ => [false] :=
        List.flatMap_congr fun i hi => hcode (List.mem_range.mp hi)
    _ = List.replicate s.symLen.toNat false := by rw [← List.map_eq_flatMap, List.map_const', List.length_range]

/-- Settles O40, from the numbers in the result registers and the zeros after the code bits. -/
theorem encodeResultProperties : Obligations.EncodeResultProperties := by
  intro s t hp _ h ht
  obtain ⟨hc, hb⟩ := inputCoded_of_exec_encode h ht
  obtain ⟨hbits, hlen, hpad⟩ := toNat_results_of_exec_encode hp h ht
  have hzero := fun k => getLsbD_lastByte_of_exec_encode h ht (k := k)
  obtain ⟨u, hu, hhead, -⟩ := encodeWritesPackedStream s hc hb
  cases hu.symm.trans h
  have hpos := padOf_pos (inputCode s).length
  have hle := padOf_le (inputCode s).length
  refine ⟨by omega, by omega, ?_, ?_, by omega, by omega, ?_, fun hn => ?_, fun x hx hother => ?_⟩
  · rw [hhead, hpad, BitVec.toNat_ofNat]
    exact Nat.mod_eq_of_lt (by omega)
  · rw [hbits, hlen, hpad, padOf]
    omega
  · rw [hlen, hpad]
    exact hzero
  · have hnil : inputCode s = [] := by rw [inputCode, hn]; rfl
    rw [hnil] at hbits hlen hpad hhead hzero
    exact ⟨BitVec.eq_of_toNat_eq hbits, BitVec.eq_of_toNat_eq hpad, BitVec.eq_of_toNat_eq hlen, hhead,
      BitVec.eq_of_getLsbD_eq fun k hk => (hzero k hk).trans (by simp)⟩
  · have hcode := inputCode_of_singleLeaf hc hx hother
    exact ⟨BitVec.eq_of_toNat_eq (by rw [hbits, hcode, List.length_replicate]), hcode⟩

end Sys2Proof.Machine
end

section
/-! Optimality (43_bit_packer.md R217(e)): the bits of the input are the cost of the tree BUILD made, and a code for the symbols
present in which no code begins with another costs no less. -/

namespace Sys2Proof.Machine

/-! Sums over the input, by its symbols. -/

/-- A sum over an input whose counts are FREQ, symbol by symbol. -/
theorem sum_map_input {s : State} {xs : List Byte} (hxs : ∀ x, xs.count x = (freqRead s x).toNat) (g : Byte → Nat) :
    (xs.map g).sum = ((leafSymbols s).map fun x => (freqRead s x).toNat * g x).sum := by
  have hsame : xs.toFinset = (leafSymbols s).toFinset := by
    ext x
    rw [List.mem_toFinset, List.mem_toFinset, mem_leafSymbols, ← List.count_pos_iff, hxs, Nat.pos_iff_ne_zero]
    exact not_congr (BitVec.toNat_inj (y := 0#32))
  rw [Finset.sum_list_map_count, hsame, List.sum_toFinset _ (nodup_leafSymbols s)]
  simp only [hxs, smul_eq_mul]

theorem length_inputCode (s : State) :
    (inputCode s).length = ((List.range s.symLen.toNat).map fun i => (ctRead s (symRead s i)).len.toNat).sum := by
  simp [inputCode, List.length_flatMap]

/-- Where no symbol's code begins with another's, the lengths satisfy Kraft's inequality. -/
theorem exists_lengths_of_prefixFree {s : State} {code : Byte → List Bool}
    (h : ∀ x y, x ≠ y → freqRead s x ≠ 0#32 → freqRead s y ≠ 0#32 → ¬ code x <+: code y) :
    ∃ d, Lengths d ((leafSymbols s).map fun x => ((freqRead s x).toNat, (code x).length)) := by
  obtain ⟨d, hd⟩ := ((leafSymbols s).map fun x => (code x).length).toFinset.exists_le
  have hlen : ∀ x ∈ leafSymbols s, (code x).length ≤ d := fun x hx =>
    hd _ (List.mem_toFinset.mpr (List.mem_map_of_mem hx))
  have hfree : ((leafSymbols s).map code).Pairwise fun a b => ¬ a <+: b ∧ ¬ b <+: a := by
    refine List.pairwise_map.mpr ((nodup_leafSymbols s).imp_of_mem fun {x y} hx hy hxy => ?_)
    rw [mem_leafSymbols] at hx hy
    exact ⟨h x y hxy hx hy, h y x hxy.symm hy hx⟩
  have hkraft := kraft_le hfree (List.forall_mem_map.mpr hlen)
  refine ⟨d, List.forall_mem_map.mpr hlen, ?_⟩
  rwa [List.map_map] at hkraft ⊢

/-! The tree of BUILD. -/

/-- A tree over the symbols present whose cost no lengths for their frequencies beat. -/
structure IsOptimalTree (s : State) (tr : Tree) : Prop where
  leaves  : tr.leaves.Perm ((leafSymbols s).map fun x => (x, freqRead s x))
  cost_le : ∀ d g, Lengths d g → (g.map Prod.fst).Perm ((leafSymbols s).map fun x => (freqRead s x).toNat) → tr.cost ≤ costOf g

/-- Before the first merge every tree of the queue is a leaf (41_tree_builder.md R165). -/
theorem Building.eq_leaf_of_loaded {s : State} {f : List (Key × Tree)} (h : Building s (loadedBuilder s) f) {e : Key × Tree}
    (he : e ∈ f) : ∃ x w, e.2 = .leaf x w := by
  obtain ⟨hlt, -, hrep⟩ := h.trees e he
  rw [loadedBuilder_n] at hlt
  have hnode := h.loaded _ _ (List.getElem?_eq_getElem hlt)
  cases htr : e.2 with
  | leaf x w => exact ⟨x, w, rfl⟩
  | node l r =>
    rw [htr] at hrep
    obtain ⟨-, a, c, -, -, -, hint, -⟩ := hrep
    cases (congrArg Node.leaf hint).symm.trans (congrArg Node.leaf hnode)

/-- The merge loop has fuel for every key of the queue. -/
theorem Building.length_queue_le_of_loaded {s : State} {f : List (Key × Tree)} (h : Building s (loadedBuilder s) f) :
    (loadedBuilder s).queue.length ≤ (loadedBuilder s).n := by
  have hlen := h.queue.length_eq
  have hcount := h.count
  have hle := h.loadedLe
  rw [List.length_map] at hlen
  omega

/-- Before the first merge no internal node has been made. -/
theorem Building.cost_of_loaded {s : State} {f : List (Key × Tree)} (h : Building s (loadedBuilder s) f) :
    (f.map fun e => e.2.cost).sum = 0 := by
  refine List.sum_eq_zero (List.forall_mem_map.mpr fun e he => ?_)
  obtain ⟨x, w, htr⟩ := h.eq_leaf_of_loaded he
  rw [htr]
  rfl

/-- Before the first merge the keys of the queue are the frequencies of the symbols present. -/
theorem Building.freq_perm_of_loaded {s : State} {f : List (Key × Tree)} (h : Building s (loadedBuilder s) f) :
    (f.map fun e => e.1.freq).Perm ((leafSymbols s).map fun x => (freqRead s x).toNat) := by
  have hkey : ∀ e ∈ f, e.2.leaves.map (fun l => l.2.toNat) = [e.1.freq] := fun e he => by
    obtain ⟨x, w, htr⟩ := h.eq_leaf_of_loaded he
    rw [(h.trees e he).2.1, htr]
    rfl
  have hleaves := h.leaves.map fun l => l.2.toNat
  rwa [List.map_flatMap, List.flatMap_congr hkey, ← List.map_eq_flatMap, List.map_map] at hleaves

/-- BUILD with a symbol present makes an optimal tree, its root at ROOT (41_tree_builder.md R169). -/
theorem exec_build_isOptimalTree {s : State} (ho : ¬ FreqOverflows s) (hne : leafSymbols s ≠ []) :
    ∃ t tr, exec .build s = .next t ∧ t.root ≠ noneIndex ∧ Represents t t.root.toNat tr ∧ IsOptimalTree s tr ∧
      t = { s with
        node := t.node, nleaf := t.nleaf, nnode := t.nnode, root := t.root, treeValid := true, phase := .idle, done := true,
        irqStatus := s.irqStatus ||| 1#2 } := by
  obtain ⟨b, -, hdone, -⟩ := mergeLoop_of_not_overflows ho
  obtain ⟨t, b', ht, ⟨hb', rfl⟩ | ⟨hb', -⟩⟩ := execBuild_cases s
  · cases hb'.symm.trans hdone
    obtain ⟨f₀, hload⟩ := building_loaded s
    obtain ⟨f, hb, hq, hopt⟩ := mergeLoop_optimal _ _ _ _ hload hload.length_queue_le_of_loaded hdone
    obtain ⟨k, tr, rfl, hqueue, hk, hn, -⟩ := hb.root hq hne
    obtain ⟨-, -, hstands⟩ := hb.trees _ (List.mem_singleton_self _)
    have hle := length_leafSymbols_le s
    have hroot := toNat_rootOf hqueue (by omega)
    have hrep : Represents (arenaOf s b) (rootOf b).toNat tr := by rw [hroot]; exact hstands
    refine ⟨_, tr, ht, fun he => ?_, ?_, ⟨?_, fun d g hL hg => ?_⟩, rfl⟩
    · have := (congrArg BitVec.toNat he).symm.trans hroot
      simp only [BitVec.toNat_ofNat] at this
      omega
    · refine (represents_congr ?_ tr _).mp hrep
      rfl
    · simpa using hb.leaves
    · have hcost := hopt d g hL (hg.trans hload.freq_perm_of_loaded.symm)
      rwa [hload.cost_of_loaded, Nat.zero_add, List.map_singleton, List.sum_singleton] at hcost
  · cases hb'.symm.trans hdone

theorem IsOptimalTree.symbols_perm {s : State} {tr : Tree} (h : IsOptimalTree s tr) : tr.symbols.Perm (leafSymbols s) := by
  simpa [Tree.symbols_eq, Function.comp_def] using h.leaves.map Prod.fst

/-- The cost of a tree with two leaves or more is its code lengths, weighted by the frequencies. -/
theorem IsOptimalTree.cost_eq {s t : State} {tr : Tree} (h : IsOptimalTree s tr) (htwo : 2 ≤ (leafSymbols s).length)
    (hcode : IsPrefixCode tr.codes) (ht : HoldsCodes t tr.codes) :
    ((leafSymbols s).map fun x => (freqRead s x).toNat * (ctRead t x).len.toNat).sum = tr.cost := by
  have hsym := h.symbols_perm
  rw [← (hsym.map _).sum_eq, ← tr.codes_symbols, List.map_map]
  cases tr with
  | leaf x f =>
    rw [← hsym.length_eq] at htwo
    exact absurd htwo (Nat.not_succ_le_self 1)
  | node l r =>
    have hw : ∀ e ∈ (Tree.node l r).leaves, e.2.toNat = (freqRead s e.1).toNat := fun e he => by
      obtain ⟨x, -, rfl⟩ := List.mem_map.mp (h.leaves.mem_iff.mp he)
      rfl
    rw [← (Tree.cost_eq (w := fun x => (freqRead s x).toNat) hw).1]
    exact congrArg List.sum (List.map_congr_left fun e he => by rw [Function.comp_apply, ht.toNat_len hcode he])

/-- WALK of an optimal tree writes the tree's codes (42_code_table.md R195). -/
theorem exec_walk_of_isOptimalTree {s t : State} {tr : Tree} (hv : t.treeValid = true) (hroot : t.root ≠ noneIndex)
    (hrep : Represents t t.root.toNat tr) (h : IsOptimalTree s tr) : ∃ u, exec .walk t = .next u ∧ IsPrefixCode tr.codes ∧
      HoldsCodes u tr.codes ∧ u = { t with ct := u.ct, phase := .idle, done := true, irqStatus := t.irqStatus ||| 1#2 } := by
  have hlen := h.symbols_perm.length_eq
  have hle := length_leafSymbols_le s
  have hdepth := tr.depth_lt_symbols
  have hd : tr.depth ≤ 255 := by omega
  have hcode := Tree.isPrefixCode_codes (h.symbols_perm.nodup_iff.mpr (nodup_leafSymbols s)) hd
  obtain ⟨u, hu, hholds, hframe⟩ := exec_walk_holdsCodes hv hcode.nodup (walkTable_of_represents hroot hrep hd)
  exact ⟨u, hu, hcode, hholds, hframe⟩

/-- Settles O48: ENC_BITS is the cost of BUILD's tree, and the other code's lengths cost no less. -/
theorem encodeIsOptimal : Obligations.EncodeIsOptimal := by
  intro s s₁ s₂ s₃ hp ho _ htwo hcount hbuild hwalk hencode herr
  obtain ⟨t, tr, ht, hroot, hrep, hopt, hframe₁⟩ :=
    exec_build_isOptimalTree ho (List.ne_nil_of_length_pos (Nat.zero_lt_of_lt htwo))
  cases ht.symm.trans hbuild
  obtain ⟨u, hu, hcode, hholds, hframe₂⟩ := exec_walk_of_isOptimalTree (by rw [hframe₁]) hroot hrep hopt
  cases hu.symm.trans hwalk
  have hparams : s₂.params = s.params := by rw [hframe₂, hframe₁]
  have hlen : s₂.symLen = s.symLen := by rw [hframe₂, hframe₁]
  have hsym : symRead s₂ = symRead s := funext (symRead_congr (by rw [hframe₂, hframe₁]))
  have hbits : s₃.encBits.toNat = ((List.range s.symLen.toNat).map fun i => (ctRead s₂ (symRead s i)).len.toNat).sum := by
    obtain ⟨hbits, -⟩ := toNat_results_of_exec_encode (hparams ▸ hp) hencode herr
    rw [hbits, length_inputCode, hlen, hsym]
  have hinput (g : Byte → Nat) : ((List.range s.symLen.toNat).map fun i => g (symRead s i)).sum =
      ((leafSymbols s).map fun x => (freqRead s x).toNat * g x).sum := by
    rw [← sum_map_input hcount, List.map_map]
    rfl
  refine ⟨hbits, fun code hfree => ?_⟩
  obtain ⟨d, hL⟩ := exists_lengths_of_prefixFree hfree
  calc s₃.encBits.toNat = tr.cost := by
        rw [hbits, hinput fun x => (ctRead s₂ x).len.toNat, hopt.cost_eq htwo hcode hholds]
    _ ≤ costOf ((leafSymbols s).map fun x => ((freqRead s x).toNat, (code x).length)) :=
        hopt.cost_le d _ hL (by rw [List.map_map]; rfl)
    _ = _ := by
        rw [hinput fun x => (code x).length, costOf, List.map_map]
        rfl

end Sys2Proof.Machine
end

section
/-! The decoder (44_decoder.md). -/

namespace Sys2Proof.Machine

/-! The walk over a whole payload that it emits, and over the bits where it stops (44_decoder.md R237 to R239). -/

theorem greedyWalk_of_emits {s : State} {cap : Nat} {p : List Bool} {xs : List Byte} (h : Emits s p xs) (hl : xs.length ≤ cap) :
    greedyWalk (codedSymbols s) cap p 0 [] 0 [] = .ok xs := by
  have hw := greedyWalk_emits (rest := []) h 0 [] (by simpa using hl)
  rwa [List.append_nil] at hw

section
variable {s : State} {c : List Bool}

theorem greedyWalk_of_ambiguous (h : ResolvesAt s c) {x y : Byte} (hxy : x ≠ y) (hx : Matches s c x) (hy : Matches s c y)
    (cap : Nat) (bits : List Bool) (k : Nat) (out : List Byte) :
    greedyWalk (codedSymbols s) cap (c ++ bits) k [] k out = .error (.tableAmbig, k) := by
  obtain ⟨a, b, l, hm⟩ := matching_eq_two h.1 hxy hx hy
  rw [greedyWalk_resolves h, hm]

theorem greedyWalk_of_full (h : ResolvesAt s c) {x : Byte} (hx : ∀ y, Matches s c y ↔ y = x) {cap : Nat} {out : List Byte}
    (hfull : out.length = cap) (bits : List Bool) (k : Nat) :
    greedyWalk (codedSymbols s) cap (c ++ bits) k [] k out = .error (.outOvf, k) := by
  rw [greedyWalk_resolves h, matching_eq_singleton h.1 hx]
  exact if_pos hfull

theorem greedyWalk_of_noMatch (h : ResolvesAt s c) (hm : ∀ x, ¬ Matches s c x) (hl : ¬ Live s c) (cap : Nat) (bits : List Bool)
    (k : Nat) (out : List Byte) : greedyWalk (codedSymbols s) cap (c ++ bits) k [] k out = .error (.decodeNoMatch, k) := by
  rw [greedyWalk_resolves h, matching_eq_nil h.1 hm]
  exact if_neg (mt live_iff.mp hl)

theorem greedyWalk_of_residue (h : Unresolved s c) (hc : c ≠ []) (cap k : Nat) (out : List Byte) :
    greedyWalk (codedSymbols s) cap c k [] k out = .error (.decodeResidue, k) := by
  have hw := greedyWalk_unresolved (cap := cap) (bits := []) (start := k) (out := out) c [] k h
  rw [List.append_nil] at hw
  exact hw.trans (if_neg hc)

end

/-! What a DECODE ends with, outcome by outcome (44_decoder.md R231 to R241). -/

section
variable {s : State}

theorem exec_decode_of_tooLong (h : s.params.byteBufSize < s.byteLen.toNat) :
    exec .decode s = .next (completeErr .lenRange s.byteLen (failDecode s)) := if_pos h

theorem exec_decode_of_empty (h : s.byteLen = 0#32) :
    exec .decode s = .next (complete { s with symLen := 0#32, encBits := 0#32, pad := 0#4 }) := by
  have hzero : s.byteLen.toNat = 0 := congrArg BitVec.toNat h
  simp only [exec, execDecode]
  rw [if_neg (by omega), if_pos hzero]

theorem exec_decode_of_badHeader (hlen : s.byteLen.toNat ≤ s.params.byteBufSize) (hne : s.byteLen ≠ 0#32)
    (hh : (byteRead s 0).toNat = 0 ∨ 9 ≤ (byteRead s 0).toNat) :
    exec .decode s = .next (completeErr .padHdr (BitVec.ofNat 32 (byteRead s 0).toNat) (failDecode s)) := by
  have hpos : s.byteLen.toNat ≠ 0 := fun h => hne (BitVec.eq_of_toNat_eq h)
  simp only [exec, execDecode]
  rw [if_neg (by omega), if_neg hpos, if_pos (by omega)]

theorem exec_decode_of_headerOnly (hlen : s.byteLen.toNat ≤ s.params.byteBufSize) (hone : s.byteLen = 1#32)
    (hpos : 1 ≤ (byteRead s 0).toNat) (hle : (byteRead s 0).toNat ≤ 8) :
    exec .decode s = .next (completeErr .padLen (BitVec.ofNat 32 (byteRead s 0).toNat) (failDecode s)) := by
  have hb : s.byteLen.toNat = 1 := congrArg BitVec.toNat hone
  simp only [exec, execDecode]
  rw [if_neg (by omega), if_neg (by omega), if_neg (by omega), if_pos (by omega)]

/-- The walk stops after the first |p₁| bits, with ERR_INFO = |p₁| (44_decoder.md R237 to R239). -/
theorem exec_decode_of_walkError {p₁ q : List Bool} {xs : List Byte} {e : CmdError} (hh : HeaderOk s)
    (hp : IsPayload s (p₁ ++ q)) (hx : Emits s p₁ xs) (hl : xs.length ≤ s.params.symBufSize)
    (hw : greedyWalk (codedSymbols s) s.params.symBufSize q p₁.length [] p₁.length xs = .error (e, p₁.length)) :
    exec .decode s = .next (completeErr e (BitVec.ofNat 32 p₁.length) (failDecode s)) := by
  have hwalk := greedyWalk_emits (rest := q) hx 0 [] (by simpa using hl)
  rw [Nat.zero_add, List.nil_append, hw] at hwalk
  rw [exec, execDecode_of_headerOk hh hp, hwalk]

theorem exec_decode_of_emits {p : List Bool} {xs : List Byte} (hh : HeaderOk s) (hp : IsPayload s p) (hx : Emits s p xs)
    (hl : xs.length ≤ s.params.symBufSize) : exec .decode s = .next (complete { symWriteAll 0 xs s with
      symLen := BitVec.ofNat 32 xs.length
      encBits := BitVec.ofNat 32 p.length
      pad := BitVec.ofNat 4 (byteRead s 0).toNat }) := by
  rw [exec, execDecode_of_headerOk hh hp, greedyWalk_of_emits hx hl]

end

/-- Every DECODE error leaves the state of R241: the completion with it from the state that a failed DECODE leaves. -/
theorem exists_of_exec_decode_eq_completeErr {s : State} {e : CmdError} {info : Nat}
    (h : exec .decode s = .next (completeErr e (BitVec.ofNat 32 info) (failDecode s))) :
    ∃ t, exec .decode s = .next t ∧ (∀ i, symRead t i = Config.freeSymbol s.draws i) ∧
      t = { s with
        symBuf := t.symBuf, draws := s.draws + 1, symLen := 0#32, encBits := 0#32, pad := 0#4, phase := .idle,
        done := true, err := true, errCode := some e, errInfo := BitVec.ofNat 32 info, irqStatus := s.irqStatus ||| 3#2 } :=
  ⟨_, h, symRead_failDecode s, rfl⟩

/-! The statements on one DECODE. -/

/-- Settles O42: BYTE_LEN = 0 is the success without a walk. -/
theorem decodeOfEmptySequence : Obligations.DecodeOfEmptySequence := fun _ => exec_decode_of_empty

/-- Settles O41: each error is the completion with it from the state that a failed DECODE leaves. -/
theorem decodeInputErrors : Obligations.DecodeInputErrors := by
  intro s e info h h'
  refine exists_of_exec_decode_eq_completeErr ?_
  obtain ⟨hlen, rfl, rfl⟩ | ⟨hlen, hne, hh, rfl, rfl⟩ | ⟨hlen, hone, hpos, hle, rfl, rfl⟩ := h'
  · rw [exec_decode_of_tooLong hlen, BitVec.ofNat_toNat, BitVec.setWidth_eq]
  · exact exec_decode_of_badHeader hlen hne hh
  · exact exec_decode_of_headerOnly hlen hone hpos hle

/-- Settles O43: the walk answers the symbols emitted, and they are written to SYM_BUF from index 0 on. -/
theorem decodeEmitsSymbols : Obligations.DecodeEmitsSymbols := by
  intro s p xs hh hp hx hl
  refine ⟨_, exec_decode_of_emits hh hp hx hl, fun i x hi => ?_, fun i hi => ?_, rfl⟩
  · have hlt : i < xs.length := (List.getElem?_eq_some_iff.mp hi).1
    refine (symRead_symWriteAll 0 i xs s).trans ((if_pos ⟨Nat.zero_le _, by omega⟩).trans ?_)
    rw [Nat.sub_zero, List.getD_eq_getElem?_getD, hi, Option.getD_some]
  · exact (symRead_symWriteAll 0 i xs s).trans (if_neg (by omega))

/-- Settles O44: after the symbols emitted the walk stops at the bits c, in one of its four ways. -/
theorem decodeWalkErrors : Obligations.DecodeWalkErrors := by
  intro s p₁ xs c rest e hh hp hx hl hc hstop
  rw [List.append_assoc] at hp
  refine exists_of_exec_decode_eq_completeErr (exec_decode_of_walkError hh hp hx hl ?_)
  obtain ⟨hr, ⟨x, y, hxy, hmx, hmy⟩, rfl⟩ | ⟨hr, ⟨x, hm⟩, hfull, rfl⟩ | ⟨hr, hm, hlive, rfl⟩ | ⟨hu, rfl, rfl⟩ := hstop
  · exact greedyWalk_of_ambiguous hr hxy hmx hmy _ _ _ _
  · exact greedyWalk_of_full hr hm hfull _ _
  · exact greedyWalk_of_noMatch hr hm hlive _ _ _ _
  · rw [List.append_nil]
    exact greedyWalk_of_residue hu hc _ _ _

/-! The stripped padding bits (44_decoder.md R243). -/

/-- The payload reads neither the header nor the last h bits of the last byte. -/
theorem IsPayload.of_agree {s t : State} {p : List Bool} (h : IsPayload s p) (hlen : t.byteLen = s.byteLen)
    (hhead : byteRead t 0 = byteRead s 0) (hinit : ∀ j, j + 1 < s.byteLen.toNat → byteRead t j = byteRead s j)
    (hlast : ∀ k, (byteRead s 0).toNat ≤ k → k < 8 →
      (byteRead t (s.byteLen.toNat - 1)).getLsbD k = (byteRead s (s.byteLen.toNat - 1)).getLsbD k) : IsPayload t p := by
  obtain ⟨hp, hbits⟩ := h
  rw [IsPayload, hlen, hhead]
  refine ⟨hp, fun k hk => ?_⟩
  rw [hbits k hk]
  rcases Nat.lt_or_ge (k / 8 + 2) s.byteLen.toNat with hlt | hge
  · rw [hinit _ hlt]
  · rw [show k / 8 + 1 = s.byteLen.toNat - 1 by omega, hlast (7 - k % 8) (by omega) (by omega)]

/-- Settles O45: both sequences have one header and one payload, so the walk is the same. -/
theorem decodeIgnoresPaddingBits : Obligations.DecodeIgnoresPaddingBits := by
  intro s t b hh ht hinit hlast
  obtain ⟨hlen, htwo, hpos, hle⟩ := hh
  have hhead : byteRead { s with byteBuf := b } 0 = byteRead s 0 := hinit 0 (by omega)
  have hh' : HeaderOk { s with byteBuf := b } := ⟨hlen, htwo, by rwa [hhead], by rwa [hhead]⟩
  have hp : IsPayload s (payloadBits s s.byteLen.toNat (byteRead s 0).toNat) := isPayload_iff.mpr rfl
  have hp' : IsPayload { s with byteBuf := b } (payloadBits s s.byteLen.toNat (byteRead s 0).toNat) :=
    hp.of_agree rfl hhead hinit hlast
  have hcodes : codedSymbols { s with byteBuf := b } = codedSymbols s := rfl
  rw [exec, execDecode_of_headerOk ⟨hlen, htwo, hpos, hle⟩ hp] at ht
  rw [exec, execDecode_of_headerOk hh' hp', hhead, hcodes]
  cases hw : greedyWalk (codedSymbols s) s.params.symBufSize (payloadBits s s.byteLen.toNat (byteRead s 0).toNat) 0 [] 0 [] with
  | error e => rw [hw] at ht; cases ht; rfl
  | ok xs => rw [hw] at ht; cases ht; rfl

/-! Round trips (44_decoder.md R242). -/

section
variable {s : State} (h : PrefixFree s)
include h

theorem PrefixFree.eq_of_isPrefix {x y : Byte} (hx : HasCode s x) (hy : HasCode s y) (hp : codeOf s x <+: codeOf s y) : x = y := by
  by_contra hxy
  exact h x y hxy hx hy hp

theorem PrefixFree.matches_codeOf_iff {x : Byte} (hx : HasCode s x) (y : Byte) : Matches s (codeOf s x) y ↔ y = x := by
  refine ⟨fun ⟨hl, hc⟩ => h.eq_of_isPrefix (fun hy => codeOf_ne_nil hx ?_) hx (hc ▸ List.prefix_refl _), ?_⟩
  · rw [← List.length_eq_zero_iff, ← hl, hy]
    rfl
  · rintro rfl
    exact ⟨(length_codeOf s y).symm, rfl⟩

/-- Where no code begins with another the walk accumulates a code up to its last bit (44_decoder.md R242). -/
theorem PrefixFree.resolvesAt_codeOf {x : Byte} (hx : HasCode s x) : ResolvesAt s (codeOf s x) := by
  refine ⟨codeOf_ne_nil hx, fun n hn hle => ?_⟩
  rw [List.length_dropLast] at hle
  have htake : (codeOf s x).dropLast.take n = (codeOf s x).take n := by
    rw [List.dropLast_eq_take, List.take_take, Nat.min_eq_left hle]
  have hlen : ((codeOf s x).take n).length = n := List.length_take_of_le (by omega)
  rw [htake]
  refine ⟨fun y ⟨hl, hc⟩ => ?_, x, ?_, by rw [hlen]⟩
  · have hy : HasCode s y := fun hy => by
      rw [hlen, hy] at hl
      exact hn.ne hl
    cases h.eq_of_isPrefix hy hx (hc ▸ List.take_prefix _ _)
    rw [hlen, ← length_codeOf] at hl
    omega
  · rw [hlen, ← length_codeOf]
    omega

/-- Where no code begins with another the walk of the codes of some symbols emits these symbols (44_decoder.md R242). -/
theorem PrefixFree.emits_encodedBits {xs : List Byte} (hxs : ∀ x ∈ xs, HasCode s x) : Emits s (encodedBits s xs) xs := by
  induction xs with
  | nil => exact .nil
  | cons x xs ih =>
    have hx : HasCode s x := hxs x (List.mem_cons_self)
    exact .cons _ x _ xs (h.resolvesAt_codeOf hx) (h.matches_codeOf_iff hx) (ih fun y hy => hxs y (List.mem_cons_of_mem _ hy))

end

/-- With the table of `s`, the walk of E emits the input of ENCODE. -/
theorem PrefixFree.emits_inputCode {s u : State} (h : PrefixFree s) (hc : InputCoded s) (hct : u.ct = s.ct) :
    Emits u (inputCode s) (inputSymbols s s.symLen.toNat) := by
  have hread : ctRead u = ctRead s := funext (ctRead_congr hct)
  have hcode : codeOf u = codeOf s := funext (codeOf_congr hct)
  have hfree : PrefixFree u := by simpa only [PrefixFree, HasCode, hread, hcode] using h
  have hemits := hfree.emits_encodedBits (xs := inputSymbols s s.symLen.toNat) fun x hx => by
    rw [HasCode, hread]
    exact firstUncoded_eq_none.mp (firstUncoded_of_inputCoded hc) x hx
  rwa [encodedBits, hcode, ← encodedBits, encodedBits_inputSymbols] at hemits

/-- The bits that ENCODE packed are the payload that DECODE reads (30_encoding.md R108 to R111). -/
theorem isPayload_of_exec_encode {s t : State} (hp : s.params.WellFormed) (h : exec .encode s = .next t) (ht : t.err = false) :
    HeaderOk t ∧ (byteRead t 0).toNat = padOf (inputCode s).length ∧ IsPayload t (inputCode s) := by
  obtain ⟨hc, hb⟩ := inputCoded_of_exec_encode h ht
  obtain ⟨-, hlen, -⟩ := toNat_results_of_exec_encode hp h ht
  have hparams := (exec_completes h).params
  obtain ⟨u, hu, hhead, hbits, -⟩ := encodeWritesPackedStream s hc hb
  cases hu.symm.trans h
  have hpos := padOf_pos (inputCode s).length
  have hle := padOf_le (inputCode s).length
  have hpad : (byteRead t 0).toNat = padOf (inputCode s).length := by
    rw [hhead, BitVec.toNat_ofNat]
    exact Nat.mod_eq_of_lt (by omega)
  refine ⟨⟨by rw [hlen, hparams]; exact hb, by omega, by omega, by omega⟩, hpad, ?_, fun k hk => ?_⟩
  · rw [hlen, hpad, padOf]
    omega
  · rw [hbits (k / 8 + 1) (k % 8) (by omega) (by omega), show 8 * (k / 8 + 1) + k % 8 = 8 + k by omega, List.append_assoc,
      List.getD_append_right _ _ _ _ (by rw [length_bitsOf]; omega), length_bitsOf, Nat.add_sub_cancel_left,
      List.getD_append _ _ _ _ hk, List.getD_eq_getElem _ _ hk, List.getElem?_eq_getElem hk]

/-- Settles O46: the payload is the codes of the input, and the walk of these emits the input. -/
theorem decodeInvertsEncode : Obligations.DecodeInvertsEncode := by
  intro s t u hp hfree _ h ht hct hbytes hlen hparams
  obtain ⟨hc, -⟩ := inputCoded_of_exec_encode h ht
  obtain ⟨hbits, -, hpad⟩ := toNat_results_of_exec_encode hp h ht
  obtain ⟨hh, hhead, hpayload⟩ := isPayload_of_exec_encode hp h ht
  have hread : byteRead u = byteRead t := funext (byteRead_congr hbytes)
  have hh' : HeaderOk u := by rwa [HeaderOk, hlen, hparams, hread]
  have hpayload' : IsPayload u (inputCode s) := by rwa [IsPayload, hlen, hread]
  have hemits := hfree.emits_inputCode hc (hct.trans ((exec_leavesTables h).ct (by decide) (by decide)))
  have hcount : (inputSymbols s s.symLen.toNat).length = s.symLen.toNat := by simp [inputSymbols]
  have hfits : (inputSymbols s s.symLen.toNat).length ≤ u.params.symBufSize := by
    rw [hcount, hparams, (exec_completes h).params]
    exact hc.1
  obtain ⟨v, hv, hsyms, -, hframe⟩ := decodeEmitsSymbols u _ _ hh' hpayload' hemits hfits
  refine ⟨v, hv, ?_, fun i hi => hsyms i _ (by simp [inputSymbols, hi]), ?_, ?_, by rw [hframe], by rw [hframe]⟩
  · rw [hframe, hcount, BitVec.ofNat_toNat, BitVec.setWidth_eq]
  · rw [hframe, ← hbits, BitVec.ofNat_toNat, BitVec.setWidth_eq]
  · rw [hframe, hread, hhead, ← hpad, BitVec.ofNat_toNat, BitVec.setWidth_eq]

/-- In the table WALK makes of a valid tree, the empty one among them, no code begins with another (42_code_table.md R193,
R197(a)). -/
theorem prefixFree_of_exec_walk {s t : State} (hv : s.treeValid = true) (ha : ArenaHoldsTree s) (h : exec .walk s = .next t) :
    PrefixFree t := by
  by_cases hne : s.nleaf = 0#9
  · obtain ⟨-, -, hroot⟩ | ⟨tr, -, -, hlen, -⟩ := ha
    · obtain ⟨u, hu, habsent, -⟩ := (walkOfSmallTrees s hv).1 hroot
      cases hu.symm.trans h
      exact fun x _ _ hx => absurd (congrArg CtEntry.len (habsent x)) hx
    · rw [hne] at hlen
      exact absurd hlen tr.symbols_length_pos.ne'
  · exact (walkTableProperties s t hv ha hne h).1

/-- With a valid tree WALK completes with success (40_command_control.md R133). -/
theorem err_of_exec_walk {s t : State} (hv : s.treeValid = true) (h : exec .walk s = .next t) : t.err = s.err := by
  obtain ⟨hv', -⟩ | ⟨-, ⟨-, hfault⟩ | ⟨m, -, hs⟩⟩ := execWalk_cases s
  · cases hv'.symm.trans hv
  · cases hfault.symm.trans h
  · cases hs.symm.trans h
    rfl

/-- Settles O47: BUILD makes a valid tree, so no code of WALK's table begins with another, and DECODE inverts ENCODE. -/
theorem decompressInvertsCompress : Obligations.DecompressInvertsCompress := by
  intro s s₁ s₂ s₃ hs ho _ herr _ hbuild hwalk hencode herr₃
  obtain ⟨t, ht, hframe₁, -⟩ := buildCompletes s ho
  cases ht.symm.trans hbuild
  have hvalid : s₁.treeValid = true := by rw [hframe₁]
  obtain ⟨-, -, harena⟩ := execBuild_treeConsistent hbuild
  have hfree := prefixFree_of_exec_walk hvalid (harena hvalid) hwalk
  have hparams : s₂.params = s.params := (exec_completes hwalk).params.trans (exec_completes hbuild).params
  obtain ⟨hbuf₁, hlen₁⟩ := (exec_leavesTables hbuild).syms (by decide)
  obtain ⟨hbuf₂, hlen₂⟩ := (exec_leavesTables hwalk).syms (by decide)
  have hlen : s₂.symLen = s.symLen := hlen₂.trans hlen₁
  have hsym : symRead s₂ = symRead s := funext (symRead_congr (hbuf₂.trans hbuf₁))
  have herr₁ : s₁.err = s.err := by rw [hframe₁]
  have herr₂ : s₂.err = false := (err_of_exec_walk hvalid hwalk).trans (herr₁.trans herr)
  obtain ⟨s₄, hdecode, hlen₄, hsyms, -, -, herr₄, -⟩ :=
    decodeInvertsEncode s₂ s₃ s₃ (hparams ▸ hs.params) hfree herr₂ hencode herr₃ rfl rfl rfl rfl
  rw [hlen, hsym] at hsyms
  exact ⟨s₄, hdecode, herr₄.trans herr₃, hlen₄.trans hlen, hsyms⟩

end Sys2Proof.Machine
end

section
/-! Exceptions and interrupts (60_exceptions.md): no step stops the machine, what sets and what clears the pending bits, and which
transaction changes the command record. -/

namespace Sys2Proof.Machine

/-! No step stops the machine (60_exceptions.md R260, R270). -/

theorem busAccess_params (x : Transaction) (s : State) : (busAccess x s).1.params = s.params := by
  obtain hs | ⟨g, v, -, -, -, hs⟩ := busAccess_cases x s
  · rw [hs]
  · obtain ⟨u, hu, -, -, -, -, -, -, -, hparams, -⟩ := targetWrite_frame g v s
    rw [hs, hu, hparams]

/-- With a command pending the engine completes it, by `engineStep_completes`; with none it leaves the state. -/
theorem exists_engineStep_eq_next {s : State} (h : StateInv s) : ∃ t, engineStep s = .next t ∧ t.params = s.params := by
  cases hp : s.phase with
  | idle => exact ⟨s, engineStep_of_idle hp, rfl⟩
  | busy w =>
    obtain ⟨t, ht, hc⟩ := engineStep_completes h hp
    exact ⟨t, ht, hc.params⟩

/-- Settles O50, by the kind of the next event: of the engine's moves only WALK's can fault, and the invariant bounds its tree. -/
theorem stepNeverStops : Obligations.StepNeverStops := by
  intro s h
  obtain ⟨-, hu⟩ | ⟨rest, ⟨-, hu⟩ | ⟨x, -, hu⟩ | ⟨-, hu⟩⟩ := step_cases s
  · rw [hu]; exact exists_engineStep_eq_next h
  · rw [hu]; exact exists_engineStep_eq_next (h.withHost rest s.responses)
  · exact ⟨_, hu, busAccess_params x { s with events := rest }⟩
  · exact ⟨_, hu, rfl⟩

/-! The pending bits under a transaction (60_exceptions.md R266, R268). Bit 0 of IRQ_STATUS is DONE_IP, bit 1 ERR_IP. -/

theorem getLsbD_clearPending (v : Word) (p : BitVec 2) {k : Nat} (hk : k < 2) :
    (clearPending v p).getLsbD k = (p.getLsbD k && !v.getLsbD k) := by
  simp [clearPending, hk]

theorem busAccess_write_irqStatus (v : Word) (s : State) :
    busAccess (writeAt 0x0001C v) s = ({ s with irqStatus := clearPending v s.irqStatus }, writeResponse s) :=
  busAccess_writeAt (reachable_of_whileBusy (r := .irqStatus) rfl s) rfl v

/-- Settles O19: the row of IRQ_STATUS can be reached while BUSY too. -/
theorem interruptAcknowledge : Obligations.InterruptAcknowledge := by
  refine ⟨rfl, fun s => ⟨_, busAccess_readAt (reachable_of_whileBusy (r := .irqStatus) rfl s), ?_, ?_, ?_⟩,
    fun s v => ⟨_, busAccess_write_irqStatus v s, rfl, ?_, ?_, ?_⟩⟩
  · simp [regRead, doneIp]
  · simp [regRead, errIp]
  · apply BitVec.eq_of_getLsbD_eq
    intro i hi
    simp [regRead]
  · exact getLsbD_clearPending v s.irqStatus (by decide)
  · exact getLsbD_clearPending v s.irqStatus (by decide)
  · simp only [State.irq, doneIp, errIp, getLsbD_clearPending v s.irqStatus (show 0 < 2 by decide),
      getLsbD_clearPending v s.irqStatus (show 1 < 2 by decide)]
    rfl

theorem targetWrite_irqStatus_of_ne {g : Target} (h : g ≠ .reg .irqStatus) (v : Word) (s : State) :
    (targetWrite g v s).irqStatus = s.irqStatus := by
  cases g with
  | reg r =>
    cases r with
    | irqStatus => exact absurd rfl h
    | _ => rfl
  | _ => rfl

/-- What a transaction does to the pending bits: nothing, or it is a write to IRQ_STATUS that clears those written as 1. -/
theorem busAccess_irqStatus_cases (x : Transaction) (s : State) :
    (busAccess x s).1.irqStatus = s.irqStatus ∨ (x.offset = 0x0001C#18 ∧ ∃ v, x.kind = .write v ∧
      (busAccess x s).1.irqStatus = clearPending v s.irqStatus) := by
  obtain hs | ⟨g, v, hg, hk, -, hs⟩ := busAccess_cases x s
  · exact .inl (by rw [hs])
  · by_cases hirq : g = .reg .irqStatus
    · subst hirq
      obtain ⟨-, -, ho, -⟩ := offset_of_reachedTarget hg
      exact .inr ⟨BitVec.eq_of_toNat_eq ho, v, hk, by rw [hs]; rfl⟩
    · exact .inl (by rw [hs, targetWrite_irqStatus_of_ne hirq])

/-- A transaction sets no pending bit, and clears one only by a write to IRQ_STATUS with a 1 there. -/
theorem busAccess_pendingBit {k : Nat} (hk : k < 2) (x : Transaction) (s : State) :
    ((busAccess x s).1.irqStatus.getLsbD k = true → s.irqStatus.getLsbD k = true) ∧
    (s.irqStatus.getLsbD k = true → (busAccess x s).1.irqStatus.getLsbD k = false →
      x.offset = 0x0001C#18 ∧ ∃ v, x.kind = .write v ∧ v.getLsbD k = true) := by
  obtain h | ⟨ho, v, hw, h⟩ := busAccess_irqStatus_cases x s
  · rw [h]
    exact ⟨id, fun hs ht => absurd (hs.symm.trans ht) (by decide)⟩
  · rw [h, getLsbD_clearPending v _ hk]
    exact ⟨fun ht => (Bool.and_eq_true_iff.mp ht).1, fun hs ht => ⟨ho, v, hw, by simpa [hs] using ht⟩⟩

/-! The pending bits under a completion and under a step (60_exceptions.md R266). -/

/-- With a command pending all the engine can do is complete it (40_command_control.md R132). -/
theorem completes_of_engineStep {s t : State} {w : Word} (hp : s.phase = .busy w) (h : engineStep s = .next t) :
    Completes s t := by
  obtain ⟨hidle, -⟩ | ⟨_, -, ⟨i, -, hu⟩ | ⟨-, hu⟩⟩ := engineStep_cases s
  · cases hidle.symm.trans hp
  · exact exec_completes (hu.symm.trans h)
  · cases hu.symm.trans h
    exact completes_completeErr _ _ _

/-- A completion of a command whose acceptance cleared ERR sets ERR_IP if it records an error, else leaves it. -/
theorem Completes.errIp {s t : State} (h : Completes s t) (herr : s.err = false) : errIp t = (errIp s || t.err) := by
  obtain ⟨he, -, -, hirq⟩ | ⟨he, -, hirq⟩ := h.outcome
  · simp [Machine.errIp, hirq, he, herr]
  · simp [Machine.errIp, hirq, he]

theorem Completes.getLsbD_irqStatus {s t : State} (h : Completes s t) {k : Nat} (hs : s.irqStatus.getLsbD k = true) :
    t.irqStatus.getLsbD k = true := by
  obtain ⟨-, -, -, hirq⟩ | ⟨-, -, hirq⟩ := h.outcome <;> simp [hirq, hs]

/-- A completion that sets ERR_IP records an error. -/
theorem Completes.err_of_errIp {s t : State} (h : Completes s t) (hs : Machine.errIp s = false) (ht : Machine.errIp t = true) :
    t.err = true := by
  obtain ⟨-, -, -, hirq⟩ | ⟨he, -⟩ := h.outcome
  · have hsame : Machine.errIp t = Machine.errIp s := by simp [Machine.errIp, hirq]
    exact absurd (hs.symm.trans (hsame.symm.trans ht)) (by decide)
  · exact he

/-- With a command pending the engine's move is its completion, with none it is nothing. -/
theorem engineStep_eq_or_completes {s t : State} (h : engineStep s = .next t) :
    t = s ∨ ((∃ w, s.phase = .busy w) ∧ Completes s t) := by
  cases hp : s.phase with
  | idle =>
    cases (engineStep_of_idle hp).symm.trans h
    exact .inl rfl
  | busy w => exact .inr ⟨⟨w, rfl⟩, completes_of_engineStep hp h⟩

/-- Everything that a step can do to the pending bits: nothing, a completion, a transaction's effect, or reset. -/
theorem step_irqStatus_cases {s t : State} (h : step s = .next t) :
    t.irqStatus = s.irqStatus ∨
    ((∃ w, s.phase = .busy w) ∧ ∃ es, Completes { s with events := es } t) ∨
    (∃ x rest, s.events = .bus x :: rest ∧ t.irqStatus = (busAccess x { s with events := rest }).1.irqStatus) ∨
    ((∃ rest, s.events = .reset :: rest) ∧ t.irqStatus = 0#2) := by
  obtain ⟨-, hu⟩ | ⟨rest, ⟨-, hu⟩ | ⟨x, hev, hu⟩ | ⟨hev, hu⟩⟩ := step_cases s
  · obtain rfl | ⟨hp, hc⟩ := engineStep_eq_or_completes (hu.symm.trans h)
    · exact .inl rfl
    · exact .inr (.inl ⟨hp, s.events, hc⟩)
  · obtain rfl | ⟨hp, hc⟩ := engineStep_eq_or_completes (hu.symm.trans h)
    · exact .inl rfl
    · exact .inr (.inl ⟨hp, rest, hc⟩)
  · cases hu.symm.trans h
    exact .inr (.inr (.inl ⟨x, rest, hev, rfl⟩))
  · cases hu.symm.trans h
    exact .inr (.inr (.inr ⟨⟨rest, hev⟩, rfl⟩))

/-- Only a completion sets a pending bit. -/
theorem completes_of_step_sets_pendingBit {s t : State} {k : Nat} (h : step s = .next t) (hk : k < 2)
    (hs : s.irqStatus.getLsbD k = false) (ht : t.irqStatus.getLsbD k = true) :
    (∃ w, s.phase = .busy w) ∧ ∃ es, Completes { s with events := es } t := by
  obtain hsame | hc | ⟨x, rest, -, hx⟩ | ⟨-, hzero⟩ := step_irqStatus_cases h
  · exact absurd (hs.symm.trans (hsame ▸ ht)) (by decide)
  · exact hc
  · exact absurd (hs.symm.trans ((busAccess_pendingBit hk x { s with events := rest }).1 (hx ▸ ht))) (by decide)
  · simp [hzero] at ht

/-- Only reset and a write to IRQ_STATUS with a 1 there clear a pending bit. -/
theorem reset_or_write_of_step_clears_pendingBit {s t : State} {k : Nat} (h : step s = .next t) (hk : k < 2)
    (hs : s.irqStatus.getLsbD k = true) (ht : t.irqStatus.getLsbD k = false) :
    (∃ rest, s.events = .reset :: rest) ∨ ∃ (x : Transaction) (v : Word) (rest : List Event), s.events = .bus x :: rest ∧
      x.offset = 0x0001C#18 ∧ x.kind = .write v ∧ v.getLsbD k = true := by
  obtain hsame | ⟨-, es, hc⟩ | ⟨x, rest, hev, hx⟩ | ⟨hreset, -⟩ := step_irqStatus_cases h
  · exact absurd (hs.symm.trans (hsame ▸ ht)) (by decide)
  · exact absurd ((hc.getLsbD_irqStatus hs).symm.trans ht) (by decide)
  · obtain ⟨ho, v, hw, hv⟩ := (busAccess_pendingBit hk x { s with events := rest }).2 hs (hx ▸ ht)
    exact .inr ⟨x, v, rest, hev, ho, hw, hv⟩
  · exact .inl hreset

/-- Settles O54, bit by bit: what every completion does to the two, and what in a step or a transaction can set or clear one. -/
theorem pendingBitsSetOnlyByCompletion : Obligations.PendingBitsSetOnlyByCompletion := by
  have h0 : 0 < 2 := by decide
  have h1 : 1 < 2 := by decide
  refine ⟨fun s w t hp herr h => ?_, fun i s t herr h => ?_, fun s rest hev => ⟨_, step_of_reset hev, by simp [doneIp], by simp [errIp]⟩,
    fun s t h => ⟨fun hs ht => ?_, fun hs ht => ?_, reset_or_write_of_step_clears_pendingBit h h0,
      reset_or_write_of_step_clears_pendingBit h h1⟩, fun x s => ?_⟩
  · have hc := completes_of_engineStep hp h
    exact ⟨hc.doneIp, hc.errIp herr⟩
  · have hc := exec_completes h
    exact ⟨hc.doneIp, hc.errIp herr⟩
  · obtain ⟨hp, _, hc⟩ := completes_of_step_sets_pendingBit h h0 hs ht
    exact ⟨hp, hc.phase, hc.done⟩
  · obtain ⟨hp, _, hc⟩ := completes_of_step_sets_pendingBit h h1 hs ht
    exact ⟨hp, hc.phase, hc.err_of_errIp hs ht⟩
  · obtain ⟨hset0, hclear0⟩ := busAccess_pendingBit h0 x s
    obtain ⟨hset1, hclear1⟩ := busAccess_pendingBit h1 x s
    exact ⟨hset0, hset1, hclear0, hclear1⟩

/-! The command record under a transaction (60_exceptions.md R262, R264). -/

/-- `t` has the command record and the PHASE of `s` (10_state.md R25, R26, R28, R29, R32, R47). -/
def SameRecord (s t : State) : Prop :=
  t.done = s.done ∧ t.err = s.err ∧ t.errCode = s.errCode ∧ t.errInfo = s.errInfo ∧ t.lastOp = s.lastOp ∧ t.phase = s.phase

theorem SameRecord.refl (s : State) : SameRecord s s := ⟨rfl, rfl, rfl, rfl, rfl, rfl⟩

theorem targetWrite_sameRecord {g : Target} (h : g ≠ .reg .cmd) (v : Word) (s : State) : SameRecord s (targetWrite g v s) := by
  cases g with
  | reg r =>
    cases r with
    | cmd => exact absurd rfl h
    | _ => exact .refl s
  | _ => exact .refl s

/-- CMD is reached while IDLE alone (20_memory.md R80). -/
theorem idle_of_reachedTarget_cmd {x : Transaction} {s : State} (h : reachedTarget x s = some (.reg .cmd)) : s.phase = .idle := by
  obtain ⟨-, -, -, hbusy⟩ := reachedTarget_eq_some.mp h
  cases hp : s.phase with
  | idle => rfl
  | busy w => cases hbusy (isBusy_iff.mpr ⟨w, hp⟩)

/-- Settles O55: of the targets written only CMD touches the record, and its write is acceptance. -/
theorem errorRecordStaysUntilNextCommand : Obligations.ErrorRecordStaysUntilNextCommand := by
  intro x s
  obtain hs | ⟨g, v, hg, hk, -, hs⟩ := busAccess_cases x s
  · rw [hs]; exact .inl (SameRecord.refl s)
  · rw [hs]
    by_cases hcmd : g = .reg .cmd
    · subst hcmd
      obtain ⟨-, -, ho, -⟩ := offset_of_reachedTarget hg
      exact .inr ⟨idle_of_reachedTarget_cmd hg, BitVec.eq_of_toNat_eq ho, v, hk, rfl⟩
    · exact .inl (targetWrite_sameRecord hcmd v s)

/-! The race of an acknowledge with the completion (60_exceptions.md R269). -/

/-- A step that serves a write to IRQ_STATUS. -/
theorem step_of_acknowledge {s : State} {v : Word} {rest : List Event} (h : s.events = .bus (writeAt 0x0001C v) :: rest) :
    step s = .next { s with irqStatus := clearPending v s.irqStatus, responses := s.responses ++ [writeResponse s],
                            events := rest } := by
  rw [step_of_bus h, busStep, busAccess_write_irqStatus]
  rfl

/-- Settles O58: a completion sets DONE_IP whatever it was, and a write of 1 clears it whatever it was. -/
theorem acknowledgeRacesCompletion : Obligations.AcknowledgeRacesCompletion := by
  refine fun s w rest v hinv hp hv => ⟨?_, ?_⟩
  · have hack := step_of_acknowledge (s := { s with events := .bus (writeAt 0x0001C v) :: .engine :: rest }) rfl
    have hu := stepKeepsInvariant _ _ (hinv.withHost _ s.responses) hack
    obtain ⟨t, ht, hc⟩ := engineStep_completes (hu.withHost rest _) hp
    have hengine := (step_of_engine_next (.inr rfl)).trans ht
    exact ⟨t, (core_run_succ hack 1).trans (core_run_succ hengine 0), hc.doneIp⟩
  · obtain ⟨t, ht, hc⟩ := engineStep_completes (hinv.withHost (.bus (writeAt 0x0001C v) :: rest) s.responses) hp
    have hengine : step { s with events := .engine :: .bus (writeAt 0x0001C v) :: rest } = .next t :=
      (step_of_engine_next (.inr rfl)).trans ht
    have hack := step_of_acknowledge hc.events
    refine ⟨_, (core_run_succ hengine 1).trans (core_run_succ hack 0), ?_⟩
    rw [doneIp, getLsbD_clearPending v _ (by decide), hv, Bool.not_true, Bool.and_false]

end Sys2Proof.Machine
end

section
/-! Liveness (70_reset_and_hazards.md R298): the invariant along a run of several steps, and the completion of a pending command
once the host transactions queued are served. -/

namespace Sys2Proof.Machine

/-- The invariant holds after every run, step by step by `stepKeepsInvariant`. -/
theorem stateInv_core_run {n : Nat} {s t : State} (h : StateInv s) (hrun : core.run n s = .next t) : StateInv t := by
  induction n generalizing s with
  | zero => cases hrun; exact h
  | succ n ih =>
    obtain ⟨u, hstep, -⟩ := stepNeverStops s h
    exact ih (stepKeepsInvariant s u h hstep) ((core_run_succ hstep n).symm.trans hrun)

/-- With a command pending and nothing queued, the step completes the command (log 8). -/
theorem step_completes_of_no_event {s : State} {w : Word} (h : StateInv s) (hp : s.phase = .busy w) (hev : s.events = []) :
    ∃ t, step s = .next t ∧ Completes s t := by
  rw [step_of_no_event hev]
  exact engineStep_completes h hp

/-- Settles O57: the transactions leave the command pending (O56) and the queue empty, so the step after them is the engine's. -/
theorem pendingCommandCompletes : Obligations.PendingCommandCompletes := by
  intro xs s w hinv hp hev
  obtain ⟨u, hrun, hframe, -⟩ := hostCannotDisturbPendingCommand xs s w hp hev
  have hpu : u.phase = .busy w := by rw [hframe]; exact hp
  have hevu : u.events = [] := by rw [hframe]
  obtain ⟨t, hstep, hc⟩ := step_completes_of_no_event (stateInv_core_run hinv hrun) hpu hevu
  exact ⟨⟨u, hrun, hpu⟩, t, (core_run_add hrun 1).trans (core_run_succ hstep 0), hc.phase, hc.done⟩

end Sys2Proof.Machine
end
